-- ==== Sys2Proof/Word.lean ====
section
/-! DEFINITION. The widths the spec names: a memory byte, a 32-bit register, a 64-bit register. Nothing here computes. -/

namespace Sys2Proof

/-- One byte of the memory (20_memory.md R31). -/
abbrev Byte := BitVec 8

/-- A 32-bit register or command word (10_state.md R15, R22; 30_encoding.md R61). -/
abbrev Word32 := BitVec 32

/-- A 64-bit register, argument or result (10_state.md R15, R22). -/
abbrev Word64 := BitVec 64

end Sys2Proof
end

