-- ==== Sys2Proof/Syntax.lean ====
section
/-! DEFINITION. The command packet and the commands themselves, one constructor per row of spec/opcode_table.json, with the
fields of the row's format (30_encoding.md R61 to R69). -/

namespace Sys2Proof

/-- A command packet: the command word and the two arguments (30_encoding.md R61). -/
structure Packet where
  /-- The command word CMD. -/
  cmd : Word32
  /-- The argument ARG_A. -/
  argA : Word64
  /-- The argument ARG_B. -/
  argB : Word64
  deriving DecidableEq, Repr

/-- The commands (30_encoding.md R69). A width field `n` is the 7-bit field N as encoded, an argument is the whole 64-bit
argument word: whether they are in range is `Instr.wellFormed` (R70). Arguments a command ignores are not operands (R62). -/
inductive Instr where
  /-- INIT buf, nbits (R65, R81). -/
  | init (buf nbits : Word64)
  /-- READ_BIT (R63, R91). -/
  | readBit
  /-- READ n (R64, R93). -/
  | read (n : BitVec 7)
  /-- READ_NZ n (R64, R92). -/
  | readNz (n : BitVec 7)
  /-- READ_63 n (R64, R94). -/
  | read63 (n : BitVec 7)
  /-- READ_64 n (R64, R95). -/
  | read64 (n : BitVec 7)
  /-- READ_SIGNED n (R64, R98). -/
  | readSigned (n : BitVec 7)
  /-- PEEK n (R64, R96). -/
  | peek (n : BitVec 7)
  /-- PEEK_SIGNED n (R64, R97). -/
  | peekSigned (n : BitVec 7)
  /-- SKIP n (R65, R99). -/
  | skip (n : Word64)
  /-- SEEK pos (R65, R82). -/
  | seek (pos : Word64)
  /-- ALIGN (R63, R83). -/
  | align
  /-- TELL (R63, R84). -/
  | tell
  /-- SIZE (R63, R85). -/
  | size
  /-- LEFT (R63, R86). -/
  | left
  /-- READ_VLC table, tlen, bits, depth: `n` is the field N, `d` the field D (R66, R111). -/
  | readVlc (n : BitVec 7) (d : BitVec 2) (table tlen : Word64)
  /-- SKIP_1STOP_8DATA (R63, R100). -/
  | skip1stop8data
  /-- DEQUANT blk, mat with the fields of format Q (R67, R122). -/
  | dequant (n : BitVec 7) (intra nonlin losslessDc : Bool) (qscale : BitVec 5) (dcScale : BitVec 8) (blk mat : Word64)
  /-- IDCT_PUT blk, dst, stride (R68, R128). -/
  | idctPut (stride : BitVec 16) (blk dst : Word64)
  /-- IDCT_ADD blk, dst, stride, with `n` = LAST + 1 (R68, R129). -/
  | idctAdd (n : BitVec 7) (stride : BitVec 16) (blk dst : Word64)
  /-- IDCT_DC_ADD blk, dst, stride (R68, R131). -/
  | idctDcAdd (stride : BitVec 16) (blk dst : Word64)
  deriving DecidableEq, Repr

end Sys2Proof
end

