-- ==== Sys2Proof/WellFormed.lean ====
section
/-! DEFINITION. The field range checks of 30_encoding.md R70, as one decidable predicate on a command. -/

namespace Sys2Proof

/-- The range checks of 30_encoding.md R70. A packet whose command fails its check is illegal and raises
Fault(ILLEGAL_COMMAND) (60_exceptions.md R144). -/
def Instr.wellFormed : Instr → Bool
  | .init _ nbits => decide (nbits.toNat < 2 ^ 32)
  | .readBit => true
  | .read n => decide (n.toNat ≤ 32)
  | .readNz n => decide (1 ≤ n.toNat) && decide (n.toNat ≤ 32)
  | .read63 n => decide (n.toNat ≤ 63)
  | .read64 n => decide (n.toNat ≤ 64)
  | .readSigned n => decide (1 ≤ n.toNat) && decide (n.toNat ≤ 32)
  | .peek n => decide (n.toNat ≤ 32)
  | .peekSigned n => decide (1 ≤ n.toNat) && decide (n.toNat ≤ 32)
  | .skip n => decide (n.toNat < 2 ^ 32)
  | .seek pos => decide (pos.toNat < 2 ^ 32)
  | .align => true
  | .tell => true
  | .size => true
  | .left => true
  | .readVlc n d _ _ => decide (1 ≤ n.toNat) && decide (n.toNat ≤ 32) && decide (1 ≤ d.toNat)
  | .skip1stop8data => true
  | .dequant n intra _ losslessDc qscale dcScale _ _ =>
    decide (n.toNat ≤ 64) && decide (1 ≤ qscale.toNat) && !(losslessDc && !intra) &&
      !(intra && !losslessDc && decide (dcScale.toNat = 0))
  | .idctPut stride _ _ => decide (8 ≤ stride.toNat)
  | .idctAdd n stride _ _ => decide (8 ≤ stride.toNat) && decide (n.toNat ≤ 64)
  | .idctDcAdd stride _ _ => decide (8 ≤ stride.toNat)

end Sys2Proof
end

