-- ==== Sys2Proof/Decode.lean ====
section
/-! DEFINITION. Decoding a packet into a command, and encoding a command into its packet (30_encoding.md). -/

namespace Sys2Proof

/-- Why a packet matches no row of the opcode map; either way it is an illegal packet (30_encoding.md R62). -/
inductive DecodeError where
  /-- The OP field names no command (R69: 0x00, 0x12..0x1F, 0x24..0x3F). -/
  | reservedOpcode (op : BitVec 6)
  /-- The OP field names a command, and a bit its format marks 0 is set (R62, R69). -/
  | reservedBits (op : BitVec 6)
  deriving DecidableEq, Repr

/-- CMD[5:0], the opcode field OP of every format (30_encoding.md R62). -/
def opField (cmd : Word32) : BitVec 6 := cmd.extractLsb' 0 6

/-- CMD[12:6], the field N of formats N, V, Q and T (30_encoding.md R64, R66 to R68). -/
def nField (cmd : Word32) : BitVec 7 := cmd.extractLsb' 6 7

/-- CMD[14:13], the field D of format V (30_encoding.md R66). -/
def dField (cmd : Word32) : BitVec 2 := cmd.extractLsb' 13 2

/-- CMD[20:16], the field QSCALE of format Q (30_encoding.md R67). -/
def qscaleField (cmd : Word32) : BitVec 5 := cmd.extractLsb' 16 5

/-- CMD[28:21], the field DC_SCALE of format Q (30_encoding.md R67). -/
def dcScaleField (cmd : Word32) : BitVec 8 := cmd.extractLsb' 21 8

/-- CMD[31:16], the field STRIDE of format T (30_encoding.md R68). -/
def strideField (cmd : Word32) : BitVec 16 := cmd.extractLsb' 16 16

/-- One row of the opcode map: the command if `CMD & mask = match` (30_encoding.md R69). -/
def matchRow (p : Packet) (mask pattern : Word32) (i : Instr) : Except DecodeError Instr :=
  if p.cmd &&& mask = pattern then .ok i else .error (.reservedBits (opField p.cmd))

/-- The decoder of 30_encoding.md R69: the row with `CMD & mask = match`. OP belongs to every row's mask, so OP names the
only row that can match. The range checks of R70 that R144 puts after it stand in each command's meaning. -/
def decode (p : Packet) : Except DecodeError Instr :=
  match (opField p.cmd).toNat with
  | 0x01 => matchRow p 0xFFFFFFFF 0x00000001 (.init p.argA p.argB)
  | 0x02 => matchRow p 0xFFFFFFFF 0x00000002 .readBit
  | 0x03 => matchRow p 0xFFFFE03F 0x00000003 (.read (nField p.cmd))
  | 0x04 => matchRow p 0xFFFFE03F 0x00000004 (.readNz (nField p.cmd))
  | 0x05 => matchRow p 0xFFFFE03F 0x00000005 (.read63 (nField p.cmd))
  | 0x06 => matchRow p 0xFFFFE03F 0x00000006 (.read64 (nField p.cmd))
  | 0x07 => matchRow p 0xFFFFE03F 0x00000007 (.readSigned (nField p.cmd))
  | 0x08 => matchRow p 0xFFFFE03F 0x00000008 (.peek (nField p.cmd))
  | 0x09 => matchRow p 0xFFFFE03F 0x00000009 (.peekSigned (nField p.cmd))
  | 0x0A => matchRow p 0xFFFFFFFF 0x0000000A (.skip p.argA)
  | 0x0B => matchRow p 0xFFFFFFFF 0x0000000B (.seek p.argA)
  | 0x0C => matchRow p 0xFFFFFFFF 0x0000000C .align
  | 0x0D => matchRow p 0xFFFFFFFF 0x0000000D .tell
  | 0x0E => matchRow p 0xFFFFFFFF 0x0000000E .size
  | 0x0F => matchRow p 0xFFFFFFFF 0x0000000F .left
  | 0x10 => matchRow p 0xFFFF803F 0x00000010 (.readVlc (nField p.cmd) (dField p.cmd) p.argA p.argB)
  | 0x11 => matchRow p 0xFFFFFFFF 0x00000011 .skip1stop8data
  | 0x20 => matchRow p 0xE000003F 0x00000020
      (.dequant (nField p.cmd) (p.cmd.getLsbD 13) (p.cmd.getLsbD 14) (p.cmd.getLsbD 15) (qscaleField p.cmd)
        (dcScaleField p.cmd) p.argA p.argB)
  | 0x21 => matchRow p 0x0000FFFF 0x00000021 (.idctPut (strideField p.cmd) p.argA p.argB)
  | 0x22 => matchRow p 0x0000E03F 0x00000022 (.idctAdd (nField p.cmd) (strideField p.cmd) p.argA p.argB)
  | 0x23 => matchRow p 0x0000FFFF 0x00000023 (.idctDcAdd (strideField p.cmd) p.argA p.argB)
  | _ => .error (.reservedOpcode (opField p.cmd))

/-- The opcode of each command (30_encoding.md R69). -/
def Instr.opcode : Instr → BitVec 6
  | .init _ _ => 0x01
  | .readBit => 0x02
  | .read _ => 0x03
  | .readNz _ => 0x04
  | .read63 _ => 0x05
  | .read64 _ => 0x06
  | .readSigned _ => 0x07
  | .peek _ => 0x08
  | .peekSigned _ => 0x09
  | .skip _ => 0x0A
  | .seek _ => 0x0B
  | .align => 0x0C
  | .tell => 0x0D
  | .size => 0x0E
  | .left => 0x0F
  | .readVlc _ _ _ _ => 0x10
  | .skip1stop8data => 0x11
  | .dequant _ _ _ _ _ _ _ _ => 0x20
  | .idctPut _ _ _ => 0x21
  | .idctAdd _ _ _ _ => 0x22
  | .idctDcAdd _ _ _ => 0x23

/-- `v << s` in the command word (30_encoding.md R72). -/
def fieldAt (s : Nat) {w : Nat} (v : BitVec w) : Word32 := v.setWidth 32 <<< s

/-- A one-bit flag at bit `s` of the command word (30_encoding.md R67, R72). -/
def flagAt (s : Nat) (b : Bool) : Word32 := fieldAt s (BitVec.ofBool b)

/-- The command word of a command, the formulas of 30_encoding.md R72. -/
def encodeCmd : Instr → Word32
  | .init _ _ => fieldAt 0 (0x01 : BitVec 6)
  | .readBit => fieldAt 0 (0x02 : BitVec 6)
  | .read n => fieldAt 0 (0x03 : BitVec 6) ||| fieldAt 6 n
  | .readNz n => fieldAt 0 (0x04 : BitVec 6) ||| fieldAt 6 n
  | .read63 n => fieldAt 0 (0x05 : BitVec 6) ||| fieldAt 6 n
  | .read64 n => fieldAt 0 (0x06 : BitVec 6) ||| fieldAt 6 n
  | .readSigned n => fieldAt 0 (0x07 : BitVec 6) ||| fieldAt 6 n
  | .peek n => fieldAt 0 (0x08 : BitVec 6) ||| fieldAt 6 n
  | .peekSigned n => fieldAt 0 (0x09 : BitVec 6) ||| fieldAt 6 n
  | .skip _ => fieldAt 0 (0x0A : BitVec 6)
  | .seek _ => fieldAt 0 (0x0B : BitVec 6)
  | .align => fieldAt 0 (0x0C : BitVec 6)
  | .tell => fieldAt 0 (0x0D : BitVec 6)
  | .size => fieldAt 0 (0x0E : BitVec 6)
  | .left => fieldAt 0 (0x0F : BitVec 6)
  | .readVlc n d _ _ => fieldAt 0 (0x10 : BitVec 6) ||| fieldAt 6 n ||| fieldAt 13 d
  | .skip1stop8data => fieldAt 0 (0x11 : BitVec 6)
  | .dequant n intra nonlin losslessDc qscale dcScale _ _ =>
    fieldAt 0 (0x20 : BitVec 6) ||| fieldAt 6 n ||| flagAt 13 intra ||| flagAt 14 nonlin ||| flagAt 15 losslessDc |||
      fieldAt 16 qscale ||| fieldAt 21 dcScale
  | .idctPut stride _ _ => fieldAt 0 (0x21 : BitVec 6) ||| fieldAt 16 stride
  | .idctAdd n stride _ _ => fieldAt 0 (0x22 : BitVec 6) ||| fieldAt 6 n ||| fieldAt 16 stride
  | .idctDcAdd stride _ _ => fieldAt 0 (0x23 : BitVec 6) ||| fieldAt 16 stride

/-- ARG_A of a command's packet; 0 where the command ignores it (30_encoding.md R62, R65 to R68). -/
def encodeArgA : Instr → Word64
  | .init buf _ => buf
  | .readBit => 0
  | .read _ => 0
  | .readNz _ => 0
  | .read63 _ => 0
  | .read64 _ => 0
  | .readSigned _ => 0
  | .peek _ => 0
  | .peekSigned _ => 0
  | .skip n => n
  | .seek pos => pos
  | .align => 0
  | .tell => 0
  | .size => 0
  | .left => 0
  | .readVlc _ _ table _ => table
  | .skip1stop8data => 0
  | .dequant _ _ _ _ _ _ blk _ => blk
  | .idctPut _ blk _ => blk
  | .idctAdd _ _ blk _ => blk
  | .idctDcAdd _ blk _ => blk

/-- ARG_B of a command's packet; 0 where the command ignores it (30_encoding.md R62, R65 to R68). -/
def encodeArgB : Instr → Word64
  | .init _ nbits => nbits
  | .readBit => 0
  | .read _ => 0
  | .readNz _ => 0
  | .read63 _ => 0
  | .read64 _ => 0
  | .readSigned _ => 0
  | .peek _ => 0
  | .peekSigned _ => 0
  | .skip _ => 0
  | .seek _ => 0
  | .align => 0
  | .tell => 0
  | .size => 0
  | .left => 0
  | .readVlc _ _ _ tlen => tlen
  | .skip1stop8data => 0
  | .dequant _ _ _ _ _ _ _ mat => mat
  | .idctPut _ _ dst => dst
  | .idctAdd _ _ _ dst => dst
  | .idctDcAdd _ _ dst => dst

/-- The packet of a command (30_encoding.md R72, R75). -/
def encode (i : Instr) : Packet := ⟨encodeCmd i, encodeArgA i, encodeArgB i⟩

/-- The packet whose bits are `w` below bit `nbits` and 0 above: CMD is bits 31..0, ARG_A bits 95..32, ARG_B bits 159..96. -/
def packetOfBits (nbits w : Nat) : Packet :=
  let v := w % 2 ^ nbits
  ⟨BitVec.ofNat 32 v, BitVec.ofNat 64 (v / 2 ^ 32), BitVec.ofNat 64 (v / 2 ^ 96)⟩

/-- The command the decoder reads from the packet whose bits are `w` (`packetOfBits`). -/
def decodeTableWord (nbits w : Nat) : Option Instr :=
  match decode (packetOfBits nbits w) with
  | .ok i => some i
  | .error _ => none

end Sys2Proof
end

