-- ==== Sys2Proof/Config.lean ====
section
/-! DEFINITION. What an instantiation of the block fixes (00_scope.md R5 to R7): the parameters as plain data, their defaults,
and the opaque constants behind every value the spec leaves open. -/

namespace Sys2Proof

/-- The bit order of every reader command (00_scope.md R5). -/
inductive Endian where
  /-- Little-endian: a byte is consumed from its least significant bit. -/
  | le
  /-- Big-endian: a byte is consumed from its most significant bit. -/
  | be
  deriving DecidableEq, Repr

/-- Which AC dequantization function is installed (43_reconstruction.md R123). -/
inductive AcQuant where
  /-- The default form `asr(c * q * m, k)`, with `k` the parameter SHIFT_INTRA or SHIFT_INTER. -/
  | shift (k : Nat)
  /-- Another codec's function, of which the spec says nothing: `Config.otherAcQuant id`. -/
  | other (id : Nat)
  deriving DecidableEq, Repr

/-- Which 8×8 inverse transform is installed (43_reconstruction.md R130). -/
inductive Kernel where
  /-- The default kernel, whose butterflies R130 writes out. -/
  | h264
  /-- Another admissible kernel: on a DC-only block it is what R130 (b) says, elsewhere `Config.otherKernel id`. -/
  | other (id : Nat)
  deriving DecidableEq, Repr

/-- The parameters of one instantiation of the block (00_scope.md R7). No command changes one (60_exceptions.md R149). -/
structure Params where
  /-- ENDIAN (R5). -/
  endian : Endian
  /-- CHECKED (R6). -/
  checked : Bool
  /-- PAD, the padding bytes after the stream (R7, 20_memory.md R33). -/
  pad : Nat
  /-- ADDR_W, the address width (R7, 20_memory.md R31). -/
  addrW : Nat
  /-- BSR_BASE, the address of the host register block (R7, 10_state.md R22). -/
  bsrBase : Word64
  /-- SCAN, scan index to raster position (R7, 43_reconstruction.md R125). -/
  scan : List Nat
  /-- NL_TABLE, the non-linear qscale map (R7, 43_reconstruction.md R124). -/
  nlTable : List Nat
  /-- DEQ_AC_INTRA, with its SHIFT_INTRA (R7, 43_reconstruction.md R123). -/
  acIntra : AcQuant
  /-- DEQ_AC_INTER, with its SHIFT_INTER (R7, 43_reconstruction.md R123). -/
  acInter : AcQuant
  /-- IDCT8 (R7, 43_reconstruction.md R130). -/
  kernel : Kernel
  deriving DecidableEq, Repr

namespace Config

/-- SIZE_MAX = INT_MAX - 7, the largest legal bit_size (00_scope.md R7, decision D14). -/
def sizeMax : Nat := 2147483640

/-- The default SCAN: the zig-zag order (43_reconstruction.md R125). -/
def zigzag : List Nat :=
  [ 0,  1,  8, 16,  9,  2,  3, 10, 17, 24, 32, 25, 18, 11,  4,  5,
   12, 19, 26, 33, 40, 48, 41, 34, 27, 20, 13,  6,  7, 14, 21, 28,
   35, 42, 49, 56, 57, 50, 43, 36, 29, 22, 15, 23, 30, 37, 44, 51,
   58, 59, 52, 45, 38, 31, 39, 46, 53, 60, 61, 54, 47, 55, 62, 63]

/-- The default NL_TABLE: the MPEG-2 non-linear table (43_reconstruction.md R124). -/
def mpeg2Scale : List Nat :=
  [ 0,  1,  2,  3,  4,  5,  6,  7,  8, 10, 12, 14, 16, 18, 20, 22,
   24, 28, 32, 36, 40, 44, 48, 52, 56, 64, 72, 80, 88, 96, 104, 112]

/-- The default instantiation: the default of every parameter that 00_scope.md R7 and 92_eei_decisions.md give one.
ENDIAN and BSR_BASE have none there (DESIGN CHOICE, log entry 1). -/
def defaultParams : Params where
  endian := .le
  checked := true
  pad := 8
  addrW := 64
  bsrBase := 0
  scan := zigzag
  nlTable := mpeg2Scale
  acIntra := .shift 3
  acInter := .shift 4
  kernel := .h264

/-- The FREE VALUE of a memory byte whose content the spec calls unspecified (43_reconstruction.md R132); the argument is the
number `State.freeCount` gave it (log entry 4). -/
opaque freeByte : Nat → Byte

/-- The FREE VALUE of PTR_OFF after a skip whose sum does not fit the 64-bit register (41_reader_extract.md R105; log entry 5). -/
opaque freeOffset : Nat → Word64

/-- An installed AC dequantization function other than the default: any integer function of the coefficient, the mapped scale
and the matrix entry (43_reconstruction.md R123; log entry 3). -/
opaque otherAcQuant : Nat → Int → Nat → Nat → Int

/-- An installed transform kernel other than the default: residual `i` of the 64 coefficients (43_reconstruction.md R130; log
entry 3). It is asked only where R130 (b) leaves the value open. -/
opaque otherKernel : Nat → List Int → Nat → Int

end Config

/-- The constraints 00_scope.md R7, 43_reconstruction.md R124 and R125 put on the parameters: PAD is at least 8, an address
fits a 64-bit argument, SCAN is a permutation of 0..63 with SCAN[0] = 0, and NL_TABLE has 32 entries, 1..255 at 1..31. -/
def Params.ok (p : Params) : Bool :=
  decide (8 ≤ p.pad) && decide (1 ≤ p.addrW) && decide (p.addrW ≤ 64) &&
  decide (p.scan.length = 64) && (List.range 64).all (fun k => p.scan.contains k) && decide (p.scan.getD 0 64 = 0) &&
  decide (p.nlTable.length = 32) &&
  (p.nlTable.drop 1).all (fun q => decide (1 ≤ q) && decide (q ≤ 255))

end Sys2Proof
end

