-- ==== Sys2Proof/Machine/Bits.lean ====
section
/-! DEFINITION. The notation of 00_scope.md R8 and R9: masks, arithmetic shift, sign extension, clipping, and the byte orders
in which multi-byte values are assembled (20_memory.md R40). -/

namespace Sys2Proof.Machine

/-- `mask(n) = 2^n - 1` (00_scope.md R8). -/
def mask (n : Nat) : Word64 := BitVec.ofNat 64 (2 ^ n - 1)

/-- `asr(v, s) = floor(v / 2^s)` on an integer (00_scope.md R8). -/
def asr (v : Int) (s : Nat) : Int := v / ((2 ^ s : Nat) : Int)

/-- `sext_n(v)`: two's complement of the top of `n` bits (00_scope.md R9). -/
def sext (n : Nat) (v : Nat) : Int := if v.testBit (n - 1) then (v : Int) - ((2 ^ n : Nat) : Int) else (v : Int)

/-- `clip8(v) = min(max(v, 0), 255)` (00_scope.md R9), as the byte it is stored in. -/
def clip8 (v : Int) : Byte := BitVec.ofInt 8 (min (max v 0) 255)

/-- Bytes assembled with the first one least significant: `sum of b[i] << 8*i` (20_memory.md R44, R45). -/
def leWord : List Byte → Word64
  | [] => 0
  | b :: bs => b.setWidth 64 ||| (leWord bs <<< 8)

/-- Bytes assembled with the first one most significant: `sum of b[i] << 8*(n-1-i)` (20_memory.md R44, R45). -/
def beWord (bs : List Byte) : Word64 := leWord bs.reverse

/-- Byte `j` of a value, byte 0 the least significant: what a little-endian register shows `j` bytes above its offset
(10_state.md R22). -/
def byteOf {w : Nat} (v : BitVec w) (j : Nat) : Byte := v.extractLsb' (8 * j) 8

/-- A value with byte `j` replaced, byte 0 the least significant (10_state.md R22). -/
def withByte {w : Nat} (v : BitVec w) (j : Nat) (b : Byte) : BitVec w :=
  (v &&& ~~~((0xFF#8).setWidth w <<< (8 * j))) ||| (b.setWidth w <<< (8 * j))

/-- The two little-endian bytes of a 16-bit value (20_memory.md R38, R39). -/
def le16 (b0 b1 : Byte) : Nat := b0.toNat + 256 * b1.toNat

/-- The low byte of an integer, `v mod 256` (43_reconstruction.md R122). -/
def lowByte (v : Int) : Byte := BitVec.ofInt 8 v

/-- The second byte of an integer, `floor(v / 256) mod 256` (43_reconstruction.md R122). -/
def highByte (v : Int) : Byte := BitVec.ofInt 8 (asr v 8)

end Sys2Proof.Machine
end

