-- ==== Sys2Proof/Machine/State.lean ====
section
/-! DEFINITION. The machine's state as plain data, the inputs the host can give it, the ways a step can stop, and reset. -/

namespace Sys2Proof.Machine

/-- The fault causes the block records in FAULT.CAUSE (60_exceptions.md R142). Raising one is a NEXT state (R143). -/
inductive Cause where
  /-- 1: a reserved OP, a reserved bit, or a field or argument out of range (R62, R69, R70). -/
  | illegalCommand
  /-- 2: a refill reads at or beyond BYTE_LEN + PAD (20_memory.md R33). -/
  | bufferOverread
  /-- 3: unchecked mode would read, peek or skip past SIZE (20_memory.md R50). -/
  | uncheckedOverrun
  /-- 4: a VLC table that does not fit the walk (42_vlc.md R111, R112). -/
  | vlcTable
  /-- 5: a dequantized coefficient outside int16 (43_reconstruction.md R127). -/
  | coefRange
  /-- 6: a zero matrix entry at a processed position (43_reconstruction.md R122). -/
  | paramRange
  deriving DecidableEq, Repr

/-- Why the MODEL stops (no command does: the block's own faults are next states, 60_exceptions.md R143). -/
inductive Fault where
  /-- The host input `memWrite` or `memRead` names an address at or above 2^ADDR_W, which the memory does not have
  (20_memory.md R31). Raised by `Sys2Proof.Machine.step` alone. SAFE: the model stops where no such byte exists. -/
  | noSuchAddress
  deriving DecidableEq, Repr

/-- Why the model has no meaning for an instruction. No arm of `exec` answers with it. -/
inductive Refusal where
  /-- The instruction with this mnemonic has no meaning yet. SAFE: nothing is claimed of it. -/
  | notModelled (mnemonic : String)
  deriving DecidableEq, Repr

/-- The memory of 2^ADDR_W bytes (20_memory.md R31) in one canonical form (`Memory.wf`): the bytes that are known, and the
bytes whose content the spec calls unspecified (43_reconstruction.md R132), each with the number of its free value. -/
structure Memory where
  /-- The listed bytes: addresses strictly rising, no entry equal to what an unlisted address reads as. -/
  cells : List Host.Cell
  /-- The unspecified bytes: an address and the number of its free value `Config.freeByte`; addresses strictly rising, none
  of them listed in `cells`. A field of the MODEL's own (log entry 4). -/
  free : List (Nat × Nat)
  deriving DecidableEq, Repr

/-- The width of one host access to the register block. 10_state.md R22 places each register at byte offsets and fixes no
width of access (log entry 25). -/
inductive PortWidth where
  /-- One byte. -/
  | w8
  /-- Two bytes. -/
  | w16
  /-- Four bytes, the width of CMD, STATUS, FAULT and CONFIG. -/
  | w32
  /-- Eight bytes, the width of ARG_A, ARG_B and RES. -/
  | w64
  deriving DecidableEq, Repr

/-- What the outside world can do to the block between two commands: the entries of a host program (10_state.md R14,
70_reset_and_hazards.md R166, R177, R180; 20_memory.md R53). -/
inductive HostInput where
  /-- The host issues a command packet: it writes ARG_A, ARG_B and then CMD (30_encoding.md R61). -/
  | packet (p : Packet)
  /-- The host writes the low bytes of `v`, as many as the access is wide, to the register bytes from `addr` on, the least
  significant byte first (10_state.md R22; log entry 25). -/
  | regWrite (addr : Word64) (width : PortWidth) (v : Word64)
  /-- The host reads the register bytes from `addr` on, the least significant byte first (10_state.md R22; log entry 25). -/
  | regRead (addr : Word64) (width : PortWidth)
  /-- The host, or another agent, writes a byte of the memory between commands (20_memory.md R53, R58). -/
  | memWrite (addr : Word64) (b : Byte)
  /-- The host reads a byte of the memory between commands (20_memory.md R53). -/
  | memRead (addr : Word64)
  /-- The platform resets the block (70_reset_and_hazards.md R166). -/
  | reset
  deriving DecidableEq, Repr

/-- The state of one instance of the block, its memory and its host port. -/
structure State where
  /-- The instantiation parameters (00_scope.md R7); CONFIG (10_state.md R25) is a view of them. -/
  params : Params
  /-- BUF, the address of byte 0 of the stream: ADDR_W bits, below 2^ADDR_W (10_state.md R15). -/
  buf : Word64
  /-- BYTE_LEN, the byte length of the stream (10_state.md R15). -/
  byteLen : Word32
  /-- PTR_OFF, the offset of the next byte a refill reads (10_state.md R15). -/
  ptrOff : Word64
  /-- CACHE, the bit cache (10_state.md R15, R18). -/
  cache : Word64
  /-- VALID, the number of valid bits in CACHE (10_state.md R15, R16). -/
  valid : BitVec 7
  /-- SIZE, the bit length of the stream (10_state.md R15). -/
  size : Word32
  /-- CMD, the last command word the host wrote; a read gives 0 (10_state.md R22). -/
  cmd : Word32
  /-- ARG_A (10_state.md R22). -/
  argA : Word64
  /-- ARG_B (10_state.md R22). -/
  argB : Word64
  /-- RES, the result of the last completed command (10_state.md R22, R26). -/
  res : Word64
  /-- STATUS, with CODE in bits 1..0 (10_state.md R23). -/
  status : Word32
  /-- FAULT, with CAUSE in bits 7..0 and OPC in bits 13..8 (10_state.md R24). -/
  fault : Word32
  /-- The memory (20_memory.md R31). -/
  mem : Memory
  /-- The host program still to come, the next input first (10_state.md R14). -/
  inbox : List HostInput
  /-- The program index: how many packets the block has taken (10_state.md R14). -/
  progIndex : Nat
  /-- What the last host read returned; a field of the MODEL's own (log entry 9). -/
  hostData : Word64
  /-- How many free values have been given out; a field of the MODEL's own (log entries 4 and 5). -/
  freeCount : Nat
  deriving DecidableEq, Repr

/-- The block with parameters `p` right after reset (10_state.md R30, 70_reset_and_hazards.md R166), no memory byte
written, no host input waiting. -/
def State.initial (p : Params) : State where
  params := p
  buf := 0
  byteLen := 0
  ptrOff := 0
  cache := 0
  valid := 0
  size := 0
  cmd := 0
  argA := 0
  argB := 0
  res := 0
  status := 0
  fault := 0
  mem := ⟨[], []⟩
  inbox := []
  progIndex := 0
  hostData := 0
  freeCount := 0

/-- The machine right after reset, with the default parameters (log entry 1). -/
def State.reset : State := State.initial Config.defaultParams

end Sys2Proof.Machine
end

