-- ==== Sys2Proof/Machine/Flags.lean ====
section
/-! DEFINITION. The only status bits the block has (10_state.md R27): STATUS.CODE, FAULT and the read-only CONFIG word. -/

namespace Sys2Proof.Machine

/-- STATUS with CODE = OK (10_state.md R23). -/
def statusOk : Word32 := 0

/-- STATUS with CODE = INVALID_DATA (10_state.md R23, 60_exceptions.md R141). -/
def statusInvalidData : Word32 := 1

/-- STATUS with CODE = FAULTED (10_state.md R23, 60_exceptions.md R143). -/
def statusFaulted : Word32 := 3

/-- The CAUSE code of a fault (60_exceptions.md R142). -/
def Cause.code : Cause → BitVec 8
  | .illegalCommand => 1
  | .bufferOverread => 2
  | .uncheckedOverrun => 3
  | .vlcTable => 4
  | .coefRange => 5
  | .paramRange => 6

/-- The FAULT word that records a cause and the opcode of the command: `cause | OP << 8` (10_state.md R24, 60_exceptions.md
R143). -/
def faultWord (op : BitVec 6) (c : Cause) : Word32 := c.code.setWidth 32 ||| (op.setWidth 32 <<< 8)

/-- FAULT.CAUSE (10_state.md R24). -/
def State.faultCause (s : State) : BitVec 8 := s.fault.extractLsb' 0 8

/-- FAULT.OPC (10_state.md R24). -/
def State.faultOpc (s : State) : BitVec 6 := s.fault.extractLsb' 8 6

/-- STATUS.CODE (10_state.md R23). -/
def State.statusCode (s : State) : BitVec 2 := s.status.extractLsb' 0 2

/-- Whether the block is faulted: FAULT.CAUSE is non-zero (60_exceptions.md R143). -/
def State.faulted (s : State) : Bool := decide (s.faultCause ≠ 0)

/-- The CONFIG word of the parameters: ENDIAN in bit 0, CHECKED in bit 1, min(PAD, 255) in bits 15..8, ADDR_W in bits 23..16
(10_state.md R25). -/
def configWord (p : Params) : Word32 :=
  (match p.endian with | .le => 0 | .be => 1) ||| (BitVec.ofBool p.checked).setWidth 32 <<< 1 |||
    BitVec.ofNat 32 (min p.pad 255) <<< 8 ||| (BitVec.ofNat 8 p.addrW).setWidth 32 <<< 16

/-- The register CONFIG (10_state.md R25). -/
def State.config (s : State) : Word32 := configWord s.params

end Sys2Proof.Machine
end

