-- ==== Sys2Proof/Machine/Ops.lean ====
section
/-! DEFINITION. The named operations over memory, the reader registers and the host registers: memory access (20_memory.md
R31 to R43), the refill and extraction primitives (R44 to R52), taking a fault and completing a command (60_exceptions.md
R141 to R147), and the host port (10_state.md R22). -/

namespace Sys2Proof.Machine

/-! ### Memory -/

/-- The value a sparse list gives an address. -/
def lookupAt {α : Type} : List (Nat × α) → Nat → Option α
  | [], _ => none
  | e :: rest, a => if e.1 = a then some e.2 else lookupAt rest a

/-- A sparse list without an address. -/
def eraseAt {α : Type} : List (Nat × α) → Nat → List (Nat × α)
  | [], _ => []
  | e :: rest, a => if e.1 = a then eraseAt rest a else e :: eraseAt rest a

/-- A sparse list with a value at an address, kept in rising order. -/
def insertAt {α : Type} : List (Nat × α) → Nat → α → List (Nat × α)
  | [], a, v => [(a, v)]
  | e :: rest, a, v =>
    if a < e.1 then (a, v) :: e :: rest
    else if e.1 = a then (a, v) :: rest
    else e :: insertAt rest a v

/-- Whether the addresses of a sparse list rise strictly. -/
def keysRise {α : Type} : List (Nat × α) → Bool
  | [] => true
  | e :: rest => rest.all (fun f => decide (e.1 < f.1)) && keysRise rest

/-- What an address that nothing has written reads as (DESIGN CHOICE, log entry 2). -/
def unwrittenByte : Byte := 0

/-- The byte at an address: its free value where its content is unspecified, else the byte last written there (20_memory.md
R31). -/
def Memory.read (m : Memory) (a : Nat) : Byte :=
  match lookupAt m.free a with
  | some k => Config.freeByte k
  | none => (lookupAt m.cells a).getD unwrittenByte

/-- The memory after a byte is written (20_memory.md R31). -/
def Memory.write (m : Memory) (a : Nat) (b : Byte) : Memory :=
  ⟨if b = unwrittenByte then eraseAt m.cells a else insertAt m.cells a b, eraseAt m.free a⟩

/-- The memory after the byte at `a` has become unspecified: free value number `k` (43_reconstruction.md R132). -/
def Memory.forget (m : Memory) (a k : Nat) : Memory :=
  ⟨eraseAt m.cells a, insertAt m.free a k⟩

/-- The canonical form of a memory. -/
def Memory.wf (m : Memory) : Bool :=
  keysRise m.cells && m.cells.all (fun e => decide (e.2 ≠ unwrittenByte)) &&
  keysRise m.free && m.free.all (fun e => (lookupAt m.cells e.1).isNone)

/-- Whether every listed address is below `limit`. -/
def Memory.below (m : Memory) (limit : Nat) : Bool :=
  m.cells.all (fun e => decide (e.1 < limit)) && m.free.all (fun e => decide (e.1 < limit))

/-- Address arithmetic is modulo 2^ADDR_W (00_scope.md R10). -/
def State.wrapAddr (s : State) (a : Nat) : Nat := a % 2 ^ s.params.addrW

/-- `MemRead(addr, 1)` (00_scope.md R10). -/
def State.readByte (s : State) (a : Nat) : Byte := s.mem.read (s.wrapAddr a)

/-- `MemWrite(addr, 1, v)` (00_scope.md R10). -/
def State.writeByte (s : State) (a : Nat) (b : Byte) : State := { s with mem := s.mem.write (s.wrapAddr a) b }

/-- The byte at an address becomes unspecified, with the next free value (43_reconstruction.md R132). -/
def State.forgetByte (s : State) (a : Nat) : State :=
  { s with mem := s.mem.forget (s.wrapAddr a) s.freeCount, freeCount := s.freeCount + 1 }

/-- The `n` bytes from an address become unspecified (43_reconstruction.md R132). -/
def State.forgetBytes (s : State) (a : Nat) : Nat → State
  | 0 => s
  | n + 1 => ((s.forgetBytes a n).forgetByte (a + n))

/-! ### The stream window and the bit cache -/

/-- `Tell = 8 * PTR_OFF - VALID`, an exact integer (20_memory.md R51). -/
def State.tell (s : State) : Int := 8 * (s.ptrOff.toNat : Int) - (s.valid.toNat : Int)

/-- `Left = SIZE - Tell`, an exact integer (20_memory.md R51). -/
def State.left (s : State) : Int := (s.size.toNat : Int) - s.tell

/-- `StreamBit(k)`, bit `k` of the stream in the order ENDIAN fixes (20_memory.md R41). -/
def State.streamBit (s : State) (k : Nat) : Bool :=
  match s.params.endian with
  | .le => (s.readByte (s.buf.toNat + k / 8)).getLsbD (k % 8)
  | .be => (s.readByte (s.buf.toNat + k / 8)).getLsbD (7 - k % 8)

/-- `ReadStream(o)`, a byte of the stream window (20_memory.md R33). -/
def State.readStream (s : State) (o : Nat) : Except Cause Byte :=
  if o ≥ s.byteLen.toNat + s.params.pad then .error .bufferOverread
  else .ok (s.readByte (s.buf.toNat + o))

/-- `n` bytes of the stream window from offset `o`, in increasing order (20_memory.md R40, R44, R45). -/
def State.readChunk (s : State) (o : Nat) : Nat → Except Cause (List Byte)
  | 0 => .ok []
  | n + 1 => do
    let b ← s.readStream o
    let bs ← s.readChunk (o + 1) n
    return b :: bs

/-- The word a refill chunk stands for, in the byte order ENDIAN fixes (20_memory.md R44, R45). -/
def State.chunkWord (s : State) (bs : List Byte) : Word64 :=
  match s.params.endian with
  | .le => leWord bs
  | .be => beWord bs

/-- `PTR_OFF <- PTR_OFF + k`. A sum that does not fit the 64-bit register is one the spec states no value for
(41_reader_extract.md R105): PTR_OFF is then a free value, at least 8 so that Tell >= 0 (10_state.md R17; log entry 5). -/
def State.advancePtr (s : State) (k : Nat) : State :=
  if s.ptrOff.toNat + k < 2 ^ 64 then { s with ptrOff := BitVec.ofNat 64 (s.ptrOff.toNat + k) }
  else
    { s with
      ptrOff := if (Config.freeOffset s.freeCount).toNat < 8 then 8 else Config.freeOffset s.freeCount
      freeCount := s.freeCount + 1 }

/-- The end-of-buffer guard of the refills: `CHECKED and PTR_OFF >= BYTE_LEN` (20_memory.md R44, R45). -/
def State.atEnd (s : State) : Bool := s.params.checked && decide (s.byteLen.toNat ≤ s.ptrOff.toNat)

/-- `Refill64()` (20_memory.md R44). -/
def State.refill64 (s : State) : Except Cause State :=
  if s.atEnd then .ok s
  else do
    let bs ← s.readChunk s.ptrOff.toNat 8
    return ({ s with cache := s.chunkWord bs, valid := 64 }).advancePtr 8

/-- `Refill32()` (20_memory.md R45). -/
def State.refill32 (s : State) : Except Cause State :=
  if s.atEnd then .ok s
  else do
    let bs ← s.readChunk s.ptrOff.toNat 4
    let w := s.chunkWord bs
    let cache :=
      match s.params.endian with
      | .le => s.cache ||| (w <<< s.valid.toNat)
      | .be => s.cache ||| (w <<< (32 - s.valid.toNat))
    return ({ s with cache := cache, valid := BitVec.ofNat 7 (s.valid.toNat + 32) }).advancePtr 4

/-- `if n > VALID: Refill32()`, the refill of READ, PEEK and READ_VLC (41_reader_extract.md R92, R96; 42_vlc.md R111). -/
def State.refillFor (s : State) (n : Nat) : Except Cause State :=
  if n > s.valid.toNat then s.refill32 else .ok s

/-- `if VALID = 0: Refill64()`, the refill of READ_BIT (41_reader_extract.md R91). -/
def State.refillIfEmpty (s : State) : Except Cause State :=
  if s.valid.toNat = 0 then s.refill64 else .ok s

/-- `Show(n)`: the next `n` cached bits (20_memory.md R46). -/
def State.showBits (s : State) (n : Nat) : Word64 :=
  if n = 0 then 0
  else
    match s.params.endian with
    | .le => s.cache &&& mask n
    | .be => s.cache >>> (64 - n)

/-- `Drop(n)`: discard the next `n` bits; VALID saturates at 0 (20_memory.md R47). -/
def State.dropBits (s : State) (n : Nat) : State :=
  { s with
    cache := match s.params.endian with
      | .le => s.cache >>> n
      | .be => s.cache <<< n
    valid := if n ≤ s.valid.toNat then BitVec.ofNat 7 (s.valid.toNat - n) else 0 }

/-- `Get(n) = { v <- Show(n); Drop(n); return v }` (20_memory.md R48). -/
def State.getBits (s : State) (n : Nat) : Word64 × State := (s.showBits n, s.dropBits n)

/-- `CheckRange(n)`, the guard of the unchecked mode (20_memory.md R50). -/
def State.checkRange (s : State) (n : Nat) : Except Cause Unit :=
  if s.params.checked = false ∧ s.tell + (n : Int) > (s.size.toNat : Int) then .error .uncheckedOverrun else .ok ()

/-! ### The bodies that several commands perform -/

/-- The cache emptied: `CACHE <- 0; VALID <- 0` (41_reader_extract.md R99, 20_memory.md R59). -/
def State.emptyCache (s : State) : State := { s with cache := 0, valid := 0 }

/-- `SkipBits(n)`, used by SKIP, SEEK, ALIGN and SKIP_1STOP_8DATA (41_reader_extract.md R99). -/
def State.skipBits (s : State) (n : Nat) : Except Cause State := do
  s.checkRange n
  if n < s.valid.toNat then return s.dropBits n
  else
    let m := n - s.valid.toNat
    let drained := s.emptyCache
    if m ≥ 64 then
      let t ← (drained.advancePtr (m / 8)).refill64
      return if m % 8 > 0 then t.dropBits (m % 8) else t
    else
      let t ← drained.refill64
      return if m > 0 then t.dropBits m else t

/-- The consuming body of READ_NZ, used by READ and READ_SIGNED (41_reader_extract.md R92). -/
def State.takeBits (s : State) (n : Nat) : Except Cause (Word64 × State) := do
  s.checkRange n
  let t ← s.refillFor n
  return t.getBits n

/-- The body of PEEK for `n >= 1`, used by PEEK_SIGNED (41_reader_extract.md R96). -/
def State.peekBits (s : State) (n : Nat) : Except Cause (Word64 × State) := do
  s.checkRange n
  let t ← s.refillFor n
  return (t.showBits n, t)

/-- The body of READ_BIT, used by READ_64 and SKIP_1STOP_8DATA (41_reader_extract.md R91). -/
def State.takeBit (s : State) : Except Cause (Word64 × State) := do
  s.checkRange 1
  let t ← s.refillIfEmpty
  return t.getBits 1

/-- The two parts of a wide read in stream order: `part1` of `left` bits came first, `part2` of `n` bits after it
(41_reader_extract.md R94). -/
def State.joinParts (s : State) (part1 : Word64) (left : Nat) (part2 : Word64) (n : Nat) : Word64 :=
  match s.params.endian with
  | .le => (part2 <<< left) ||| part1
  | .be => part2 ||| (part1 <<< n)

/-- The body of READ_63 for `n >= 1`, used by READ_64 (41_reader_extract.md R94). -/
def State.takeWide (s : State) (n : Nat) : Except Cause (Word64 × State) := do
  s.checkRange n
  if n > s.valid.toNat then
    let left := s.valid.toNat
    let rest := n - left
    let drained := if left > 0 then s.getBits left else (0, s)
    let t ← drained.2.refill64
    let last := t.getBits rest
    return (s.joinParts drained.1 left last.1 rest, last.2)
  else
    let last := s.getBits n
    return (s.joinParts 0 0 last.1 n, last.2)

/-! ### Completing a command and taking a fault -/

/-- What the body of a command that raises no fault leaves: the registers and memory, the value for RES, and whether it set
INVALID_DATA (00_scope.md R10). -/
structure Done where
  /-- The reader registers and memory as the body leaves them. -/
  state : State
  /-- The value the body returns. -/
  value : Word64
  /-- Whether the body set the soft status INVALID_DATA (60_exceptions.md R141). -/
  invalid : Bool

/-- The command completes: RES gets its value, STATUS.CODE is 1 if it set INVALID_DATA and else 0 (10_state.md R26;
60_exceptions.md R141, R143). -/
def State.complete (s : State) (value : Word64) (invalid : Bool) : State :=
  { s with res := value, status := if invalid then statusInvalidData else statusOk }

/-- TAKING A FAULT: FAULT records the cause and the opcode, STATUS.CODE becomes 3, and nothing else changes (60_exceptions.md
R143, R145, R146). There is no handler and no return (R147): `State.assertReset` alone clears FAULT. -/
def State.takeFault (s : State) (op : BitVec 6) (c : Cause) : State :=
  { s with fault := faultWord op c, status := statusFaulted }

/-- A command is refused because the block is faulted: STATUS.CODE becomes 3 and nothing else changes (60_exceptions.md
R143). -/
def State.refuseFaulted (s : State) : State := { s with status := statusFaulted }

/-- How every command runs (60_exceptions.md R143, R144, R146): the sticky-fault check, the range check of its fields, its
body on a copy of the state, and the copy committed only if the body raises no fault. -/
def runCommand (op : BitVec 6) (legal : Bool) (body : State → Except Cause Done) (s : State) : State :=
  if s.faulted then s.refuseFaulted
  else if legal then
    match body s with
    | .ok d => d.state.complete d.value d.invalid
    | .error c => s.takeFault op c
  else s.takeFault op .illegalCommand

/-- A packet that matches no row of the opcode map (60_exceptions.md R144): refused if the block is faulted, else
Fault(ILLEGAL_COMMAND) with the packet's own OP field (10_state.md R24). -/
def State.rejectPacket (s : State) : State :=
  if s.faulted then s.refuseFaulted else s.takeFault (s.cmd.extractLsb' 0 6) .illegalCommand

/-- RESET, the only way out of a fault: every register of 10_state.md R15 and R22 is 0; no memory byte and no parameter
changes (70_reset_and_hazards.md R166). The host program goes on (log entry 9). -/
def State.assertReset (s : State) : State :=
  { s with
    buf := 0, byteLen := 0, ptrOff := 0, cache := 0, valid := 0, size := 0
    cmd := 0, argA := 0, argB := 0, res := 0, status := 0, fault := 0 }

/-! ### The host port -/

/-- How many bytes a host access covers. -/
def PortWidth.bytes : PortWidth → Nat
  | .w8 => 1
  | .w16 => 2
  | .w32 => 4
  | .w64 => 8

/-- The offset of an address from BSR_BASE (10_state.md R22). -/
def State.portOffset (s : State) (addr : Word64) : Nat := (addr - s.params.bsrBase).toNat

/-- The offset of byte `j` of a host access at `addr`, counted from BSR_BASE (10_state.md R22). -/
def State.portLane (s : State) (addr : Word64) (j : Nat) : Nat := s.portOffset (addr + BitVec.ofNat 64 j)

/-- Whether a host access of some width at `addr` reaches a byte of the register block below `limit`. -/
def State.portReaches (s : State) (limit : Nat) (addr : Word64) (width : PortWidth) : Bool :=
  (List.range width.bytes).any (fun j => decide (s.portLane addr j < limit))

/-- Whether a host write issues a packet: it reaches CMD, the bytes 0x00..0x03 (10_state.md R22; log entry 25). -/
def State.issues (s : State) (addr : Word64) (width : PortWidth) : Bool := s.portReaches 0x04 addr width

/-- A host write of one byte of the register block: CMD, ARG_A and ARG_B take it, each register with its least significant
byte at its offset, and every other byte ignores it (10_state.md R22). -/
def State.portWriteByte (s : State) (o : Nat) (b : Byte) : State :=
  if o < 0x04 then { s with cmd := withByte s.cmd o b }
  else if 0x08 ≤ o ∧ o < 0x10 then { s with argA := withByte s.argA (o - 0x08) b }
  else if 0x10 ≤ o ∧ o < 0x18 then { s with argB := withByte s.argB (o - 0x10) b }
  else s

/-- The first `n` bytes of a host write at `addr`, the least significant one at `addr` (10_state.md R22). -/
def State.portWriteBytes (s : State) (addr v : Word64) : Nat → State
  | 0 => s
  | n + 1 => (s.portWriteBytes addr v n).portWriteByte (s.portLane addr n) (byteOf v n)

/-- The packet a write of CMD issues is counted (10_state.md R14). -/
def State.countPacket (s : State) : State := { s with progIndex := s.progIndex + 1 }

/-- What a host write leaves in the registers; a write that reaches CMD also counts the packet (10_state.md R14, R22). -/
def State.portWrite (s : State) (addr : Word64) (width : PortWidth) (v : Word64) : State :=
  let t := s.portWriteBytes addr v width.bytes
  if s.issues addr width then t.countPacket else t

/-- What the host reads at one byte of the register block: the byte of the register there, its least significant byte at its
offset; 0 for CMD and for every reserved byte (10_state.md R22). -/
def State.portByte (s : State) (o : Nat) : Byte :=
  if 0x08 ≤ o ∧ o < 0x10 then byteOf s.argA (o - 0x08)
  else if 0x10 ≤ o ∧ o < 0x18 then byteOf s.argB (o - 0x10)
  else if 0x18 ≤ o ∧ o < 0x20 then byteOf s.res (o - 0x18)
  else if 0x20 ≤ o ∧ o < 0x24 then byteOf s.status (o - 0x20)
  else if 0x24 ≤ o ∧ o < 0x28 then byteOf s.fault (o - 0x24)
  else if 0x28 ≤ o ∧ o < 0x2C then byteOf s.config (o - 0x28)
  else 0

/-- What a host read returns: the bytes it covers, the one at `addr` least significant (10_state.md R22). -/
def State.portRead (s : State) (addr : Word64) (width : PortWidth) : Word64 :=
  leWord ((List.range width.bytes).map (fun j => s.portByte (s.portLane addr j)))

/-- The three register writes of a packet: ARG_A, ARG_B, then CMD (30_encoding.md R61). -/
def State.latchPacket (s : State) (p : Packet) : State :=
  { s with argA := p.argA, argB := p.argB, cmd := p.cmd, progIndex := s.progIndex + 1 }

/-- The packet the host registers hold (30_encoding.md R61). -/
def State.packet (s : State) : Packet := ⟨s.cmd, s.argA, s.argB⟩

/-- The first input of the host program is taken (10_state.md R14). -/
def State.popInput (s : State) : State := { s with inbox := s.inbox.tail }

/-- Whether the memory has an address (20_memory.md R31). -/
def State.hasAddr (s : State) (addr : Word64) : Bool := decide (addr.toNat < 2 ^ s.params.addrW)

/-- The data of a host read (10_state.md R22, 20_memory.md R53). -/
def State.answerHost (s : State) (v : Word64) : State := { s with hostData := v }

/-- A host register read: one that reaches no byte of the block (0x00..0x3F) is not the block's, and it answers nothing
(10_state.md R22; log entry 25). -/
def State.answerRegRead (s : State) (addr : Word64) (width : PortWidth) : State :=
  if s.portReaches 0x40 addr width then s.answerHost (s.portRead addr width) else s

end Sys2Proof.Machine
end

