-- ==== Sys2Proof/Machine/Operands.lean ====
section
/-! DEFINITION. Operand assembly (30_encoding.md R71), the range checks of single fields (R70), and the memory operands: VLC
table entries (20_memory.md R38), coefficient blocks, matrices and destination samples (R39). -/

namespace Sys2Proof.Machine

/-- A width field in its legal range (30_encoding.md R70). -/
def widthOk (lo hi : Nat) {w : Nat} (n : BitVec w) : Bool := decide (lo ≤ n.toNat) && decide (n.toNat ≤ hi)

/-- A 32-bit count in a 64-bit argument: the upper half must be 0 (30_encoding.md R65, R70). -/
def countOk (arg : Word64) : Bool := decide (arg.toNat / 2 ^ 32 = 0)

/-- A destination stride: 8..65535 (30_encoding.md R68, R70). -/
def strideOk (stride : BitVec 16) : Bool := decide (8 ≤ stride.toNat)

/-- A 32-bit count taken from bits 31..0 of an argument (30_encoding.md R65, R71). -/
def countOf (arg : Word64) : Nat := arg.toNat % 2 ^ 32

/-- `LAST = N - 1`, so N = 0 encodes a negative last index (30_encoding.md R71). -/
def lastOf (n : BitVec 7) : Int := (n.toNat : Int) - 1

/-- One entry of a VLC table, as `Entry(i)` returns it (42_vlc.md R112). -/
structure VlcEntry where
  /-- The symbol, or the start index of a sub-table. -/
  sym : Int
  /-- The length; negative for a sub-table sentinel (R113). -/
  len : Int
  deriving DecidableEq, Repr

/-- `Entry(i)`: the bounds check and the four bytes of table entry `i` (42_vlc.md R112, 20_memory.md R38). -/
def State.vlcEntry (s : State) (table : Word64) (tlen : Nat) (i : Int) : Except Cause VlcEntry :=
  if i < 0 ∨ i ≥ (tlen : Int) then .error .vlcTable
  else
    let a := table.toNat + 4 * i.toNat
    .ok ⟨sext 16 (le16 (s.readByte a) (s.readByte (a + 1))), sext 16 (le16 (s.readByte (a + 2)) (s.readByte (a + 3)))⟩

/-- `Coef(k)`: coefficient `k` of the block at `blk`, in raster order (20_memory.md R39, 43_reconstruction.md R121). -/
def State.coef (s : State) (blk : Word64) (k : Nat) : Int :=
  sext 16 (le16 (s.readByte (blk.toNat + 2 * k)) (s.readByte (blk.toNat + 2 * k + 1)))

/-- `Mat(k)`: entry `k` of the quantization matrix at `mat` (20_memory.md R39, 43_reconstruction.md R121). -/
def State.matEntry (s : State) (mat : Word64) (k : Nat) : Nat :=
  le16 (s.readByte (mat.toNat + 2 * k)) (s.readByte (mat.toNat + 2 * k + 1))

/-- The 64 coefficients of the block at `blk` (43_reconstruction.md R122, R128). -/
def State.coefs (s : State) (blk : Word64) : List Int := (List.range 64).map (s.coef blk)

/-- The address of destination sample `i = 8*row + col`: `dst + row*STRIDE + col` (20_memory.md R39). -/
def dstAddr (dst : Word64) (stride : BitVec 16) (i : Nat) : Nat := dst.toNat + i / 8 * stride.toNat + i % 8

/-- A coefficient stored as two bytes, low byte first (43_reconstruction.md R121, R122). -/
def State.writeCoef (s : State) (blk : Word64) (k : Nat) (v : Int) : State :=
  (s.writeByte (blk.toNat + 2 * k) (lowByte v)).writeByte (blk.toNat + 2 * k + 1) (highByte v)

end Sys2Proof.Machine
end

