-- ==== Sys2Proof/Machine/ReaderControl.lean ====
section
/-! DEFINITION. The meanings of the reader control commands INIT, SEEK, ALIGN, TELL, SIZE and LEFT (40_reader_control.md). -/

namespace Sys2Proof.Machine

/-- The safe all-zero reader a failed INIT leaves (40_reader_control.md R81). -/
def State.inertReader (s : State) : State :=
  { s with buf := 0, byteLen := 0, ptrOff := 0, cache := 0, valid := 0, size := 0 }

/-- A reader at the start of a buffer, before its first refill (40_reader_control.md R81). -/
def State.openReader (s : State) (buf : Word64) (bitSize : Nat) : State :=
  { s with
    buf := buf
    byteLen := BitVec.ofNat 32 ((bitSize + 7) / 8)
    ptrOff := 0
    size := BitVec.ofNat 32 bitSize
    cache := 0
    valid := 0 }

/-- INIT buf, nbits (40_reader_control.md R81). -/
def execInit (buf nbits : Word64) (s : State) : Host.Outcome State Fault Refusal :=
  .next <| runCommand 0x01 (countOk nbits) (s := s) fun s =>
    let addr := s.wrapAddr buf.toNat
    let bitSize := countOf nbits
    if bitSize > Config.sizeMax ∨ addr = 0 then .ok ⟨s.inertReader, 0, true⟩
    else do
      let t ← (s.openReader (BitVec.ofNat 64 addr) bitSize).refill64
      return ⟨t, 0, false⟩

/-- SEEK pos: the reader starts again and skips to `pos` (40_reader_control.md R82). -/
def execSeek (pos : Word64) (s : State) : Host.Outcome State Fault Refusal :=
  .next <| runCommand 0x0B (countOk pos) (s := s) fun s => do
    let t ← ({ s with ptrOff := 0, cache := 0, valid := 0 } : State).skipBits (countOf pos)
    return ⟨t, 0, false⟩

/-- How many bits lie before the next byte boundary: `(8 - (Tell mod 8)) mod 8` (40_reader_control.md R83). -/
def State.alignGap (s : State) : Nat := ((8 - s.tell % 8) % 8).toNat

/-- The address of the byte the position lies in: `(BUF + (Tell >> 3)) mod 2^ADDR_W` (40_reader_control.md R83). -/
def State.byteAddr (s : State) : Word64 :=
  BitVec.ofInt 64 (((s.buf.toNat : Int) + asr s.tell 3) % ((2 ^ s.params.addrW : Nat) : Int))

/-- Skip to the next byte boundary, if the position is not at one (40_reader_control.md R83). -/
def State.skipToBoundary (s : State) : Except Cause State :=
  if s.alignGap ≠ 0 then s.skipBits s.alignGap else .ok s

/-- ALIGN (40_reader_control.md R83). -/
def execAlign (s : State) : Host.Outcome State Fault Refusal :=
  .next <| runCommand 0x0C true (s := s) fun s => do
    let t ← s.skipToBoundary
    return ⟨t, t.byteAddr, false⟩

/-- TELL (40_reader_control.md R84, R87). -/
def execTell (s : State) : Host.Outcome State Fault Refusal :=
  .next <| runCommand 0x0D true (s := s) fun s => .ok ⟨s, BitVec.ofInt 64 s.tell, false⟩

/-- SIZE (40_reader_control.md R85, R87). -/
def execSize (s : State) : Host.Outcome State Fault Refusal :=
  .next <| runCommand 0x0E true (s := s) fun s => .ok ⟨s, s.size.setWidth 64, false⟩

/-- LEFT (40_reader_control.md R86, R87). -/
def execLeft (s : State) : Host.Outcome State Fault Refusal :=
  .next <| runCommand 0x0F true (s := s) fun s => .ok ⟨s, BitVec.ofInt 64 s.left, false⟩

end Sys2Proof.Machine
end

