-- ==== Sys2Proof/Machine/ReaderExtract.lean ====
section
/-! DEFINITION. The meanings of the extraction commands READ_BIT, READ, READ_NZ, READ_63, READ_64, READ_SIGNED, PEEK,
PEEK_SIGNED, SKIP and SKIP_1STOP_8DATA (41_reader_extract.md). -/

namespace Sys2Proof.Machine

/-- `sext_n(v) mod 2^64`: an n-bit value widened to the 64 bits of RES (41_reader_extract.md R97, R98). -/
def signedResult (n : Nat) (v : Word64) : Word64 := BitVec.ofInt 64 (sext n v.toNat)

/-- READ_BIT (41_reader_extract.md R91). -/
def execReadBit (s : State) : Host.Outcome State Fault Refusal :=
  .next <| runCommand 0x02 true (s := s) fun s => do
    let r ← s.takeBit
    return ⟨r.2, r.1, false⟩

/-- READ_NZ n (41_reader_extract.md R92). -/
def execReadNz (n : BitVec 7) (s : State) : Host.Outcome State Fault Refusal :=
  .next <| runCommand 0x04 (widthOk 1 32 n) (s := s) fun s => do
    let r ← s.takeBits n.toNat
    return ⟨r.2, r.1, false⟩

/-- READ n (41_reader_extract.md R93). -/
def execRead (n : BitVec 7) (s : State) : Host.Outcome State Fault Refusal :=
  .next <| runCommand 0x03 (widthOk 0 32 n) (s := s) fun s =>
    if n.toNat = 0 then .ok ⟨s, 0, false⟩
    else do
      let r ← s.takeBits n.toNat
      return ⟨r.2, r.1, false⟩

/-- READ_63 n (41_reader_extract.md R94). -/
def execRead63 (n : BitVec 7) (s : State) : Host.Outcome State Fault Refusal :=
  .next <| runCommand 0x05 (widthOk 0 63 n) (s := s) fun s =>
    if n.toNat = 0 then .ok ⟨s, 0, false⟩
    else do
      let r ← s.takeWide n.toNat
      return ⟨r.2, r.1, false⟩

/-- READ_64 n: 64 bits are a 63-bit read and one more bit (41_reader_extract.md R95). -/
def execRead64 (n : BitVec 7) (s : State) : Host.Outcome State Fault Refusal :=
  .next <| runCommand 0x06 (widthOk 0 64 n) (s := s) fun s =>
    if n.toNat = 0 then .ok ⟨s, 0, false⟩
    else if n.toNat < 64 then do
      let r ← s.takeWide n.toNat
      return ⟨r.2, r.1, false⟩
    else do
      s.checkRange 64
      let r ← s.takeWide 63
      let b ← r.2.takeBit
      return ⟨b.2, s.joinParts r.1 63 b.1 1, false⟩

/-- READ_SIGNED n (41_reader_extract.md R98). -/
def execReadSigned (n : BitVec 7) (s : State) : Host.Outcome State Fault Refusal :=
  .next <| runCommand 0x07 (widthOk 1 32 n) (s := s) fun s => do
    let r ← s.takeBits n.toNat
    return ⟨r.2, signedResult n.toNat r.1, false⟩

/-- PEEK n (41_reader_extract.md R96). -/
def execPeek (n : BitVec 7) (s : State) : Host.Outcome State Fault Refusal :=
  .next <| runCommand 0x08 (widthOk 0 32 n) (s := s) fun s =>
    if n.toNat = 0 then .ok ⟨s, 0, false⟩
    else do
      let r ← s.peekBits n.toNat
      return ⟨r.2, r.1, false⟩

/-- PEEK_SIGNED n (41_reader_extract.md R97). -/
def execPeekSigned (n : BitVec 7) (s : State) : Host.Outcome State Fault Refusal :=
  .next <| runCommand 0x09 (widthOk 1 32 n) (s := s) fun s => do
    let r ← s.peekBits n.toNat
    return ⟨r.2, signedResult n.toNat r.1, false⟩

/-- SKIP n (41_reader_extract.md R99). -/
def execSkip (n : Word64) (s : State) : Host.Outcome State Fault Refusal :=
  .next <| runCommand 0x0A (countOk n) (s := s) fun s => do
    let t ← s.skipBits (countOf n)
    return ⟨t, 0, false⟩

/-- The loop of SKIP_1STOP_8DATA, at most `passes` times: whether it ended at a 0 bit, and the reader it leaves. R100 bounds
the passes by SIZE + 1; the end of the bound itself is reached by no state that `Safety.readerOk` admits (log entry 8). -/
def State.skipGroups (s : State) : Nat → Except Cause (Bool × State)
  | 0 => .ok (false, s)
  | passes + 1 => do
    let r ← s.takeBit
    if r.1 = 0 then return (true, r.2)
    else
      let t ← r.2.skipBits 8
      if t.left ≤ 0 then return (false, t)
      else t.skipGroups passes

/-- SKIP_1STOP_8DATA (41_reader_extract.md R100). -/
def execSkip1stop8data (s : State) : Host.Outcome State Fault Refusal :=
  .next <| runCommand 0x11 true (s := s) fun s =>
    if s.left ≤ 0 then .ok ⟨s, 0, true⟩
    else do
      let r ← s.skipGroups (s.size.toNat + 1)
      return ⟨r.2, 0, !r.1⟩

end Sys2Proof.Machine
end

