-- ==== Sys2Proof/Machine/Reconstruction.lean ====
section
/-! DEFINITION. The meanings of the idct_2d commands DEQUANT, IDCT_PUT, IDCT_ADD and IDCT_DC_ADD (43_reconstruction.md). -/

namespace Sys2Proof.Machine

/-! ### Dequantization -/

/-- The installed AC dequantization function on `(c, q, m)` (43_reconstruction.md R123). -/
def acQuant (f : AcQuant) (c : Int) (q m : Nat) : Int :=
  match f with
  | .shift k => asr (c * (q : Int) * (m : Int)) k
  | .other id => Config.otherAcQuant id c q m

/-- The scale the multiply uses: QSCALE, or NL_TABLE[QSCALE] when NONLIN = 1 (43_reconstruction.md R124). -/
def mappedScale (p : Params) (nonlin : Bool) (qscale : BitVec 5) : Nat :=
  if nonlin then p.nlTable.getD qscale.toNat 0 else qscale.toNat

/-- The scan positions `start..LAST` as raster positions, `LAST = n - 1` (43_reconstruction.md R122, R125). -/
def scanPositions (p : Params) (start n : Nat) : List Nat :=
  ((List.range n).drop start).map (fun i => p.scan.getD i 0)

/-- The scan loop of DEQUANT: `out[k]` for every position with a non-zero coefficient, latest first (43_reconstruction.md
R122). -/
def State.dequantScan (s : State) (blk mat : Word64) (f : AcQuant) (q : Nat) :
    List Nat → List (Nat × Int) → Except Cause (List (Nat × Int))
  | [], out => .ok out
  | k :: ks, out =>
    if s.coef blk k = 0 then s.dequantScan blk mat f q ks out
    else if s.matEntry mat k = 0 then .error .paramRange
    else s.dequantScan blk mat f q ks ((k, acQuant f (s.coef blk k) q (s.matEntry mat k)) :: out)

/-- Whether a value fits the 16-bit coefficient (43_reconstruction.md R127). -/
def fitsInt16 (v : Int) : Bool := decide (-32768 ≤ v) && decide (v ≤ 32767)

/-- The assigned coefficients written in increasing position: the positions `0..n-1` (43_reconstruction.md R122). -/
def State.writeAssigned (s : State) (blk : Word64) (out : List (Nat × Int)) : Nat → State
  | 0 => s
  | n + 1 =>
    match lookupAt out n with
    | some v => (s.writeAssigned blk out n).writeCoef blk n v
    | none => s.writeAssigned blk out n

/-- DEQUANT blk, mat (43_reconstruction.md R122 to R127). -/
def execDequant (n : BitVec 7) (intra nonlin losslessDc : Bool) (qscale : BitVec 5) (dcScale : BitVec 8)
    (blk mat : Word64) (s : State) : Host.Outcome State Fault Refusal :=
  .next <| runCommand 0x20
    (widthOk 0 64 n && widthOk 1 31 qscale && !(losslessDc && !intra) &&
      !(intra && !losslessDc && decide (dcScale.toNat = 0))) (s := s) fun s =>
    if lastOf n < 0 then .ok ⟨s, 0, false⟩
    else do
      let dc := if intra && !losslessDc then [(0, s.coef blk 0 * (dcScale.toNat : Int))] else []
      let f := if intra then s.params.acIntra else s.params.acInter
      let positions := scanPositions s.params (if intra then 1 else 0) n.toNat
      let out ← s.dequantScan blk mat f (mappedScale s.params nonlin qscale) positions dc
      if out.all (fun e => fitsInt16 e.2) then return ⟨s.writeAssigned blk out 64, 0, false⟩
      else .error .coefRange

/-! ### The inverse transform -/

/-- `IDCT1`, one 8-point pass of the default kernel (43_reconstruction.md R130). -/
def idct1 (x0 x1 x2 x3 x4 x5 x6 x7 : Int) : List Int :=
  let a0 := x0 + x4
  let a2 := x0 - x4
  let a4 := asr x2 1 - x6
  let a6 := asr x6 1 + x2
  let b0 := a0 + a6
  let b2 := a2 + a4
  let b4 := a2 - a4
  let b6 := a0 - a6
  let a1 := -x3 + x5 - x7 - asr x7 1
  let a3 := x1 + x7 - x3 - asr x3 1
  let a5 := -x1 + x7 + x5 + asr x5 1
  let a7 := x3 + x5 + x1 + asr x1 1
  let b1 := asr a7 2 + a1
  let b3 := a3 + asr a5 2
  let b5 := asr a3 2 - a5
  let b7 := a7 - asr a1 2
  [b0 + b7, b2 + b5, b4 + b3, b6 + b1, b6 - b1, b4 - b3, b2 - b5, b0 - b7]

/-- One 8-point pass over the eight values `t[base], t[base + step], …` (43_reconstruction.md R130). -/
def idctLine (t : List Int) (base step : Nat) : List Int :=
  let x := fun i => t.getD (base + i * step) 0
  idct1 (x 0) (x 1) (x 2) (x 3) (x 4) (x 5) (x 6) (x 7)

/-- A pass over eight lines: line `l` starts at `l * next` with step `step`, and its outputs stand in the same places
(43_reconstruction.md R130). -/
def idctPass (t : List Int) (next step : Nat) : List Int :=
  let lines := (List.range 8).map (fun l => idctLine t (l * next) step)
  (List.range 64).map (fun i => (lines.getD (i / next % 8) []).getD (i / step % 8) 0)

/-- The default kernel: the DC bias, columns first, then rows, then `asr` by 6 (43_reconstruction.md R130). -/
def idctDefault (c : List Int) : List Int :=
  let biased := (c.getD 0 0 + 32) :: c.drop 1
  let columns := idctPass biased 1 8
  let rows := idctPass columns 8 1
  rows.map (fun v => asr v 6)

/-- The DC-only residual `asr(c0 + 32, 6)` (43_reconstruction.md R129 to R131). -/
def dcResidual (c0 : Int) : Int := asr (c0 + 32) 6

/-- `IDCT8`: the installed kernel. Every admissible kernel gives the DC-only residual on a DC-only block (43_reconstruction.md
R130 (b)); what another kernel than the default gives elsewhere is open (log entry 3). -/
def idct8 (kernel : Kernel) (c : List Int) : List Int :=
  match kernel with
  | .h264 => idctDefault c
  | .other id =>
    if (c.drop 1).all (fun v => decide (v = 0)) then List.replicate 64 (dcResidual (c.getD 0 0))
    else (List.range 64).map (Config.otherKernel id c)

/-! ### The output stage -/

/-- The samples `0..n-1` overwritten with the clipped residuals, row by row (43_reconstruction.md R128). -/
def State.putSamples (s : State) (dst : Word64) (stride : BitVec 16) (r : List Int) : Nat → State
  | 0 => s
  | n + 1 => (s.putSamples dst stride r n).writeByte (dstAddr dst stride n) (clip8 (r.getD n 0))

/-- The clipped residuals added to the samples `0..n-1`, each sample read just before it is written (43_reconstruction.md
R129, R131). -/
def State.addSamples (s : State) (dst : Word64) (stride : BitVec 16) (r : List Int) : Nat → State
  | 0 => s
  | n + 1 =>
    let t := s.addSamples dst stride r n
    let p := (t.readByte (dstAddr dst stride n)).toNat
    t.writeByte (dstAddr dst stride n) (clip8 ((p : Int) + r.getD n 0))

/-- `block <- unspecified`: the 128 bytes of the block (43_reconstruction.md R132; log entry 4). -/
def State.spoilBlock (s : State) (blk : Word64) : State := s.forgetBytes blk.toNat 128

/-- IDCT_PUT blk, dst, stride (43_reconstruction.md R128). -/
def execIdctPut (stride : BitVec 16) (blk dst : Word64) (s : State) : Host.Outcome State Fault Refusal :=
  .next <| runCommand 0x21 (strideOk stride) (s := s) fun s =>
    let r := idct8 s.params.kernel (s.coefs blk)
    .ok ⟨(s.putSamples dst stride r 64).spoilBlock blk, 0, false⟩

/-- IDCT_ADD blk, dst, stride, last (43_reconstruction.md R129). -/
def execIdctAdd (n : BitVec 7) (stride : BitVec 16) (blk dst : Word64) (s : State) :
    Host.Outcome State Fault Refusal :=
  .next <| runCommand 0x22 (strideOk stride && widthOk 0 64 n) (s := s) fun s =>
    if lastOf n < 0 then .ok ⟨s, 0, false⟩
    else
      let r :=
        if lastOf n = 0 then List.replicate 64 (dcResidual (s.coef blk 0))
        else idct8 s.params.kernel (s.coefs blk)
      .ok ⟨(s.addSamples dst stride r 64).spoilBlock blk, 0, false⟩

/-- IDCT_DC_ADD blk, dst, stride (43_reconstruction.md R131). -/
def execIdctDcAdd (stride : BitVec 16) (blk dst : Word64) (s : State) : Host.Outcome State Fault Refusal :=
  .next <| runCommand 0x23 (strideOk stride) (s := s) fun s =>
    let r := List.replicate 64 (dcResidual (s.coef blk 0))
    .ok ⟨(s.addSamples dst stride r 64).spoilBlock blk, 0, false⟩

end Sys2Proof.Machine
end

