-- ==== Sys2Proof/Machine/Vlc.lean ====
section
/-! DEFINITION. The meaning of READ_VLC: the walk through a table of at most three levels (42_vlc.md). -/

namespace Sys2Proof.Machine

/-- Where a VLC walk stands: the width of the current level's index, the entry looked up there, and the reader (42_vlc.md
R111). -/
structure VlcPoint where
  /-- `nb`, the width of the current level's index. -/
  width : Nat
  /-- The entry of the current level. -/
  entry : VlcEntry
  /-- The reader, with the index bits of the earlier levels consumed. -/
  reader : State

/-- One lookup: the refill a peek of `nb` bits needs, without its CheckRange, and the entry at `base + Show(nb)` (42_vlc.md
R111, R112, R115). -/
def State.vlcLookup (s : State) (table : Word64) (tlen : Nat) (nb : Nat) (base : Int) : Except Cause VlcPoint := do
  let t ← s.refillFor nb
  let e ← t.vlcEntry table tlen (((t.showBits nb).toNat : Int) + base)
  return ⟨nb, e, t⟩

/-- The loop of R111 over the `more` levels the depth still allows: while the entry is a sub-table sentinel, its level's bits
are consumed and the sub-table is looked up (42_vlc.md R111, R113). -/
def vlcWalk (table : Word64) (tlen : Nat) : Nat → VlcPoint → Except Cause VlcPoint
  | 0, p => .ok p
  | more + 1, p =>
    if p.entry.len < 0 then do
      p.reader.checkRange p.width
      if (-p.entry.len) > 32 then .error .vlcTable
      else
        let q ← (p.reader.dropBits p.width).vlcLookup table tlen (-p.entry.len).toNat p.entry.sym
        vlcWalk table tlen more q
    else .ok p

/-- READ_VLC table, tlen, bits, depth (42_vlc.md R111). -/
def execReadVlc (n : BitVec 7) (d : BitVec 2) (table tlen : Word64) (s : State) : Host.Outcome State Fault Refusal :=
  .next <| runCommand 0x10 (widthOk 1 32 n && widthOk 1 3 d) (s := s) fun s => do
    let first ← s.vlcLookup table tlen.toNat n.toNat 0
    let p ← vlcWalk table tlen.toNat (d.toNat - 1) first
    if p.entry.len < 0 ∨ p.entry.len > (p.width : Int) then .error .vlcTable
    else
      p.reader.checkRange p.entry.len.toNat
      return ⟨p.reader.dropBits p.entry.len.toNat, BitVec.ofInt 64 p.entry.sym, false⟩

end Sys2Proof.Machine
end

