-- ==== Sys2Proof/Machine/Dispatch.lean ====
section
/-! DEFINITION. The meaning of every command, one arm per constructor. -/

namespace Sys2Proof.Machine

/-- What a command does to the block (60_exceptions.md R143, R144). -/
def exec (i : Instr) (s : State) : Host.Outcome State Fault Refusal :=
  match i with
  -- 40_reader_control.md and 41_reader_extract.md, in the table's order
  | .init buf nbits => Sys2Proof.Machine.execInit buf nbits s
  | .readBit => Sys2Proof.Machine.execReadBit s
  | .read n => Sys2Proof.Machine.execRead n s
  | .readNz n => Sys2Proof.Machine.execReadNz n s
  | .read63 n => Sys2Proof.Machine.execRead63 n s
  | .read64 n => Sys2Proof.Machine.execRead64 n s
  | .readSigned n => Sys2Proof.Machine.execReadSigned n s
  | .peek n => Sys2Proof.Machine.execPeek n s
  | .peekSigned n => Sys2Proof.Machine.execPeekSigned n s
  | .skip n => Sys2Proof.Machine.execSkip n s
  | .seek pos => Sys2Proof.Machine.execSeek pos s
  | .align => Sys2Proof.Machine.execAlign s
  | .tell => Sys2Proof.Machine.execTell s
  | .size => Sys2Proof.Machine.execSize s
  | .left => Sys2Proof.Machine.execLeft s
  -- 42_vlc.md
  | .readVlc n d table tlen => Sys2Proof.Machine.execReadVlc n d table tlen s
  | .skip1stop8data => Sys2Proof.Machine.execSkip1stop8data s
  -- 43_reconstruction.md
  | .dequant n intra nonlin losslessDc qscale dcScale blk mat => Sys2Proof.Machine.execDequant n intra nonlin losslessDc qscale dcScale blk mat s
  | .idctPut stride blk dst => Sys2Proof.Machine.execIdctPut stride blk dst s
  | .idctAdd n stride blk dst => Sys2Proof.Machine.execIdctAdd n stride blk dst s
  | .idctDcAdd stride blk dst => Sys2Proof.Machine.execIdctDcAdd stride blk dst s

end Sys2Proof.Machine
end

