-- ==== Sys2Proof/Machine/Issue.lean ====
section
/-! DEFINITION. What a write of CMD does with the packet the host registers hold. -/

namespace Sys2Proof.Machine

/-- The packet in the host registers is issued: a packet that decodes runs its command, any other is illegal
(60_exceptions.md R144). -/
def issue (s : State) : Host.Outcome State Fault Refusal :=
  match decode s.packet with
  | .ok i => exec i s
  | .error _ => .next s.rejectPacket

end Sys2Proof.Machine
end

