-- ==== Sys2Proof/Machine/Step.lean ====
section
/-! DEFINITION. One step of the block and its host: the next input of the host program is taken and acted on. -/

namespace Sys2Proof.Machine

/-- One step. With no input waiting the block is idle and keeps its state (60_exceptions.md R154, 70_reset_and_hazards.md
R167). A packet is one atomic step (R174), and so is each other host access (20_memory.md R53). -/
def step (s : State) : Host.Outcome State Fault Refusal :=
  match s.inbox with
  | [] => .next s
  | .packet p :: _ => issue (s.popInput.latchPacket p)
  | .regWrite addr width v :: _ =>
    if s.issues addr width then issue (s.popInput.portWrite addr width v) else .next (s.popInput.portWrite addr width v)
  | .regRead addr width :: _ => .next (s.popInput.answerRegRead addr width)
  | .memWrite addr b :: _ =>
    if s.hasAddr addr then .next (s.popInput.writeByte addr.toNat b) else .fault .noSuchAddress
  | .memRead addr :: _ =>
    if s.hasAddr addr then .next (s.popInput.answerHost ((s.readByte addr.toNat).setWidth 64)) else .fault .noSuchAddress
  | .reset :: _ => .next s.popInput.assertReset

/-- The state with one more packet at the head of the host program, so that the next step issues it: the packet whose bits
are `w` (`packetOfBits`). -/
def State.withFetchWord (s : State) (nbits w : Nat) : State :=
  { s with inbox := .packet (packetOfBits nbits w) :: s.inbox }

end Sys2Proof.Machine
end

