-- ==== Sys2Proof/Safety.lean ====
section
/-! DEFINITION. The terms the claims use: the invariant of a state, the stream a reader stands on, what a command may change,
the outcomes the spec lists, and the observation of a run. -/

namespace Sys2Proof.Machine

/-! ### The invariant -/

/-- Every bit of CACHE outside the valid ones is 0: LE keeps the valid bits at the bottom, BE at the top (10_state.md R18). -/
def State.cacheAligned (s : State) : Bool :=
  match s.params.endian with
  | .le => decide (s.cache.toNat < 2 ^ s.valid.toNat)
  | .be => decide (s.cache.toNat % 2 ^ (64 - s.valid.toNat) = 0)

/-- The reader registers: VALID is at most 64 (10_state.md R16), Tell is not negative (R17), CACHE is aligned (R18), SIZE is
at most SIZE_MAX and BYTE_LEN is `ceil(SIZE/8)`, BUF is an address (R15). -/
def State.readerOk (s : State) : Bool :=
  decide (s.valid.toNat ≤ 64) && decide (s.valid.toNat ≤ 8 * s.ptrOff.toNat) && s.cacheAligned &&
  decide (s.size.toNat ≤ Config.sizeMax) && decide (s.byteLen.toNat = (s.size.toNat + 7) / 8) &&
  decide (s.buf.toNat < 2 ^ s.params.addrW)

/-- In unchecked mode the position never passes SIZE (20_memory.md R33). -/
def State.uncheckedOk (s : State) : Bool := s.params.checked || decide (s.tell ≤ (s.size.toNat : Int))

/-- STATUS and FAULT hold only values the block writes: CODE is 0, 1 or 3 (10_state.md R23), CAUSE is 0 or a cause that can
be raised, never BUFFER_OVERREAD (20_memory.md R33), and FAULT is 0 where CAUSE is 0 (10_state.md R24). -/
def State.hostRegsOk (s : State) : Bool :=
  (decide (s.status = statusOk) || decide (s.status = statusInvalidData) || decide (s.status = statusFaulted)) &&
  decide (s.fault.toNat < 2 ^ 14) && decide (s.faultCause.toNat ≤ 6) && decide (s.faultCause ≠ 2) &&
  (s.faulted || decide (s.fault = 0))

/-- The memory has its canonical form and no address outside the address space (20_memory.md R31). -/
def State.memoryOk (s : State) : Bool := s.mem.wf && s.mem.below (2 ^ s.params.addrW)

/-- The invariant every step keeps. -/
def State.inv (s : State) : Bool := s.params.ok && s.readerOk && s.uncheckedOk && s.hostRegsOk && s.memoryOk

/-! ### The stream -/

/-- The `i`-th next bit of the cache: CACHE[i] for LE, CACHE[63-i] for BE (10_state.md R18). -/
def State.nextBit (s : State) (i : Nat) : Bool :=
  match s.params.endian with
  | .le => s.cache.getLsbD i
  | .be => s.cache.getLsbD (63 - i)

/-- The cache holds the stream in order: valid bit `i` is stream bit `Tell + i` (20_memory.md R52). -/
def State.streamOrdered (s : State) : Bool :=
  (List.range s.valid.toNat).all (fun i => s.nextBit i == s.streamBit (s.tell.toNat + i))

/-- `sum over i < n of StreamBit(k+i) << i` (20_memory.md R52, LE). -/
def State.fieldLe (s : State) (k : Nat) : Nat → Nat
  | 0 => 0
  | n + 1 => s.fieldLe k n + (s.streamBit (k + n)).toNat * 2 ^ n

/-- `sum over i < n of StreamBit(k+i) << (n-1-i)` (20_memory.md R52, BE). -/
def State.fieldBe (s : State) (k : Nat) : Nat → Nat
  | 0 => 0
  | n + 1 => 2 * s.fieldBe k n + (s.streamBit (k + n)).toNat

/-- The value of the `n` stream bits at position `k` (20_memory.md R52). -/
def State.streamField (s : State) (k n : Nat) : Nat :=
  match s.params.endian with
  | .le => s.fieldLe k n
  | .be => s.fieldBe k n

/-- A value of `v` bits followed by `z` zero bits, in stream order: LE leaves it, BE moves it up (20_memory.md R49). -/
def State.zeroExtended (s : State) (field z : Nat) : Nat :=
  match s.params.endian with
  | .le => field
  | .be => field * 2 ^ z

/-- Whether the reader can supply `n` bits: in checked mode they are cached or a refill is not suppressed (20_memory.md R44,
R45), in unchecked mode they lie below SIZE (R50). -/
def State.supplies (s : State) (n : Nat) : Bool :=
  if s.params.checked then decide (n ≤ s.valid.toNat) || decide (s.ptrOff.toNat < s.byteLen.toNat)
  else decide (s.tell + (n : Int) ≤ (s.size.toNat : Int))

/-- The value a consuming or peeking command of `n` bits gives: the next `n` stream bits, or, where a checked reader cannot
supply them, the VALID remaining bits followed by zero bits (20_memory.md R49, R52). -/
def State.nextValue (s : State) (n : Nat) : Nat :=
  if s.supplies n then s.streamField s.tell.toNat n
  else s.zeroExtended (s.streamField s.tell.toNat s.valid.toNat) (n - s.valid.toNat)

/-- Two's complement of an `n`-bit value: the top bit counts negatively (00_scope.md R9). -/
def twosComplement (n v : Nat) : Int := if v < 2 ^ (n - 1) then (v : Int) else (v : Int) - ((2 ^ n : Nat) : Int)

/-- A reader that can run commands: the invariant holds, the cache holds the stream, the block is not faulted. -/
def State.ready (s : State) : Bool := s.inv && s.streamOrdered && !s.faulted

/-! ### What a command may change -/

/-- Only the cursor, the cache, RES and STATUS differ, and every byte of memory reads as before. -/
def readerFrame (s t : State) : Prop :=
  t = { s with ptrOff := t.ptrOff, cache := t.cache, valid := t.valid, res := t.res, status := t.status } ∧
  ∀ a, t.readByte a = s.readByte a

/-- Only RES and STATUS differ, and every byte of memory reads as before. -/
def resultFrame (s t : State) : Prop :=
  t = { s with res := t.res, status := t.status } ∧ ∀ a, t.readByte a = s.readByte a

/-- Only the memory (with the count of free values), RES and STATUS differ. -/
def memoryFrame (s t : State) : Prop :=
  t = { s with mem := t.mem, freeCount := t.freeCount, res := t.res, status := t.status }

/-- Whether the byte address `a` is one of the 128 bytes of the block at `blk` (20_memory.md R39). -/
def State.inBlock (s : State) (blk : Word64) (a : Nat) : Bool :=
  (List.range 128).any (fun j => decide (s.wrapAddr (blk.toNat + j) = s.wrapAddr a))

/-- Whether the byte address `a` is one of the 64 samples of a destination (20_memory.md R39). -/
def State.isSample (s : State) (dst : Word64) (stride : BitVec 16) (a : Nat) : Bool :=
  (List.range 64).any (fun i => decide (s.wrapAddr (dstAddr dst stride i) = s.wrapAddr a))

/-- The 64 samples of a destination have 64 addresses: they do not wrap around the memory onto one another. -/
def State.samplesApart (s : State) (stride : BitVec 16) : Bool := decide (7 * stride.toNat + 8 ≤ 2 ^ s.params.addrW)

/-- The commands of the reader and the VLC decoder, all but the four idct_2d commands (20_memory.md R32). -/
def isReader : Instr → Bool
  | .init _ _ => true
  | .readBit => true
  | .read _ => true
  | .readNz _ => true
  | .read63 _ => true
  | .read64 _ => true
  | .readSigned _ => true
  | .peek _ => true
  | .peekSigned _ => true
  | .skip _ => true
  | .seek _ => true
  | .align => true
  | .tell => true
  | .size => true
  | .left => true
  | .readVlc _ _ _ _ => true
  | .skip1stop8data => true
  | .dequant _ _ _ _ _ _ _ _ => false
  | .idctPut _ _ _ => false
  | .idctAdd _ _ _ _ => false
  | .idctDcAdd _ _ _ => false

/-- The commands that return an unsigned value and consume its bits, with the number of bits (41_reader_extract.md R91 to R95). -/
def readsUnsigned : Instr → Option Nat
  | .readBit => some 1
  | .read n => some n.toNat
  | .readNz n => some n.toNat
  | .read63 n => some n.toNat
  | .read64 n => some n.toNat
  | _ => none

/-- The commands that read or peek bits at the current position and return them, with the number of bits (41_reader_extract.md
R91 to R98). -/
def readsOrPeeks : Instr → Option Nat
  | .readSigned n => some n.toNat
  | .peek n => some n.toNat
  | .peekSigned n => some n.toNat
  | i => readsUnsigned i

/-- The bits a command reads, peeks or skips from the current position, where its operands alone give their number (20_memory.md
R50). ALIGN, READ_VLC and SKIP_1STOP_8DATA find their number in the state. -/
def bitsFromHere : Instr → Option Nat
  | .skip n => some n.toNat
  | i => readsOrPeeks i

/-- The commands that use ARG_A (30_encoding.md R63 to R68). -/
def usesArgA : Instr → Bool
  | .init _ _ => true
  | .skip _ => true
  | .seek _ => true
  | .readVlc _ _ _ _ => true
  | i => !isReader i

/-- The commands that use ARG_B (30_encoding.md R63 to R68). -/
def usesArgB : Instr → Bool
  | .init _ _ => true
  | .readVlc _ _ _ _ => true
  | i => !isReader i

/-- The commands that consume nothing and do not restart the reader: the peeks, the queries, reads and skips of no bit, and
the idct_2d commands (40_reader_control.md R87; 41_reader_extract.md R93 to R97, R99; 43_reconstruction.md R121). -/
def consumesNothing : Instr → Bool
  | .peek _ => true
  | .peekSigned _ => true
  | .tell => true
  | .size => true
  | .left => true
  | .read n => decide (n.toNat = 0)
  | .read63 n => decide (n.toNat = 0)
  | .read64 n => decide (n.toNat = 0)
  | .skip n => decide (n.toNat = 0)
  | i => !isReader i

/-- The fault causes a command can raise (60_exceptions.md R157). -/
def causesOf : Instr → List Cause
  | .init _ _ => [.illegalCommand, .bufferOverread]
  | .readBit => [.illegalCommand, .bufferOverread, .uncheckedOverrun]
  | .read _ => [.illegalCommand, .bufferOverread, .uncheckedOverrun]
  | .readNz _ => [.illegalCommand, .bufferOverread, .uncheckedOverrun]
  | .read63 _ => [.illegalCommand, .bufferOverread, .uncheckedOverrun]
  | .read64 _ => [.illegalCommand, .bufferOverread, .uncheckedOverrun]
  | .readSigned _ => [.illegalCommand, .bufferOverread, .uncheckedOverrun]
  | .peek _ => [.illegalCommand, .bufferOverread, .uncheckedOverrun]
  | .peekSigned _ => [.illegalCommand, .bufferOverread, .uncheckedOverrun]
  | .skip _ => [.illegalCommand, .bufferOverread, .uncheckedOverrun]
  | .seek _ => [.illegalCommand, .bufferOverread, .uncheckedOverrun]
  | .align => [.illegalCommand, .bufferOverread, .uncheckedOverrun]
  | .tell => [.illegalCommand]
  | .size => [.illegalCommand]
  | .left => [.illegalCommand]
  | .readVlc _ _ _ _ => [.illegalCommand, .bufferOverread, .uncheckedOverrun, .vlcTable]
  | .skip1stop8data => [.illegalCommand, .bufferOverread, .uncheckedOverrun]
  | .dequant _ _ _ _ _ _ _ _ => [.illegalCommand, .coefRange, .paramRange]
  | .idctPut _ _ _ => [.illegalCommand]
  | .idctAdd _ _ _ _ => [.illegalCommand]
  | .idctDcAdd _ _ _ => [.illegalCommand]

/-- The commands run one after the other, from a state and while each answers a next state. -/
def execAll : List Instr → State → Option State
  | [], s => some s
  | i :: is, s =>
    match exec i s with
    | .next t => execAll is t
    | .fault _ => none
    | .refused _ => none

/-- The states after each of some commands run one after the other, while each answers a next state. -/
def execEach : List Instr → State → List State
  | [], _ => []
  | i :: is, s =>
    match exec i s with
    | .next t => t :: execEach is t
    | .fault _ => []
    | .refused _ => []

/-! ### What a walk over the stream gives, said on positions of the stream and not on the cache -/

/-- Whether a position lies past SIZE and the mode is the unchecked one (20_memory.md R50). -/
def State.overruns (s : State) (pos : Nat) : Bool := !s.params.checked && decide (s.size.toNat < pos)

/-- Where the next refill starts once `n` bits at position `pos` have been peeked, if it started at byte `ptr`: a peek that
needs more than the bits below `8 * ptr` refills 4 bytes, unless a checked reader is at its end (20_memory.md R45). -/
def State.peekEnd (s : State) (ptr pos n : Nat) : Nat :=
  if 8 * ptr < pos + n ∧ (s.params.checked = false ∨ ptr < s.byteLen.toNat) then ptr + 4 else ptr

/-- The `n` bits at position `pos` as a reader whose next refill starts at byte `ptr` shows them: the stream bits below
`8 * ptr`, then zero bits (20_memory.md R49). -/
def State.shownField (s : State) (ptr pos n : Nat) : Nat :=
  s.zeroExtended (s.streamField pos (min n (8 * ptr - pos))) (n - (8 * ptr - pos))

/-- What READ_VLC gives at stream position `pos` with at most `levels` levels of a table, where the next refill starts at byte
`ptr`: the symbol and the position after its code, or the fault. `width` and `base` are the index of the level. Past the bits
a checked reader has, the index is formed with zeros and the position stays at `8 * ptr` (42_vlc.md R111 to R114, 20_memory.md
R49). -/
def State.vlcOutcome (s : State) (table : Word64) (tlen : Nat) :
    Nat → Nat → Nat → Nat → Int → Except Cause (Int × Nat)
  | 0, _, _, _, _ => .error .vlcTable
  | levels + 1, pos, ptr, width, base =>
    let stop := s.peekEnd ptr pos width
    match s.vlcEntry table tlen (base + (s.shownField stop pos width : Int)) with
    | .error c => .error c
    | .ok e =>
      if e.len < 0 ∧ 0 < levels then
        if s.overruns (pos + width) then .error .uncheckedOverrun
        else if e.len < -32 then .error .vlcTable
        else s.vlcOutcome table tlen levels (min (pos + width) (8 * stop)) stop (-e.len).toNat e.sym
      else if e.len < 0 ∨ (width : Int) < e.len then .error .vlcTable
      else if s.overruns (pos + e.len.toNat) then .error .uncheckedOverrun
      else .ok (e.sym, min (pos + e.len.toNat) (8 * stop))

/-- The index of a level of `width` bits whose first `len` bits, in stream order, have the value `field`, and whose other bits
have the value `rest` (42_vlc.md R115). -/
def State.prefixIndex (s : State) (width len field rest : Nat) : Nat :=
  match s.params.endian with
  | .le => field + rest * 2 ^ len
  | .be => field * 2 ^ (width - len) + rest

/-- A table holds, for the stream bits from `pos` up to `stop`, the code of `sym` within some levels, as a builder fills it in:
a sub-table sentinel for every level's full index but the last, and at the last level the entry of the code at EVERY index that
begins with its bits (42_vlc.md R113, R115). -/
def State.holdsCode (s : State) (table : Word64) (tlen : Nat) (sym : Int) (stop : Nat) : Nat → Nat → Nat → Int → Prop
  | 0, _, _, _ => False
  | levels + 1, pos, width, base =>
    (pos ≤ stop ∧ stop ≤ pos + width ∧
      ∀ rest, rest < 2 ^ (pos + width - stop) →
        s.vlcEntry table tlen
          (base + (s.prefixIndex width (stop - pos) (s.streamField pos (stop - pos)) rest : Int)) =
          .ok ⟨sym, ((stop - pos : Nat) : Int)⟩) ∨
    ∃ e, s.vlcEntry table tlen (base + (s.streamField pos width : Int)) = .ok e ∧ 0 < levels ∧ e.len < 0 ∧ -32 ≤ e.len ∧
      s.holdsCode table tlen sym stop levels (pos + width) (-e.len).toNat e.sym

/-- A table holds codes that stand one after the other on the stream from `pos` on: each with its symbol and the position after
it (42_vlc.md R116). -/
def State.holdsCodes (s : State) (table : Word64) (tlen levels width : Nat) : Nat → List (Int × Nat) → Prop
  | _, [] => True
  | pos, (sym, stop) :: rest =>
    s.holdsCode table tlen sym stop levels pos width 0 ∧ s.holdsCodes table tlen levels width stop rest

/-- How a run of (1 stop bit, 8 data bits) groups ends (41_reader_extract.md R100). -/
inductive StopRun where
  /-- At a 0 stop bit below SIZE; `pos` is the position after it. -/
  | zeroBit (pos : Nat)
  /-- At or, in checked mode, past SIZE, the position `pos`, with no 0 stop bit. -/
  | reachesSize (pos : Nat)
  /-- In unchecked mode, in a group whose data bits cross SIZE. -/
  | crossesSize
  deriving DecidableEq, Repr

/-- How the run of groups at `pos` ends, looked at for a number of groups (41_reader_extract.md R100). -/
def State.stopRun (s : State) : Nat → Nat → StopRun
  | 0, pos => .reachesSize pos
  | passes + 1, pos =>
    if s.size.toNat ≤ pos then .reachesSize pos
    else if s.streamBit pos = false then .zeroBit (pos + 1)
    else if s.overruns (pos + 9) then .crossesSize
    else s.stopRun passes (pos + 9)

/-- The value DEQUANT gives coefficient `k`, or nothing where it leaves the coefficient as read (43_reconstruction.md R122,
R126). -/
def State.dequantValue (s : State) (blk mat : Word64) (n : Nat) (intra nonlin losslessDc : Bool) (qscale : BitVec 5)
    (dcScale : BitVec 8) (k : Nat) : Option Int :=
  let c := s.coef blk k
  if intra && !losslessDc && decide (k = 0) then some (c * (dcScale.toNat : Int))
  else if (scanPositions s.params (if intra then 1 else 0) n).contains k && decide (c ≠ 0) then
    some (acQuant (if intra then s.params.acIntra else s.params.acInter) c (mappedScale s.params nonlin qscale)
      (s.matEntry mat k))
  else none

/-- Whether DEQUANT meets a zero matrix entry at a processed position (43_reconstruction.md R122). -/
def State.zeroMatrixMet (s : State) (blk mat : Word64) (n : Nat) (intra : Bool) : Bool :=
  (scanPositions s.params (if intra then 1 else 0) n).any
    (fun k => decide (s.coef blk k ≠ 0) && decide (s.matEntry mat k = 0))

/-! ### Runs -/

/-- Whether the next input of the host program issues a packet. -/
def State.packetNext (s : State) : Bool :=
  match s.inbox with
  | .packet _ :: _ => true
  | .regWrite addr width _ :: _ => s.issues addr width
  | _ => false

/-- The (RES, STATUS) pairs the packets of the next `k` steps produce (70_reset_and_hazards.md R180). -/
def observed : Nat → State → List (Word64 × Word32)
  | 0, _ => []
  | k + 1, s =>
    match step s with
    | .next t => (if s.packetNext then [(t.res, t.status)] else []) ++ observed k t
    | .fault _ => []
    | .refused _ => []

/-- A run of `k` steps that ends with every host input taken and no fault recorded: the premise a claim about results takes
(70_reset_and_hazards.md R180). -/
def safeRun (k : Nat) (s : State) : Bool :=
  match Sys2Proof.core.run k s with
  | .next t => t.inbox.isEmpty && !t.faulted
  | .fault _ => false
  | .refused _ => false

end Sys2Proof.Machine
end

