-- ==== Sys2Proof/Certificates/Slice0/Obligations.lean ====
section
/-! DEFINITION. The statements about this model, one definition each; the docstring of each names what of the spec it says. -/

open Sys2Proof Sys2Proof.Machine

/-! ### Encoding (30_encoding.md) -/

/-- Decoding the packet of a command gives the command back, with every operand at every value of its width. -/
def Obligations.DecodeOfEncode : Prop := ∀ i : Instr, decode (encode i) = .ok i

/-- A packet that decodes has the command word the encoder writes for its command, and an argument word the command does not
use is ignored. -/
def Obligations.EncodeOfDecode : Prop :=
  ∀ (p : Packet) (i : Instr), decode p = .ok i →
    (encode i).cmd = p.cmd ∧
    ∀ a b : Word64, (usesArgA i = true → a = p.argA) → (usesArgB i = true → b = p.argB) → decode ⟨p.cmd, a, b⟩ = .ok i

/-- 30_encoding.md section 3, the match and mask columns of the opcode map: a packet decodes exactly when its command word
matches one row and only one. -/
def Obligations.DecodesExactlyOneRow : Prop :=
  ∀ p : Packet,
    (∃ i, decode p = .ok i) ↔
      (([(0x00000001, 0xFFFFFFFF), (0x00000002, 0xFFFFFFFF), (0x00000003, 0xFFFFE03F), (0x00000004, 0xFFFFE03F),
        (0x00000005, 0xFFFFE03F), (0x00000006, 0xFFFFE03F), (0x00000007, 0xFFFFE03F), (0x00000008, 0xFFFFE03F),
        (0x00000009, 0xFFFFE03F), (0x0000000A, 0xFFFFFFFF), (0x0000000B, 0xFFFFFFFF), (0x0000000C, 0xFFFFFFFF),
        (0x0000000D, 0xFFFFFFFF), (0x0000000E, 0xFFFFFFFF), (0x0000000F, 0xFFFFFFFF), (0x00000010, 0xFFFF803F),
        (0x00000011, 0xFFFFFFFF), (0x00000020, 0xE000003F), (0x00000021, 0x0000FFFF), (0x00000022, 0x0000E03F),
        (0x00000023, 0x0000FFFF)] : List (Word32 × Word32)).filter (fun r => decide (p.cmd &&& r.2 = r.1))).length = 1

/-- The five examples of 30_encoding.md section 4: the word of each decodes to its command. -/
def Obligations.ExampleWordsDecode : Prop :=
  (∀ a b, decode ⟨0x00000143, a, b⟩ = .ok (.read 5)) ∧
  (∀ a b, decode ⟨0x00004250, a, b⟩ = .ok (.readVlc 9 2 a b)) ∧
  (∀ a b, decode ⟨0x00000808, a, b⟩ = .ok (.peek 32)) ∧
  (∀ a b, decode ⟨0x00100023, a, b⟩ = .ok (.idctDcAdd 16 a b)) ∧
  (∀ a b, decode ⟨0x01022060, a, b⟩ = .ok (.dequant 1 true false false 2 8 a b))

/-! ### A step, the host port and reset (10_state.md, 60_exceptions.md, 70_reset_and_hazards.md) -/

/-- A packet that decodes to `i` makes the step run `i` on the state in which the packet is latched and counted. On a faulted
block `i` is refused, and that the refused packet is counted and its words held is the model's reading (log entries 11 and
12); that the host program is a list in the state is its choice (log entry 9). -/
def Obligations.StepRunsDecodedPacket : Prop :=
  ∀ (s : State) (p : Packet) (rest : List HostInput) (i : Instr), s.inbox = .packet p :: rest → decode p = .ok i →
    step s = exec i { s with inbox := rest, argA := p.argA, argB := p.argB, cmd := p.cmd, progIndex := s.progIndex + 1 }

/-- A host write that starts at a byte of CMD issues the packet the registers hold after it: the bytes it covers come from the
written value, least significant byte first, the others are as before. So a 32-bit write at CMD issues the written word with
ARG_A and ARG_B as they are. That a write of a part of CMD issues too, with the rest of CMD as held, is the model's choice (log
entry 25); that a refused packet is counted and its word held is its reading (log entries 11 and 12). -/
def Obligations.CmdWriteIssuesPacket : Prop :=
  (∀ (s : State) (off : Nat) (width : PortWidth) (v : Word64) (rest : List HostInput) (p : Packet) (i : Instr), off < 0x04 →
    s.inbox = .regWrite (s.params.bsrBase + BitVec.ofNat 64 off) width v :: rest →
    (∀ j, j < 4 → p.cmd.extractLsb' (8 * j) 8 =
      if off ≤ j ∧ j < off + width.bytes then v.extractLsb' (8 * (j - off)) 8 else s.cmd.extractLsb' (8 * j) 8) →
    (∀ j, j < 8 → p.argA.extractLsb' (8 * j) 8 =
      if 0x08 + j < off + width.bytes then v.extractLsb' (8 * (0x08 + j - off)) 8 else s.argA.extractLsb' (8 * j) 8) →
    p.argB = s.argB → decode p = .ok i →
    step s = exec i { s with inbox := rest, cmd := p.cmd, argA := p.argA, progIndex := s.progIndex + 1 }) ∧
  (∀ (s : State) (v : Word64) (rest : List HostInput) (i : Instr),
    s.inbox = .regWrite s.params.bsrBase .w32 v :: rest → decode ⟨v.setWidth 32, s.argA, s.argB⟩ = .ok i →
    step s = exec i { s with inbox := rest, cmd := v.setWidth 32, progIndex := s.progIndex + 1 })

/-- A packet that matches no row, issued as a packet or by a write of CMD, raises ILLEGAL_COMMAND with its own OP field; on a
faulted block it is refused. Nothing but FAULT and STATUS (and the latched packet) changes. That an illegal or refused packet
is latched and counted is the model's reading (log entries 11 and 12). -/
def Obligations.UnmatchedPacketFaults : Prop :=
  ∀ (s l : State) (rest : List HostInput) (e : DecodeError),
    ((∃ p : Packet, s.inbox = .packet p :: rest ∧
        l = { s with inbox := rest, argA := p.argA, argB := p.argB, cmd := p.cmd, progIndex := s.progIndex + 1 }) ∨
      (∃ v : Word64, s.inbox = .regWrite s.params.bsrBase .w32 v :: rest ∧
        l = { s with inbox := rest, cmd := v.setWidth 32, progIndex := s.progIndex + 1 })) →
    decode ⟨l.cmd, l.argA, l.argB⟩ = .error e →
    (s.faulted = false →
      step s = .next { l with fault := BitVec.ofNat 32 (1 + 256 * (l.cmd.toNat % 64)), status := 3 }) ∧
    (s.faulted = true → step s = .next { l with status := 3 })

/-- A command raises ILLEGAL_COMMAND exactly when a field is outside its legal range, and then nothing but FAULT and STATUS
changes. -/
def Obligations.IllegalExactlyWhenOutOfRange : Prop :=
  ∀ (i : Instr) (s t : State), s.faulted = false → exec i s = .next t →
    (t.faultCause = 1 ↔ i.wellFormed = false) ∧
    (i.wellFormed = false → t = { s with fault := BitVec.ofNat 32 (1 + 256 * i.opcode.toNat), status := 3 })

/-- With no input waiting the block does nothing. -/
def Obligations.IdleBlockKeepsState : Prop := ∀ s : State, s.inbox = [] → step s = .next s

/-- The program index counts every packet the block takes, whatever its outcome, and nothing else. That a refused packet counts
is the model's reading (log entry 11). That a reset input leaves the index as it was (log entry 21), that a write of a part of
CMD counts as a packet (log entry 25) and that the host program is a list of inputs (log entry 9) are the model's choices. -/
def Obligations.ProgramIndexCountsPackets : Prop :=
  ∀ s t : State, step s = .next t → t.progIndex = s.progIndex + (if s.packetNext then 1 else 0)

/-- On a faulted block every command is refused: STATUS.CODE becomes 3 and nothing else changes. -/
def Obligations.FaultIsSticky : Prop :=
  ∀ (i : Instr) (s : State), s.faulted = true → exec i s = .next { s with status := 3 }

/-- 60_exceptions.md R146: a command that raises a fault, or is refused, changes FAULT and STATUS alone. -/
def Obligations.FaultsArePrecise : Prop :=
  ∀ (i : Instr) (s t : State), exec i s = .next t → t.status = 3 →
    t = { s with fault := t.fault, status := 3 } ∧ ∀ a, t.readByte a = s.readByte a

/-- 70_reset_and_hazards.md R166: reset sets every register to 0, shows the parameters in CONFIG, changes no memory byte, and
nothing but reset clears a fault. -/
def Obligations.ResetAloneClearsFault : Prop :=
  (∀ (s : State) (rest : List HostInput), s.inbox = .reset :: rest →
    ∃ t, step s = .next t ∧
      t.buf = 0 ∧ t.byteLen = 0 ∧ t.ptrOff = 0 ∧ t.cache = 0 ∧ t.valid = 0 ∧ t.size = 0 ∧
      t.cmd = 0 ∧ t.argA = 0 ∧ t.argB = 0 ∧ t.res = 0 ∧ t.status = 0 ∧ t.fault = 0 ∧
      t.params = s.params ∧ t.config = configWord s.params ∧ t.mem = s.mem ∧ (∀ a, t.readByte a = s.readByte a)) ∧
  (∀ s t : State, s.faulted = true → (∀ rest, s.inbox ≠ .reset :: rest) → step s = .next t → t.fault = s.fault)

/-- Host writes that do not reach CMD, of any width: ARG_A and ARG_B take the bytes the access covers, the least significant
byte of the value at the lowest address; read-only and reserved bytes ignore it. So a 64-bit write at ARG_A or ARG_B sets the
register. That a register can be accessed by parts is the model's choice (log entry 25). -/
def Obligations.PortWritesReachArguments : Prop :=
  ∀ (s : State) (off : Nat) (width : PortWidth) (v : Word64) (rest : List HostInput), 0x04 ≤ off → off < 0x40 →
    s.inbox = .regWrite (s.params.bsrBase + BitVec.ofNat 64 off) width v :: rest →
    ∃ t, step s = .next t ∧ t = { s with inbox := rest, argA := t.argA, argB := t.argB } ∧
      (∀ j, j < 8 → t.argA.extractLsb' (8 * j) 8 =
        if off ≤ 0x08 + j ∧ 0x08 + j < off + width.bytes then v.extractLsb' (8 * (0x08 + j - off)) 8
        else s.argA.extractLsb' (8 * j) 8) ∧
      (∀ j, j < 8 → t.argB.extractLsb' (8 * j) 8 =
        if off ≤ 0x10 + j ∧ 0x10 + j < off + width.bytes then v.extractLsb' (8 * (0x10 + j - off)) 8
        else s.argB.extractLsb' (8 * j) 8) ∧
      (off = 0x08 → width = .w64 → t.argA = v ∧ t.argB = s.argB) ∧
      (off = 0x10 → width = .w64 → t.argA = s.argA ∧ t.argB = v)

/-- Host reads of any width inside the block: every byte read is the byte of the register there, each register with its least
significant byte at its offset; the bytes of CMD and every reserved byte read 0; a read has no side effect. So a read of a
register's own width at its offset gives the register. That a register can be read by parts is the model's choice (log entry
25). -/
def Obligations.PortReadsRegisters : Prop :=
  ∀ (s : State) (off : Nat) (width : PortWidth) (rest : List HostInput), off + width.bytes ≤ 0x40 →
    s.inbox = .regRead (s.params.bsrBase + BitVec.ofNat 64 off) width :: rest →
    ∃ d : Word64, step s = .next { s with inbox := rest, hostData := d } ∧ d.toNat < 2 ^ (8 * width.bytes) ∧
      (∀ r ∈ ([(0x08, 8, s.argA), (0x10, 8, s.argB), (0x18, 8, s.res), (0x20, 4, s.status.setWidth 64),
          (0x24, 4, s.fault.setWidth 64), (0x28, 4, s.config.setWidth 64)] : List (Nat × Nat × Word64)),
        (∀ j k, j < width.bytes → k < r.2.1 → off + j = r.1 + k →
          d.extractLsb' (8 * j) 8 = r.2.2.extractLsb' (8 * k) 8) ∧
        (off = r.1 → width.bytes = r.2.1 → d = r.2.2)) ∧
      ∀ j, j < width.bytes → (off + j < 0x08 ∨ 0x2C ≤ off + j) → d.extractLsb' (8 * j) 8 = 0

/-- 10_state.md R25: the fields of CONFIG, and no step changes it. -/
def Obligations.ConfigShowsParameters : Prop :=
  (∀ s : State, s.params.ok = true →
    s.config.getLsbD 0 = decide (s.params.endian = .be) ∧ s.config.getLsbD 1 = s.params.checked ∧
    (s.config.extractLsb' 8 8).toNat = min s.params.pad 255 ∧ (s.config.extractLsb' 16 8).toNat = s.params.addrW ∧
    s.config.extractLsb' 2 6 = 0 ∧ s.config.extractLsb' 24 8 = 0) ∧
  (∀ s t : State, step s = .next t → t.config = s.config)

/-- Host accesses to the memory between commands: a write changes the one byte, a read returns it, an address the memory does
not have stops the model. The stop is the model's choice (log entry 9). -/
def Obligations.HostReachesMemory : Prop :=
  ∀ (s : State) (a : Word64) (rest : List HostInput),
    (a.toNat < 2 ^ s.params.addrW →
      (∀ b, s.inbox = .memWrite a b :: rest →
        ∃ t, step s = .next t ∧ t = { s with inbox := rest, mem := t.mem } ∧ t.readByte a.toNat = b ∧
          ∀ a', s.wrapAddr a' ≠ a.toNat → t.readByte a' = s.readByte a') ∧
      (s.inbox = .memRead a :: rest →
        step s = .next { s with inbox := rest, hostData := (s.readByte a.toNat).setWidth 64 })) ∧
    (2 ^ s.params.addrW ≤ a.toNat →
      (∀ b, s.inbox = .memWrite a b :: rest → step s = .fault .noSuchAddress) ∧
      (s.inbox = .memRead a :: rest → step s = .fault .noSuchAddress))

/-! ### Invariants -/

/-- Right after reset the invariant holds and the reader is ready, for every admissible instantiation. -/
def Obligations.ResetMeetsInvariant : Prop :=
  (∀ p : Params, p.ok = true → (State.initial p).inv = true ∧ (State.initial p).ready = true) ∧ State.reset.inv = true

/-- Every step keeps the invariant: VALID at most 64, Tell not negative, the cache zero outside its valid bits, BYTE_LEN the
byte length of SIZE, in unchecked mode Tell at most SIZE, STATUS and FAULT legal and never BUFFER_OVERREAD, the memory
canonical and inside its address space. -/
def Obligations.StepKeepsInvariant : Prop := ∀ s t : State, s.inv = true → step s = .next t → t.inv = true

/-- 20_memory.md section 3: every reader and VLC command keeps the cache holding the stream in order. -/
def Obligations.ReaderKeepsStreamOrder : Prop :=
  ∀ (i : Instr) (s t : State), s.inv = true → s.streamOrdered = true → isReader i = true → exec i s = .next t →
    t.streamOrdered = true

/-- PTR_OFF only grows except through SEEK, INIT and reset. A PTR_OFF of 2^63 or more, from which a skip could leave the
64-bit register, is left out: there the value is the model's free one (log entry 5). -/
def Obligations.PointerGrowsForward : Prop :=
  ∀ (i : Instr) (s t : State), s.inv = true → s.ptrOff.toNat < 2 ^ 63 → (∀ b n, i ≠ .init b n) → (∀ n, i ≠ .seek n) →
    exec i s = .next t → s.ptrOff.toNat ≤ t.ptrOff.toNat

/-! ### Outcomes of every command -/

/-- Every packet leads to a next state: no command faults or refuses in the model's own sense. -/
def Obligations.EveryCommandAnswers : Prop := ∀ (i : Instr) (s : State), ∃ t, exec i s = .next t

/-- 60_exceptions.md section 4: how a command can end on a block that is not faulted. Only INIT and SKIP_1STOP_8DATA report
INVALID_DATA, and the faults of each command are the listed ones. -/
def Obligations.OutcomesAreListed : Prop :=
  ∀ (i : Instr) (s t : State), s.faulted = false → exec i s = .next t →
    (t.status = 0 ∧ t.fault = s.fault) ∨
    (t.status = 1 ∧ t.fault = s.fault ∧ t.res = 0 ∧ ((∃ b n, i = .init b n) ∨ i = .skip1stop8data)) ∨
    (t.status = 3 ∧ ∃ c ∈ causesOf i, t.fault = faultWord i.opcode c)

/-- RES after every command: 0 where a command without a value completes, unchanged where a command faults or is refused. -/
def Obligations.ResultRegisterRule : Prop :=
  ∀ (i : Instr) (s t : State), exec i s = .next t →
    (t.status = 3 → t.res = s.res) ∧
    (t.status ≠ 3 →
      (isReader i = false ∨ (∃ b n, i = .init b n) ∨ (∃ n, i = .skip n) ∨ (∃ n, i = .seek n) ∨ i = .skip1stop8data) →
      t.res = 0)

/-- Reader and VLC commands write no memory and no host register but RES, STATUS and FAULT. -/
def Obligations.ReaderWritesNoMemory : Prop :=
  ∀ (i : Instr) (s t : State), isReader i = true → exec i s = .next t →
    t = { s with
      buf := t.buf, byteLen := t.byteLen, ptrOff := t.ptrOff, cache := t.cache, valid := t.valid, size := t.size
      res := t.res, status := t.status, fault := t.fault, freeCount := t.freeCount } ∧
    ∀ a, t.readByte a = s.readByte a

/-- The idct_2d commands use no reader register: they change none, and what they do is the same for every value of the reader
registers, of ENDIAN and of CHECKED. -/
def Obligations.OutputStageIgnoresReader : Prop :=
  ∀ (i : Instr) (s t : State), isReader i = false → exec i s = .next t →
    t = { s with
      mem := t.mem, freeCount := t.freeCount, res := t.res, status := t.status, fault := t.fault } ∧
    ∀ (e : Endian) (c : Bool) (buf ptrOff cache : Word64) (byteLen size : Word32) (valid : BitVec 7),
      exec i { s with
        params := { s.params with endian := e, checked := c }
        buf := buf, ptrOff := ptrOff, cache := cache, byteLen := byteLen, size := size, valid := valid } =
      .next { t with
        params := { t.params with endian := e, checked := c }
        buf := buf, ptrOff := ptrOff, cache := cache, byteLen := byteLen, size := size, valid := valid }

/-! ### Reader control (40_reader_control.md) -/

/-- INIT on a legal size and a non-null address: a reader at position 0 over the new buffer, its cache filled unless the
checked guard suppresses the refill of an empty stream. -/
def Obligations.InitOpensReader : Prop :=
  ∀ (s : State) (buf nbits : Word64), s.params.ok = true → s.faulted = false → nbits.toNat ≤ Config.sizeMax →
    buf.toNat % 2 ^ s.params.addrW ≠ 0 →
    ∃ t, exec (.init buf nbits) s = .next t ∧
      t = { s with
        buf := t.buf, byteLen := t.byteLen, ptrOff := t.ptrOff, cache := t.cache, valid := t.valid, size := t.size
        res := 0, status := 0 } ∧
      t.buf.toNat = buf.toNat % 2 ^ s.params.addrW ∧ t.size.toNat = nbits.toNat ∧
      t.byteLen.toNat = (nbits.toNat + 7) / 8 ∧ t.tell = 0 ∧
      t.valid.toNat = (if s.params.checked = true ∧ nbits.toNat = 0 then 0 else 64) ∧ t.streamOrdered = true ∧
      ∀ a, t.readByte a = s.readByte a

/-- INIT on a size above SIZE_MAX or a null address: INVALID_DATA and the all-zero reader. -/
def Obligations.InitRejectsBadStream : Prop :=
  ∀ (s : State) (buf nbits : Word64), s.faulted = false → nbits.toNat < 2 ^ 32 →
    (Config.sizeMax < nbits.toNat ∨ buf.toNat % 2 ^ s.params.addrW = 0) →
    exec (.init buf nbits) s =
      .next { s with buf := 0, byteLen := 0, ptrOff := 0, cache := 0, valid := 0, size := 0, res := 0, status := 1 }

/-- SEEK to a position within SIZE leaves Tell there; past SIZE it faults in unchecked mode. In checked mode, wherever it lands:
the pointer skips to byte 0 (below 64 bits) or byte `pos / 8`; if that byte is below BYTE_LEN, Tell is the position, else the
refill is suppressed, the cache is empty and Tell is 8 * PTR_OFF, that byte's first bit. -/
def Obligations.SeekReachesPosition : Prop :=
  ∀ (s : State) (pos : Word64), s.inv = true → s.faulted = false → pos.toNat < 2 ^ 32 →
    (pos.toNat ≤ s.size.toNat →
      ∃ t, exec (.seek pos) s = .next t ∧ t.tell = (pos.toNat : Int) ∧ t.res = 0 ∧ t.status = 0 ∧ readerFrame s t) ∧
    (s.params.checked = false → s.size.toNat < pos.toNat →
      exec (.seek pos) s = .next { s with fault := 0x0B03, status := 3 }) ∧
    (s.params.checked = true → ∀ start, start = (if pos.toNat < 64 then 0 else pos.toNat / 8) →
      ∃ t, exec (.seek pos) s = .next t ∧ t.res = 0 ∧ t.status = 0 ∧ readerFrame s t ∧
        (start < s.byteLen.toNat → t.tell = (pos.toNat : Int)) ∧
        (s.byteLen.toNat ≤ start → t.ptrOff.toNat = start ∧ t.valid = 0 ∧ t.cache = 0 ∧ t.tell = 8 * (start : Int)))

/-- After SEEK Tell is the position, and every later read or peek whose bits lie below 8 * BYTE_LEN, READ_VLC with its lookahead
included, returns what the same read returns after INIT and SKIP, whatever reads and peeks came before it on both sides. -/
def Obligations.SeekAgreesWithInitAndSkip : Prop :=
  ∀ (s t u v t' v' t'' v'' : State) (pos : Word64) (js : List Instr) (i : Instr) (n : Nat), s.ready = true →
    pos.toNat ≤ s.size.toNat →
    exec (.seek pos) s = .next t → exec (.init s.buf (s.size.setWidth 64)) s = .next u → u.status = 0 →
    exec (.skip pos) u = .next v →
    js.all (fun j => (readsOrPeeks j).isSome) = true → execAll js t = some t' → execAll js v = some v' →
    (readsOrPeeks i = some n ∨ ∃ m d table tlen, i = .readVlc m d table tlen ∧ n = m.toNat + 64) →
    t'.tell + (n : Int) ≤ 8 * (s.byteLen.toNat : Int) →
    exec i t' = .next t'' → exec i v' = .next v'' → t''.faulted = false → v''.faulted = false →
    t.tell = (pos.toNat : Int) ∧ t''.res = v''.res

/-- ALIGN lands on the next byte boundary and returns its address: always in checked mode, in unchecked mode where the boundary
is not beyond SIZE. -/
def Obligations.AlignReachesByteBoundary : Prop :=
  ∀ s : State, s.inv = true → s.faulted = false →
    (s.params.checked = true ∨ 8 * ((s.tell + 7) / 8) ≤ (s.size.toNat : Int)) →
    ∃ t, exec .align s = .next t ∧ t.tell = 8 * ((s.tell + 7) / 8) ∧ t.status = 0 ∧ readerFrame s t ∧
      t.res.toNat = (s.buf.toNat + ((s.tell + 7) / 8).toNat) % 2 ^ s.params.addrW

/-- TELL, SIZE and LEFT complete with the position, the bit length and the bits left, as 64-bit values. -/
def Obligations.QueriesReturnPosition : Prop :=
  ∀ s : State, s.faulted = false →
    exec .tell s = .next { s with res := BitVec.ofInt 64 (8 * (s.ptrOff.toNat : Int) - s.valid.toNat), status := 0 } ∧
    exec .size s = .next { s with res := BitVec.ofNat 64 s.size.toNat, status := 0 } ∧
    exec .left s =
      .next { s with
        res := BitVec.ofInt 64 ((s.size.toNat : Int) - (8 * (s.ptrOff.toNat : Int) - s.valid.toNat)), status := 0 }

/-- 40_reader_control.md R87: TELL, SIZE and LEFT change only RES and STATUS, and do not depend on the memory. -/
def Obligations.QueriesArePure : Prop :=
  ∀ (i : Instr) (s t : State), (i = .tell ∨ i = .size ∨ i = .left) → exec i s = .next t →
    resultFrame s t ∧ ∀ m, exec i { s with mem := m } = .next { t with mem := m }

/-- 40_reader_control.md R89: after every command, TELL + LEFT = SIZE modulo 2^64. -/
def Obligations.TellPlusLeftIsSize : Prop :=
  ∀ (i : Instr) (r s a b c : State), exec i r = .next s → s.faulted = false → exec .tell s = .next a →
    exec .left s = .next b → exec .size s = .next c → a.res + b.res = c.res

/-- The inert reader after reset: in checked mode reads and peeks return 0 at Tell 0, and SKIP and SEEK move only by whole bytes
from 64 bits on; in unchecked mode a command that needs a bit faults. -/
def Obligations.InertReaderReturnsZeros : Prop :=
  ∀ (p : Params) (i : Instr) (n : Nat), p.ok = true → i.wellFormed = true →
    (p.checked = true → readsOrPeeks i = some n →
      ∃ t, exec i (State.initial p) = .next t ∧ t.res = 0 ∧ t.status = 0 ∧ t.tell = 0) ∧
    (p.checked = true → (∃ k, (i = .skip k ∨ i = .seek k) ∧ k.toNat = n) →
      ∃ t, exec i (State.initial p) = .next t ∧ t.status = 0 ∧ t.tell = if 64 ≤ n then ((8 * (n / 8) : Nat) : Int) else 0) ∧
    (p.checked = false → (bitsFromHere i = some n ∨ ∃ k, i = .seek k ∧ k.toNat = n) → 1 ≤ n →
      exec i (State.initial p) =
        .next { State.initial p with fault := BitVec.ofNat 32 (3 + 256 * i.opcode.toNat), status := 3 })

/-! ### Extraction (41_reader_extract.md) -/

/-- READ_BIT, READ, READ_NZ, READ_63 and READ_64 of bits the reader can supply: RES is those stream bits, Tell advances by
their number, nothing else but the cache and cursor changes. -/
def Obligations.ReadReturnsStreamBits : Prop :=
  ∀ (i : Instr) (n : Nat) (s : State), readsUnsigned i = some n → i.wellFormed = true → s.ready = true →
    s.supplies n = true →
    ∃ t, exec i s = .next t ∧ t.res.toNat = s.streamField s.tell.toNat n ∧ t.tell = s.tell + (n : Int) ∧ t.status = 0 ∧
      readerFrame s t

/-- The same commands on an exhausted checked reader: the valid bits followed by zero bits, VALID saturated at 0, Tell at
8 * PTR_OFF. -/
def Obligations.ExhaustedReadPadsZeros : Prop :=
  ∀ (i : Instr) (n : Nat) (s : State), readsUnsigned i = some n → i.wellFormed = true → s.ready = true →
    s.params.checked = true → s.supplies n = false →
    ∃ t, exec i s = .next t ∧
      t.res.toNat = s.zeroExtended (s.streamField s.tell.toNat s.valid.toNat) (n - s.valid.toNat) ∧
      t.valid = 0 ∧ t.ptrOff = s.ptrOff ∧ t.tell = 8 * (s.ptrOff.toNat : Int) ∧ t.status = 0 ∧ readerFrame s t

/-- READ_SIGNED: the two's complement of the value READ gives, exhausted or not, and the same consumption. -/
def Obligations.SignedReadReturnsTwosComplement : Prop :=
  ∀ (n : BitVec 7) (s : State), 1 ≤ n.toNat → n.toNat ≤ 32 → s.ready = true →
    (s.params.checked = true ∨ s.supplies n.toNat = true) →
    ∃ t, exec (.readSigned n) s = .next t ∧ t.res.toInt = twosComplement n.toNat (s.nextValue n.toNat) ∧
      t.tell = (if s.supplies n.toNat then s.tell + (n.toNat : Int) else 8 * (s.ptrOff.toNat : Int)) ∧ t.status = 0 ∧
      readerFrame s t

/-- PEEK and PEEK_SIGNED: the value READ and READ_SIGNED would give, and Tell unchanged. -/
def Obligations.PeekShowsNextValue : Prop :=
  ∀ (n : BitVec 7) (s : State), n.toNat ≤ 32 → s.ready = true →
    (s.params.checked = true ∨ s.supplies n.toNat = true) →
    (∃ t, exec (.peek n) s = .next t ∧ t.res.toNat = s.nextValue n.toNat ∧ t.tell = s.tell ∧ t.status = 0 ∧
      readerFrame s t) ∧
    (1 ≤ n.toNat →
      ∃ t, exec (.peekSigned n) s = .next t ∧ t.res.toInt = twosComplement n.toNat (s.nextValue n.toNat) ∧
        t.tell = s.tell ∧ t.status = 0 ∧ readerFrame s t)

/-- In unchecked mode a command that would read, peek or skip past SIZE raises UNCHECKED_OVERRUN, and changes nothing but FAULT
and STATUS; so does ALIGN where the byte boundary lies beyond SIZE. For SKIP_1STOP_8DATA and READ_VLC, whose bits the stream
decides, StopRunEndsAtZeroBit and VlcMisfitFaults say it. -/
def Obligations.UncheckedOverrunFaults : Prop :=
  ∀ s : State, s.inv = true → s.faulted = false → s.params.checked = false →
    (∀ (i : Instr) (n : Nat), bitsFromHere i = some n → i.wellFormed = true → (s.size.toNat : Int) < s.tell + (n : Int) →
      exec i s = .next { s with fault := BitVec.ofNat 32 (3 + 256 * i.opcode.toNat), status := 3 }) ∧
    ((s.size.toNat : Int) < 8 * ((s.tell + 7) / 8) → exec .align s = .next { s with fault := 0x0C03, status := 3 })

/-- SKIP within the stream advances Tell by exactly its count. -/
def Obligations.SkipAdvancesPosition : Prop :=
  ∀ (s : State) (n : Word64), s.inv = true → s.faulted = false → n.toNat < 2 ^ 32 →
    (if s.params.checked then s.tell + (n.toNat : Int) ≤ 8 * (s.byteLen.toNat : Int)
      else s.tell + (n.toNat : Int) ≤ (s.size.toNat : Int)) →
    ∃ t, exec (.skip n) s = .next t ∧ t.tell = s.tell + (n.toNat : Int) ∧ t.res = 0 ∧ t.status = 0 ∧ readerFrame s t

/-- SKIP in checked mode wherever it lands: Tell never goes back and never passes the requested position; where the skip goes
through the pointer, it falls short by at most 7 bits. A PTR_OFF of 2^63 or more is left out, as its sum may leave the register
(log entry 5). -/
def Obligations.CheckedSkipIsBounded : Prop :=
  ∀ (s : State) (n : Word64), s.inv = true → s.faulted = false → s.params.checked = true → n.toNat < 2 ^ 32 →
    s.ptrOff.toNat < 2 ^ 63 →
    ∃ t, exec (.skip n) s = .next t ∧ s.tell ≤ t.tell ∧ t.tell ≤ s.tell + (n.toNat : Int) ∧
      (s.valid.toNat + 64 ≤ n.toNat → s.tell + (n.toNat : Int) ≤ t.tell + 7) ∧ t.res = 0 ∧ t.status = 0 ∧ readerFrame s t

/-- SKIP_1STOP_8DATA, in both modes, by how the run of groups at Tell ends: OK just after the first 0 stop bit below SIZE;
INVALID_DATA where the run reaches SIZE, with no bits left before SIZE and Tell where the run ended (short of it only past the
end of the buffer of a checked reader); in unchecked mode UNCHECKED_OVERRUN, with nothing else changed, where the data bits of
a group cross SIZE. -/
def Obligations.StopRunEndsAtZeroBit : Prop :=
  ∀ (s : State) (run : StopRun), s.ready = true → s.stopRun (s.size.toNat + 1) s.tell.toNat = run →
    match run with
    | .zeroBit pos =>
      ∃ t, exec .skip1stop8data s = .next t ∧ t.tell = (pos : Int) ∧ t.res = 0 ∧ t.status = 0 ∧ readerFrame s t
    | .reachesSize pos =>
      ∃ t, exec .skip1stop8data s = .next t ∧ t.left ≤ 0 ∧ t.tell ≤ (pos : Int) ∧
        (pos ≤ 8 * s.byteLen.toNat → t.tell = (pos : Int)) ∧ t.res = 0 ∧ t.status = 1 ∧ readerFrame s t
    | .crossesSize => exec .skip1stop8data s = .next { s with fault := 0x1103, status := 3 }

/-- 70_reset_and_hazards.md section 2: a write of a byte that no refill from PTR_OFF on can reach is not seen by any reader
command but SEEK and INIT (and READ_VLC where it hits the table): each does what it does without the write. A write that
touches none of the cached bytes is seen by every refill that comes after it: after any reader commands, a read the reader can
supply returns the stream bits as memory holds them, the written byte among them. A PTR_OFF of 2^63 or more is left out of the
first clause, as its sum may leave the register (log entry 5). -/
def Obligations.CacheIsStaleBelowPointer : Prop :=
  ∀ (s : State) (a : Nat) (b : Byte), s.ready = true →
    (s.ptrOff.toNat < 2 ^ 63 →
      (∀ k, s.ptrOff.toNat ≤ k → k < s.byteLen.toNat + s.params.pad → s.wrapAddr (s.buf.toNat + k) ≠ s.wrapAddr a) →
      ∀ (i : Instr) (t : State), isReader i = true → (∀ buf n, i ≠ .init buf n) → (∀ pos, i ≠ .seek pos) →
        (∀ n d table tlen, i = .readVlc n d table tlen →
          ∀ k, k < 4 * tlen.toNat → s.wrapAddr (table.toNat + k) ≠ s.wrapAddr a) →
        exec i s = .next t → exec i (s.writeByte a b) = .next (t.writeByte a b)) ∧
    ((∀ k : Nat, s.tell < 8 * ((k : Int) + 1) → k < s.ptrOff.toNat → s.wrapAddr (s.buf.toNat + k) ≠ s.wrapAddr a) →
      ∀ (js : List Instr) (i : Instr) (n : Nat) (u : State), js.all isReader = true →
        execAll js (s.writeByte a b) = some u → u.faulted = false → readsUnsigned i = some n → i.wellFormed = true →
        u.supplies n = true →
        u.readByte a = b ∧
        ∃ t, exec i u = .next t ∧ t.status = 0 ∧ t.res.toNat = u.streamField u.tell.toNat n)

/-- 41_reader_extract.md R102: two PEEKs of one width return the same value, and neither changes Tell, where only commands that
consume nothing stand between them: peeks, queries, reads and skips of no bit, and the idct_2d commands, even those that write
over the stream. -/
def Obligations.PeekIsIdempotent : Prop :=
  ∀ (n : BitVec 7) (js : List Instr) (s t u v : State), s.inv = true → js.all consumesNothing = true →
    exec (.peek n) s = .next t → execAll js t = some u → exec (.peek n) u = .next v → v.faulted = false →
    v.res = t.res ∧ t.tell = s.tell ∧ v.tell = u.tell ∧ v.tell = s.tell

/-- 41_reader_extract.md R103: PEEK then READ of one width return the same value, and Tell advances by the width unless the
checked reader is exhausted. -/
def Obligations.PeekThenReadAgree : Prop :=
  ∀ (n : BitVec 7) (s t u : State), s.inv = true → exec (.peek n) s = .next t → exec (.read n) t = .next u →
    u.faulted = false → u.res = t.res ∧ (s.supplies n.toNat = true → u.tell = s.tell + (n.toNat : Int))

/-- 41_reader_extract.md R104: a wide read is the two reads of its parts, joined in stream order. -/
def Obligations.ReadsConcatenate : Prop :=
  ∀ (a b : Nat) (s u v w : State), s.ready = true → 1 ≤ a → 1 ≤ b → a + b ≤ 63 →
    s.tell + ((a + b : Nat) : Int) ≤ 8 * (s.byteLen.toNat : Int) →
    exec (.read63 (BitVec.ofNat 7 (a + b))) s = .next w → w.faulted = false →
    exec (.read63 (BitVec.ofNat 7 a)) s = .next u → exec (.read63 (BitVec.ofNat 7 b)) u = .next v →
    (s.params.endian = .be → w.res = (u.res <<< b) ||| v.res) ∧ (s.params.endian = .le → w.res = u.res ||| (v.res <<< a))

/-! ### VLC decoder (42_vlc.md) -/

/-- READ_VLC follows the table walk said on the stream, in both modes and up to and past the end of the buffer: where the walk
gives a symbol, RES is that symbol and Tell is the position after its code. Past the bits a checked reader has, the walk's
indices are formed with zeros. At an invalid prefix below the first level the position is the one 42_vlc.md R114 decides (log
entry 6). -/
def Obligations.VlcFollowsTableWalk : Prop :=
  ∀ (s : State) (n : BitVec 7) (d : BitVec 2) (table tlen : Word64) (sym : Int) (pos : Nat), s.ready = true →
    (Instr.readVlc n d table tlen).wellFormed = true →
    s.vlcOutcome table tlen.toNat d.toNat s.tell.toNat s.ptrOff.toNat n.toNat 0 = .ok (sym, pos) →
    ∃ t, exec (.readVlc n d table tlen) s = .next t ∧ t.res = BitVec.ofInt 64 sym ∧ t.tell = (pos : Int) ∧
      t.status = 0 ∧ readerFrame s t

/-- READ_VLC faults, and changes nothing but FAULT and STATUS, where the walk over the stream does: with VLC_TABLE, in both
modes, where the table does not fit (an index outside the table, a sub-table wider than 32, an unresolved or inconsistent final
entry), and with UNCHECKED_OVERRUN, in unchecked mode, where the bits a level consumes run past SIZE. It faults for no other
cause. -/
def Obligations.VlcMisfitFaults : Prop :=
  ∀ (s : State) (n : BitVec 7) (d : BitVec 2) (table tlen : Word64) (c : Cause), s.ready = true →
    (Instr.readVlc n d table tlen).wellFormed = true →
    s.vlcOutcome table tlen.toNat d.toNat s.tell.toNat s.ptrOff.toNat n.toNat 0 = .error c →
    (c = .vlcTable ∧ exec (.readVlc n d table tlen) s = .next { s with fault := 0x1004, status := 3 }) ∨
    (c = .uncheckedOverrun ∧ s.params.checked = false ∧
      exec (.readVlc n d table tlen) s = .next { s with fault := 0x1003, status := 3 })

/-- 42_vlc.md R116: where a table, filled in as R113 and R115 say, holds the codes that stand one after the other on the stream
from Tell on, and they lie below 8 * BYTE_LEN (in unchecked mode within SIZE, past which the rule of that mode faults), as many
READ_VLC commands return their symbols in order, each with Tell at the end of its code. -/
def Obligations.VlcRoundTrip : Prop :=
  ∀ (s : State) (n : BitVec 7) (d : BitVec 2) (table tlen : Word64) (codes : List (Int × Nat)), s.ready = true →
    (Instr.readVlc n d table tlen).wellFormed = true →
    s.holdsCodes table tlen.toNat d.toNat n.toNat s.tell.toNat codes →
    (∀ c ∈ codes, c.2 ≤ 8 * s.byteLen.toNat ∧ (s.params.checked = false → c.2 ≤ s.size.toNat)) →
    (execEach (List.replicate codes.length (.readVlc n d table tlen)) s).map (fun t => (t.res, t.tell, t.status)) =
      codes.map (fun c => (BitVec.ofInt 64 c.1, (c.2 : Int), (0 : Word32)))

/-- READ_VLC is bounded: it consumes at most N + 64 bits and refills at most 12 bytes, whatever the table holds. -/
def Obligations.VlcIsBounded : Prop :=
  ∀ (s t : State) (n : BitVec 7) (d : BitVec 2) (table tlen : Word64), s.inv = true →
    s.ptrOff.toNat < 2 ^ 63 → exec (.readVlc n d table tlen) s = .next t →
    s.tell ≤ t.tell ∧ t.tell ≤ s.tell + (n.toNat : Int) + 64 ∧ t.ptrOff.toNat ≤ s.ptrOff.toNat + 12

/-! ### Unquantization and IDCT output stage (43_reconstruction.md) -/

/-- DEQUANT: each assigned coefficient gets its dequantized value, every other coefficient and every byte outside the block is
as before. -/
def Obligations.DequantScalesCoefficients : Prop :=
  ∀ (s : State) (n : BitVec 7) (intra nonlin losslessDc : Bool) (qscale : BitVec 5) (dcScale : BitVec 8)
    (blk mat : Word64), s.params.ok = true → 7 ≤ s.params.addrW → s.faulted = false →
    (Instr.dequant n intra nonlin losslessDc qscale dcScale blk mat).wellFormed = true → 1 ≤ n.toNat →
    s.zeroMatrixMet blk mat n.toNat intra = false →
    (∀ k v, k < 64 → s.dequantValue blk mat n.toNat intra nonlin losslessDc qscale dcScale k = some v →
      -32768 ≤ v ∧ v ≤ 32767) →
    ∃ t, exec (.dequant n intra nonlin losslessDc qscale dcScale blk mat) s = .next t ∧ memoryFrame s t ∧
      t.freeCount = s.freeCount ∧ t.res = 0 ∧ t.status = 0 ∧
      (∀ k, k < 64 → t.coef blk k =
        (s.dequantValue blk mat n.toNat intra nonlin losslessDc qscale dcScale k).getD (s.coef blk k)) ∧
      ∀ a, s.inBlock blk a = false → t.readByte a = s.readByte a

/-- DEQUANT faults before it writes: a zero matrix entry at a processed position is PARAM_RANGE, and only where there is none
is a value outside int16 COEF_RANGE. -/
def Obligations.DequantFaultsBeforeWriting : Prop :=
  ∀ (s : State) (n : BitVec 7) (intra nonlin losslessDc : Bool) (qscale : BitVec 5) (dcScale : BitVec 8)
    (blk mat : Word64), s.params.ok = true → s.faulted = false →
    (Instr.dequant n intra nonlin losslessDc qscale dcScale blk mat).wellFormed = true → 1 ≤ n.toNat →
    (s.zeroMatrixMet blk mat n.toNat intra = true →
      exec (.dequant n intra nonlin losslessDc qscale dcScale blk mat) s =
        .next { s with fault := 0x2006, status := 3 }) ∧
    (s.zeroMatrixMet blk mat n.toNat intra = false →
      (∃ k v, k < 64 ∧ s.dequantValue blk mat n.toNat intra nonlin losslessDc qscale dcScale k = some v ∧
        (v < -32768 ∨ 32767 < v)) →
      exec (.dequant n intra nonlin losslessDc qscale dcScale blk mat) s =
        .next { s with fault := 0x2005, status := 3 })

/-- A fully-zero block (N = 0): DEQUANT and IDCT_ADD complete and touch no memory. -/
def Obligations.ZeroBlockTouchesNothing : Prop :=
  ∀ (s : State) (intra nonlin losslessDc : Bool) (qscale : BitVec 5) (dcScale : BitVec 8) (stride : BitVec 16)
    (blk mat dst : Word64), s.faulted = false →
    ((Instr.dequant 0 intra nonlin losslessDc qscale dcScale blk mat).wellFormed = true →
      exec (.dequant 0 intra nonlin losslessDc qscale dcScale blk mat) s = .next { s with res := 0, status := 0 }) ∧
    (8 ≤ stride.toNat → exec (.idctAdd 0 stride blk dst) s = .next { s with res := 0, status := 0 })

/-- Every kernel gives `asr(c[0] + 32, 6)` everywhere on a DC-only block, and so zeros on the zero block. -/
def Obligations.KernelKeepsDcProperty : Prop :=
  ∀ (k : Kernel) (c : List Int), c.length = 64 → (∀ i, 1 ≤ i → i < 64 → c.getD i 0 = 0) →
    idct8 k c = List.replicate 64 ((c.getD 0 0 + 32) / 64) ∧ (c.getD 0 0 = 0 → idct8 k c = List.replicate 64 0)

/-- IDCT_PUT: each destination sample outside the block is the clipped residual; every byte that is neither in the block nor a
sample is as before. An all-zero block writes zeros. -/
def Obligations.PutWritesClippedResiduals : Prop :=
  ∀ (s : State) (stride : BitVec 16) (blk dst : Word64), s.faulted = false → 8 ≤ stride.toNat →
    s.samplesApart stride = true →
    ∃ t, exec (.idctPut stride blk dst) s = .next t ∧ memoryFrame s t ∧ t.res = 0 ∧ t.status = 0 ∧
      (∀ i, i < 64 → s.inBlock blk (dstAddr dst stride i) = false →
        ((t.readByte (dstAddr dst stride i)).toNat : Int) =
          min (max ((idct8 s.params.kernel (s.coefs blk)).getD i 0) 0) 255 ∧
        ((∀ k, k < 64 → s.coef blk k = 0) → t.readByte (dstAddr dst stride i) = 0)) ∧
      ∀ a, s.inBlock blk a = false → s.isSample dst stride a = false → t.readByte a = s.readByte a

/-- IDCT_ADD with LAST >= 0: each destination sample outside the block is its old value plus the residual, clipped; with
LAST = 0 the residual is the DC term alone. -/
def Obligations.AddWritesClippedSums : Prop :=
  ∀ (s : State) (n : BitVec 7) (stride : BitVec 16) (blk dst : Word64), s.faulted = false → 8 ≤ stride.toNat →
    1 ≤ n.toNat → n.toNat ≤ 64 → s.samplesApart stride = true →
    ∃ t, exec (.idctAdd n stride blk dst) s = .next t ∧ memoryFrame s t ∧ t.res = 0 ∧ t.status = 0 ∧
      (∀ i, i < 64 → s.inBlock blk (dstAddr dst stride i) = false →
        ((t.readByte (dstAddr dst stride i)).toNat : Int) =
          min (max (((s.readByte (dstAddr dst stride i)).toNat : Int) +
            (if n.toNat = 1 then (s.coef blk 0 + 32) / 64
              else (idct8 s.params.kernel (s.coefs blk)).getD i 0)) 0) 255) ∧
      ∀ a, s.inBlock blk a = false → s.isSample dst stride a = false → t.readByte a = s.readByte a

/-- IDCT_DC_ADD: each destination sample outside the block is its old value plus `(c[0] + 32) >> 6`, clipped. -/
def Obligations.DcAddWritesClippedSums : Prop :=
  ∀ (s : State) (stride : BitVec 16) (blk dst : Word64), s.faulted = false → 8 ≤ stride.toNat →
    s.samplesApart stride = true →
    ∃ t, exec (.idctDcAdd stride blk dst) s = .next t ∧ memoryFrame s t ∧ t.res = 0 ∧ t.status = 0 ∧
      (∀ i, i < 64 → s.inBlock blk (dstAddr dst stride i) = false →
        ((t.readByte (dstAddr dst stride i)).toNat : Int) =
          min (max (((s.readByte (dstAddr dst stride i)).toNat : Int) + (s.coef blk 0 + 32) / 64) 0) 255) ∧
      ∀ a, s.inBlock blk a = false → s.isSample dst stride a = false → t.readByte a = s.readByte a

/-- After IDCT_PUT, IDCT_DC_ADD and IDCT_ADD with LAST >= 0 every byte of the block is a fresh free value. The spec calls the
content unspecified; that it is a numbered free value, bytes that are also destination samples included, is the model's choice
(log entries 4 and 15). -/
def Obligations.BlockIsUnspecifiedAfterIdct : Prop :=
  ∀ (s t : State) (i : Instr) (stride : BitVec 16) (blk dst : Word64) (n : BitVec 7), s.faulted = false →
    i.wellFormed = true → 1 ≤ n.toNat →
    (i = .idctPut stride blk dst ∨ i = .idctAdd n stride blk dst ∨ i = .idctDcAdd stride blk dst) →
    exec i s = .next t →
    t.freeCount = s.freeCount + 128 ∧
    ∀ a, s.inBlock blk a = true → ∃ k, s.freeCount ≤ k ∧ k < t.freeCount ∧ t.readByte a = Config.freeByte k

/-- On a DC-only block IDCT_DC_ADD and IDCT_ADD with any LAST >= 0 leave the same state, for every installed kernel. The spec
says it of the destination bytes; that the 128 bytes of the block, which it leaves unspecified, agree as well is the model's
numbering of their free values (log entries 4 and 15). -/
def Obligations.DcPathsAgree : Prop :=
  ∀ (s : State) (n : BitVec 7) (stride : BitVec 16) (blk dst : Word64), 8 ≤ stride.toNat → 1 ≤ n.toNat →
    n.toNat ≤ 64 → (∀ k, 1 ≤ k → k < 64 → s.coef blk k = 0) →
    exec (.idctAdd n stride blk dst) s = exec (.idctDcAdd stride blk dst) s
end

