-- ==== Sys2Proof/Laws/State.lean ====
section
/-! SUPPORT. One lemma per field per update of the state, each true by rfl, so that no later proof unfolds a record update. -/

namespace Sys2Proof.Machine

/-! ### writeByte -/

@[simp] theorem State.writeByte_params (s : State) (a : Nat) (b : Byte) : (s.writeByte a b).params = s.params := rfl
@[simp] theorem State.writeByte_buf (s : State) (a : Nat) (b : Byte) : (s.writeByte a b).buf = s.buf := rfl
@[simp] theorem State.writeByte_byteLen (s : State) (a : Nat) (b : Byte) : (s.writeByte a b).byteLen = s.byteLen := rfl
@[simp] theorem State.writeByte_ptrOff (s : State) (a : Nat) (b : Byte) : (s.writeByte a b).ptrOff = s.ptrOff := rfl
@[simp] theorem State.writeByte_cache (s : State) (a : Nat) (b : Byte) : (s.writeByte a b).cache = s.cache := rfl
@[simp] theorem State.writeByte_valid (s : State) (a : Nat) (b : Byte) : (s.writeByte a b).valid = s.valid := rfl
@[simp] theorem State.writeByte_size (s : State) (a : Nat) (b : Byte) : (s.writeByte a b).size = s.size := rfl
@[simp] theorem State.writeByte_cmd (s : State) (a : Nat) (b : Byte) : (s.writeByte a b).cmd = s.cmd := rfl
@[simp] theorem State.writeByte_argA (s : State) (a : Nat) (b : Byte) : (s.writeByte a b).argA = s.argA := rfl
@[simp] theorem State.writeByte_argB (s : State) (a : Nat) (b : Byte) : (s.writeByte a b).argB = s.argB := rfl
@[simp] theorem State.writeByte_res (s : State) (a : Nat) (b : Byte) : (s.writeByte a b).res = s.res := rfl
@[simp] theorem State.writeByte_status (s : State) (a : Nat) (b : Byte) : (s.writeByte a b).status = s.status := rfl
@[simp] theorem State.writeByte_fault (s : State) (a : Nat) (b : Byte) : (s.writeByte a b).fault = s.fault := rfl
@[simp] theorem State.writeByte_mem (s : State) (a : Nat) (b : Byte) :
    (s.writeByte a b).mem = s.mem.write (s.wrapAddr a) b := rfl
@[simp] theorem State.writeByte_inbox (s : State) (a : Nat) (b : Byte) : (s.writeByte a b).inbox = s.inbox := rfl
@[simp] theorem State.writeByte_progIndex (s : State) (a : Nat) (b : Byte) : (s.writeByte a b).progIndex = s.progIndex := rfl
@[simp] theorem State.writeByte_hostData (s : State) (a : Nat) (b : Byte) : (s.writeByte a b).hostData = s.hostData := rfl
@[simp] theorem State.writeByte_freeCount (s : State) (a : Nat) (b : Byte) : (s.writeByte a b).freeCount = s.freeCount := rfl

/-! ### forgetByte -/

@[simp] theorem State.forgetByte_params (s : State) (a : Nat) : (s.forgetByte a).params = s.params := rfl
@[simp] theorem State.forgetByte_buf (s : State) (a : Nat) : (s.forgetByte a).buf = s.buf := rfl
@[simp] theorem State.forgetByte_byteLen (s : State) (a : Nat) : (s.forgetByte a).byteLen = s.byteLen := rfl
@[simp] theorem State.forgetByte_ptrOff (s : State) (a : Nat) : (s.forgetByte a).ptrOff = s.ptrOff := rfl
@[simp] theorem State.forgetByte_cache (s : State) (a : Nat) : (s.forgetByte a).cache = s.cache := rfl
@[simp] theorem State.forgetByte_valid (s : State) (a : Nat) : (s.forgetByte a).valid = s.valid := rfl
@[simp] theorem State.forgetByte_size (s : State) (a : Nat) : (s.forgetByte a).size = s.size := rfl
@[simp] theorem State.forgetByte_cmd (s : State) (a : Nat) : (s.forgetByte a).cmd = s.cmd := rfl
@[simp] theorem State.forgetByte_argA (s : State) (a : Nat) : (s.forgetByte a).argA = s.argA := rfl
@[simp] theorem State.forgetByte_argB (s : State) (a : Nat) : (s.forgetByte a).argB = s.argB := rfl
@[simp] theorem State.forgetByte_res (s : State) (a : Nat) : (s.forgetByte a).res = s.res := rfl
@[simp] theorem State.forgetByte_status (s : State) (a : Nat) : (s.forgetByte a).status = s.status := rfl
@[simp] theorem State.forgetByte_fault (s : State) (a : Nat) : (s.forgetByte a).fault = s.fault := rfl
@[simp] theorem State.forgetByte_mem (s : State) (a : Nat) :
    (s.forgetByte a).mem = s.mem.forget (s.wrapAddr a) s.freeCount := rfl
@[simp] theorem State.forgetByte_inbox (s : State) (a : Nat) : (s.forgetByte a).inbox = s.inbox := rfl
@[simp] theorem State.forgetByte_progIndex (s : State) (a : Nat) : (s.forgetByte a).progIndex = s.progIndex := rfl
@[simp] theorem State.forgetByte_hostData (s : State) (a : Nat) : (s.forgetByte a).hostData = s.hostData := rfl
@[simp] theorem State.forgetByte_freeCount (s : State) (a : Nat) : (s.forgetByte a).freeCount = s.freeCount + 1 := rfl

/-! ### dropBits -/

@[simp] theorem State.dropBits_params (s : State) (n : Nat) : (s.dropBits n).params = s.params := rfl
@[simp] theorem State.dropBits_buf (s : State) (n : Nat) : (s.dropBits n).buf = s.buf := rfl
@[simp] theorem State.dropBits_byteLen (s : State) (n : Nat) : (s.dropBits n).byteLen = s.byteLen := rfl
@[simp] theorem State.dropBits_ptrOff (s : State) (n : Nat) : (s.dropBits n).ptrOff = s.ptrOff := rfl
@[simp] theorem State.dropBits_size (s : State) (n : Nat) : (s.dropBits n).size = s.size := rfl
@[simp] theorem State.dropBits_cmd (s : State) (n : Nat) : (s.dropBits n).cmd = s.cmd := rfl
@[simp] theorem State.dropBits_argA (s : State) (n : Nat) : (s.dropBits n).argA = s.argA := rfl
@[simp] theorem State.dropBits_argB (s : State) (n : Nat) : (s.dropBits n).argB = s.argB := rfl
@[simp] theorem State.dropBits_res (s : State) (n : Nat) : (s.dropBits n).res = s.res := rfl
@[simp] theorem State.dropBits_status (s : State) (n : Nat) : (s.dropBits n).status = s.status := rfl
@[simp] theorem State.dropBits_fault (s : State) (n : Nat) : (s.dropBits n).fault = s.fault := rfl
@[simp] theorem State.dropBits_mem (s : State) (n : Nat) : (s.dropBits n).mem = s.mem := rfl
@[simp] theorem State.dropBits_inbox (s : State) (n : Nat) : (s.dropBits n).inbox = s.inbox := rfl
@[simp] theorem State.dropBits_progIndex (s : State) (n : Nat) : (s.dropBits n).progIndex = s.progIndex := rfl
@[simp] theorem State.dropBits_hostData (s : State) (n : Nat) : (s.dropBits n).hostData = s.hostData := rfl
@[simp] theorem State.dropBits_freeCount (s : State) (n : Nat) : (s.dropBits n).freeCount = s.freeCount := rfl

/-! ### emptyCache -/

@[simp] theorem State.emptyCache_params (s : State) : (s.emptyCache).params = s.params := rfl
@[simp] theorem State.emptyCache_buf (s : State) : (s.emptyCache).buf = s.buf := rfl
@[simp] theorem State.emptyCache_byteLen (s : State) : (s.emptyCache).byteLen = s.byteLen := rfl
@[simp] theorem State.emptyCache_ptrOff (s : State) : (s.emptyCache).ptrOff = s.ptrOff := rfl
@[simp] theorem State.emptyCache_cache (s : State) : (s.emptyCache).cache = 0 := rfl
@[simp] theorem State.emptyCache_valid (s : State) : (s.emptyCache).valid = 0 := rfl
@[simp] theorem State.emptyCache_size (s : State) : (s.emptyCache).size = s.size := rfl
@[simp] theorem State.emptyCache_cmd (s : State) : (s.emptyCache).cmd = s.cmd := rfl
@[simp] theorem State.emptyCache_argA (s : State) : (s.emptyCache).argA = s.argA := rfl
@[simp] theorem State.emptyCache_argB (s : State) : (s.emptyCache).argB = s.argB := rfl
@[simp] theorem State.emptyCache_res (s : State) : (s.emptyCache).res = s.res := rfl
@[simp] theorem State.emptyCache_status (s : State) : (s.emptyCache).status = s.status := rfl
@[simp] theorem State.emptyCache_fault (s : State) : (s.emptyCache).fault = s.fault := rfl
@[simp] theorem State.emptyCache_mem (s : State) : (s.emptyCache).mem = s.mem := rfl
@[simp] theorem State.emptyCache_inbox (s : State) : (s.emptyCache).inbox = s.inbox := rfl
@[simp] theorem State.emptyCache_progIndex (s : State) : (s.emptyCache).progIndex = s.progIndex := rfl
@[simp] theorem State.emptyCache_hostData (s : State) : (s.emptyCache).hostData = s.hostData := rfl
@[simp] theorem State.emptyCache_freeCount (s : State) : (s.emptyCache).freeCount = s.freeCount := rfl

/-! ### complete -/

@[simp] theorem State.complete_params (s : State) (v : Word64) (b : Bool) : (s.complete v b).params = s.params := rfl
@[simp] theorem State.complete_buf (s : State) (v : Word64) (b : Bool) : (s.complete v b).buf = s.buf := rfl
@[simp] theorem State.complete_byteLen (s : State) (v : Word64) (b : Bool) : (s.complete v b).byteLen = s.byteLen := rfl
@[simp] theorem State.complete_ptrOff (s : State) (v : Word64) (b : Bool) : (s.complete v b).ptrOff = s.ptrOff := rfl
@[simp] theorem State.complete_cache (s : State) (v : Word64) (b : Bool) : (s.complete v b).cache = s.cache := rfl
@[simp] theorem State.complete_valid (s : State) (v : Word64) (b : Bool) : (s.complete v b).valid = s.valid := rfl
@[simp] theorem State.complete_size (s : State) (v : Word64) (b : Bool) : (s.complete v b).size = s.size := rfl
@[simp] theorem State.complete_cmd (s : State) (v : Word64) (b : Bool) : (s.complete v b).cmd = s.cmd := rfl
@[simp] theorem State.complete_argA (s : State) (v : Word64) (b : Bool) : (s.complete v b).argA = s.argA := rfl
@[simp] theorem State.complete_argB (s : State) (v : Word64) (b : Bool) : (s.complete v b).argB = s.argB := rfl
@[simp] theorem State.complete_res (s : State) (v : Word64) (b : Bool) : (s.complete v b).res = v := rfl
@[simp] theorem State.complete_status (s : State) (v : Word64) (b : Bool) :
    (s.complete v b).status = if b then statusInvalidData else statusOk := rfl
@[simp] theorem State.complete_fault (s : State) (v : Word64) (b : Bool) : (s.complete v b).fault = s.fault := rfl
@[simp] theorem State.complete_mem (s : State) (v : Word64) (b : Bool) : (s.complete v b).mem = s.mem := rfl
@[simp] theorem State.complete_inbox (s : State) (v : Word64) (b : Bool) : (s.complete v b).inbox = s.inbox := rfl
@[simp] theorem State.complete_progIndex (s : State) (v : Word64) (b : Bool) :
    (s.complete v b).progIndex = s.progIndex := rfl
@[simp] theorem State.complete_hostData (s : State) (v : Word64) (b : Bool) : (s.complete v b).hostData = s.hostData := rfl
@[simp] theorem State.complete_freeCount (s : State) (v : Word64) (b : Bool) :
    (s.complete v b).freeCount = s.freeCount := rfl

/-! ### takeFault -/

@[simp] theorem State.takeFault_params (s : State) (op : BitVec 6) (c : Cause) : (s.takeFault op c).params = s.params := rfl
@[simp] theorem State.takeFault_buf (s : State) (op : BitVec 6) (c : Cause) : (s.takeFault op c).buf = s.buf := rfl
@[simp] theorem State.takeFault_byteLen (s : State) (op : BitVec 6) (c : Cause) :
    (s.takeFault op c).byteLen = s.byteLen := rfl
@[simp] theorem State.takeFault_ptrOff (s : State) (op : BitVec 6) (c : Cause) : (s.takeFault op c).ptrOff = s.ptrOff := rfl
@[simp] theorem State.takeFault_cache (s : State) (op : BitVec 6) (c : Cause) : (s.takeFault op c).cache = s.cache := rfl
@[simp] theorem State.takeFault_valid (s : State) (op : BitVec 6) (c : Cause) : (s.takeFault op c).valid = s.valid := rfl
@[simp] theorem State.takeFault_size (s : State) (op : BitVec 6) (c : Cause) : (s.takeFault op c).size = s.size := rfl
@[simp] theorem State.takeFault_cmd (s : State) (op : BitVec 6) (c : Cause) : (s.takeFault op c).cmd = s.cmd := rfl
@[simp] theorem State.takeFault_argA (s : State) (op : BitVec 6) (c : Cause) : (s.takeFault op c).argA = s.argA := rfl
@[simp] theorem State.takeFault_argB (s : State) (op : BitVec 6) (c : Cause) : (s.takeFault op c).argB = s.argB := rfl
@[simp] theorem State.takeFault_res (s : State) (op : BitVec 6) (c : Cause) : (s.takeFault op c).res = s.res := rfl
@[simp] theorem State.takeFault_status (s : State) (op : BitVec 6) (c : Cause) :
    (s.takeFault op c).status = statusFaulted := rfl
@[simp] theorem State.takeFault_fault (s : State) (op : BitVec 6) (c : Cause) :
    (s.takeFault op c).fault = faultWord op c := rfl
@[simp] theorem State.takeFault_mem (s : State) (op : BitVec 6) (c : Cause) : (s.takeFault op c).mem = s.mem := rfl
@[simp] theorem State.takeFault_inbox (s : State) (op : BitVec 6) (c : Cause) : (s.takeFault op c).inbox = s.inbox := rfl
@[simp] theorem State.takeFault_progIndex (s : State) (op : BitVec 6) (c : Cause) :
    (s.takeFault op c).progIndex = s.progIndex := rfl
@[simp] theorem State.takeFault_hostData (s : State) (op : BitVec 6) (c : Cause) :
    (s.takeFault op c).hostData = s.hostData := rfl
@[simp] theorem State.takeFault_freeCount (s : State) (op : BitVec 6) (c : Cause) :
    (s.takeFault op c).freeCount = s.freeCount := rfl

/-! ### refuseFaulted -/

@[simp] theorem State.refuseFaulted_params (s : State) : (s.refuseFaulted).params = s.params := rfl
@[simp] theorem State.refuseFaulted_buf (s : State) : (s.refuseFaulted).buf = s.buf := rfl
@[simp] theorem State.refuseFaulted_byteLen (s : State) : (s.refuseFaulted).byteLen = s.byteLen := rfl
@[simp] theorem State.refuseFaulted_ptrOff (s : State) : (s.refuseFaulted).ptrOff = s.ptrOff := rfl
@[simp] theorem State.refuseFaulted_cache (s : State) : (s.refuseFaulted).cache = s.cache := rfl
@[simp] theorem State.refuseFaulted_valid (s : State) : (s.refuseFaulted).valid = s.valid := rfl
@[simp] theorem State.refuseFaulted_size (s : State) : (s.refuseFaulted).size = s.size := rfl
@[simp] theorem State.refuseFaulted_cmd (s : State) : (s.refuseFaulted).cmd = s.cmd := rfl
@[simp] theorem State.refuseFaulted_argA (s : State) : (s.refuseFaulted).argA = s.argA := rfl
@[simp] theorem State.refuseFaulted_argB (s : State) : (s.refuseFaulted).argB = s.argB := rfl
@[simp] theorem State.refuseFaulted_res (s : State) : (s.refuseFaulted).res = s.res := rfl
@[simp] theorem State.refuseFaulted_status (s : State) : (s.refuseFaulted).status = statusFaulted := rfl
@[simp] theorem State.refuseFaulted_fault (s : State) : (s.refuseFaulted).fault = s.fault := rfl
@[simp] theorem State.refuseFaulted_mem (s : State) : (s.refuseFaulted).mem = s.mem := rfl
@[simp] theorem State.refuseFaulted_inbox (s : State) : (s.refuseFaulted).inbox = s.inbox := rfl
@[simp] theorem State.refuseFaulted_progIndex (s : State) : (s.refuseFaulted).progIndex = s.progIndex := rfl
@[simp] theorem State.refuseFaulted_hostData (s : State) : (s.refuseFaulted).hostData = s.hostData := rfl
@[simp] theorem State.refuseFaulted_freeCount (s : State) : (s.refuseFaulted).freeCount = s.freeCount := rfl

/-! ### assertReset -/

@[simp] theorem State.assertReset_params (s : State) : (s.assertReset).params = s.params := rfl
@[simp] theorem State.assertReset_buf (s : State) : (s.assertReset).buf = 0 := rfl
@[simp] theorem State.assertReset_byteLen (s : State) : (s.assertReset).byteLen = 0 := rfl
@[simp] theorem State.assertReset_ptrOff (s : State) : (s.assertReset).ptrOff = 0 := rfl
@[simp] theorem State.assertReset_cache (s : State) : (s.assertReset).cache = 0 := rfl
@[simp] theorem State.assertReset_valid (s : State) : (s.assertReset).valid = 0 := rfl
@[simp] theorem State.assertReset_size (s : State) : (s.assertReset).size = 0 := rfl
@[simp] theorem State.assertReset_cmd (s : State) : (s.assertReset).cmd = 0 := rfl
@[simp] theorem State.assertReset_argA (s : State) : (s.assertReset).argA = 0 := rfl
@[simp] theorem State.assertReset_argB (s : State) : (s.assertReset).argB = 0 := rfl
@[simp] theorem State.assertReset_res (s : State) : (s.assertReset).res = 0 := rfl
@[simp] theorem State.assertReset_status (s : State) : (s.assertReset).status = 0 := rfl
@[simp] theorem State.assertReset_fault (s : State) : (s.assertReset).fault = 0 := rfl
@[simp] theorem State.assertReset_mem (s : State) : (s.assertReset).mem = s.mem := rfl
@[simp] theorem State.assertReset_inbox (s : State) : (s.assertReset).inbox = s.inbox := rfl
@[simp] theorem State.assertReset_progIndex (s : State) : (s.assertReset).progIndex = s.progIndex := rfl
@[simp] theorem State.assertReset_hostData (s : State) : (s.assertReset).hostData = s.hostData := rfl
@[simp] theorem State.assertReset_freeCount (s : State) : (s.assertReset).freeCount = s.freeCount := rfl

/-! ### popInput -/

@[simp] theorem State.popInput_params (s : State) : (s.popInput).params = s.params := rfl
@[simp] theorem State.popInput_buf (s : State) : (s.popInput).buf = s.buf := rfl
@[simp] theorem State.popInput_byteLen (s : State) : (s.popInput).byteLen = s.byteLen := rfl
@[simp] theorem State.popInput_ptrOff (s : State) : (s.popInput).ptrOff = s.ptrOff := rfl
@[simp] theorem State.popInput_cache (s : State) : (s.popInput).cache = s.cache := rfl
@[simp] theorem State.popInput_valid (s : State) : (s.popInput).valid = s.valid := rfl
@[simp] theorem State.popInput_size (s : State) : (s.popInput).size = s.size := rfl
@[simp] theorem State.popInput_cmd (s : State) : (s.popInput).cmd = s.cmd := rfl
@[simp] theorem State.popInput_argA (s : State) : (s.popInput).argA = s.argA := rfl
@[simp] theorem State.popInput_argB (s : State) : (s.popInput).argB = s.argB := rfl
@[simp] theorem State.popInput_res (s : State) : (s.popInput).res = s.res := rfl
@[simp] theorem State.popInput_status (s : State) : (s.popInput).status = s.status := rfl
@[simp] theorem State.popInput_fault (s : State) : (s.popInput).fault = s.fault := rfl
@[simp] theorem State.popInput_mem (s : State) : (s.popInput).mem = s.mem := rfl
@[simp] theorem State.popInput_inbox (s : State) : (s.popInput).inbox = s.inbox.tail := rfl
@[simp] theorem State.popInput_progIndex (s : State) : (s.popInput).progIndex = s.progIndex := rfl
@[simp] theorem State.popInput_hostData (s : State) : (s.popInput).hostData = s.hostData := rfl
@[simp] theorem State.popInput_freeCount (s : State) : (s.popInput).freeCount = s.freeCount := rfl

/-! ### latchPacket -/

@[simp] theorem State.latchPacket_params (s : State) (p : Packet) : (s.latchPacket p).params = s.params := rfl
@[simp] theorem State.latchPacket_buf (s : State) (p : Packet) : (s.latchPacket p).buf = s.buf := rfl
@[simp] theorem State.latchPacket_byteLen (s : State) (p : Packet) : (s.latchPacket p).byteLen = s.byteLen := rfl
@[simp] theorem State.latchPacket_ptrOff (s : State) (p : Packet) : (s.latchPacket p).ptrOff = s.ptrOff := rfl
@[simp] theorem State.latchPacket_cache (s : State) (p : Packet) : (s.latchPacket p).cache = s.cache := rfl
@[simp] theorem State.latchPacket_valid (s : State) (p : Packet) : (s.latchPacket p).valid = s.valid := rfl
@[simp] theorem State.latchPacket_size (s : State) (p : Packet) : (s.latchPacket p).size = s.size := rfl
@[simp] theorem State.latchPacket_cmd (s : State) (p : Packet) : (s.latchPacket p).cmd = p.cmd := rfl
@[simp] theorem State.latchPacket_argA (s : State) (p : Packet) : (s.latchPacket p).argA = p.argA := rfl
@[simp] theorem State.latchPacket_argB (s : State) (p : Packet) : (s.latchPacket p).argB = p.argB := rfl
@[simp] theorem State.latchPacket_res (s : State) (p : Packet) : (s.latchPacket p).res = s.res := rfl
@[simp] theorem State.latchPacket_status (s : State) (p : Packet) : (s.latchPacket p).status = s.status := rfl
@[simp] theorem State.latchPacket_fault (s : State) (p : Packet) : (s.latchPacket p).fault = s.fault := rfl
@[simp] theorem State.latchPacket_mem (s : State) (p : Packet) : (s.latchPacket p).mem = s.mem := rfl
@[simp] theorem State.latchPacket_inbox (s : State) (p : Packet) : (s.latchPacket p).inbox = s.inbox := rfl
@[simp] theorem State.latchPacket_progIndex (s : State) (p : Packet) : (s.latchPacket p).progIndex = s.progIndex + 1 := rfl
@[simp] theorem State.latchPacket_hostData (s : State) (p : Packet) : (s.latchPacket p).hostData = s.hostData := rfl
@[simp] theorem State.latchPacket_freeCount (s : State) (p : Packet) : (s.latchPacket p).freeCount = s.freeCount := rfl

/-! ### countPacket -/

@[simp] theorem State.countPacket_params (s : State) : (s.countPacket).params = s.params := rfl
@[simp] theorem State.countPacket_buf (s : State) : (s.countPacket).buf = s.buf := rfl
@[simp] theorem State.countPacket_byteLen (s : State) : (s.countPacket).byteLen = s.byteLen := rfl
@[simp] theorem State.countPacket_ptrOff (s : State) : (s.countPacket).ptrOff = s.ptrOff := rfl
@[simp] theorem State.countPacket_cache (s : State) : (s.countPacket).cache = s.cache := rfl
@[simp] theorem State.countPacket_valid (s : State) : (s.countPacket).valid = s.valid := rfl
@[simp] theorem State.countPacket_size (s : State) : (s.countPacket).size = s.size := rfl
@[simp] theorem State.countPacket_cmd (s : State) : (s.countPacket).cmd = s.cmd := rfl
@[simp] theorem State.countPacket_argA (s : State) : (s.countPacket).argA = s.argA := rfl
@[simp] theorem State.countPacket_argB (s : State) : (s.countPacket).argB = s.argB := rfl
@[simp] theorem State.countPacket_res (s : State) : (s.countPacket).res = s.res := rfl
@[simp] theorem State.countPacket_status (s : State) : (s.countPacket).status = s.status := rfl
@[simp] theorem State.countPacket_fault (s : State) : (s.countPacket).fault = s.fault := rfl
@[simp] theorem State.countPacket_mem (s : State) : (s.countPacket).mem = s.mem := rfl
@[simp] theorem State.countPacket_inbox (s : State) : (s.countPacket).inbox = s.inbox := rfl
@[simp] theorem State.countPacket_progIndex (s : State) : (s.countPacket).progIndex = s.progIndex + 1 := rfl
@[simp] theorem State.countPacket_hostData (s : State) : (s.countPacket).hostData = s.hostData := rfl
@[simp] theorem State.countPacket_freeCount (s : State) : (s.countPacket).freeCount = s.freeCount := rfl

/-! ### answerHost -/

@[simp] theorem State.answerHost_params (s : State) (v : Word64) : (s.answerHost v).params = s.params := rfl
@[simp] theorem State.answerHost_buf (s : State) (v : Word64) : (s.answerHost v).buf = s.buf := rfl
@[simp] theorem State.answerHost_byteLen (s : State) (v : Word64) : (s.answerHost v).byteLen = s.byteLen := rfl
@[simp] theorem State.answerHost_ptrOff (s : State) (v : Word64) : (s.answerHost v).ptrOff = s.ptrOff := rfl
@[simp] theorem State.answerHost_cache (s : State) (v : Word64) : (s.answerHost v).cache = s.cache := rfl
@[simp] theorem State.answerHost_valid (s : State) (v : Word64) : (s.answerHost v).valid = s.valid := rfl
@[simp] theorem State.answerHost_size (s : State) (v : Word64) : (s.answerHost v).size = s.size := rfl
@[simp] theorem State.answerHost_cmd (s : State) (v : Word64) : (s.answerHost v).cmd = s.cmd := rfl
@[simp] theorem State.answerHost_argA (s : State) (v : Word64) : (s.answerHost v).argA = s.argA := rfl
@[simp] theorem State.answerHost_argB (s : State) (v : Word64) : (s.answerHost v).argB = s.argB := rfl
@[simp] theorem State.answerHost_res (s : State) (v : Word64) : (s.answerHost v).res = s.res := rfl
@[simp] theorem State.answerHost_status (s : State) (v : Word64) : (s.answerHost v).status = s.status := rfl
@[simp] theorem State.answerHost_fault (s : State) (v : Word64) : (s.answerHost v).fault = s.fault := rfl
@[simp] theorem State.answerHost_mem (s : State) (v : Word64) : (s.answerHost v).mem = s.mem := rfl
@[simp] theorem State.answerHost_inbox (s : State) (v : Word64) : (s.answerHost v).inbox = s.inbox := rfl
@[simp] theorem State.answerHost_progIndex (s : State) (v : Word64) : (s.answerHost v).progIndex = s.progIndex := rfl
@[simp] theorem State.answerHost_hostData (s : State) (v : Word64) : (s.answerHost v).hostData = v := rfl
@[simp] theorem State.answerHost_freeCount (s : State) (v : Word64) : (s.answerHost v).freeCount = s.freeCount := rfl

/-! ### inertReader -/

@[simp] theorem State.inertReader_params (s : State) : (s.inertReader).params = s.params := rfl
@[simp] theorem State.inertReader_buf (s : State) : (s.inertReader).buf = 0 := rfl
@[simp] theorem State.inertReader_byteLen (s : State) : (s.inertReader).byteLen = 0 := rfl
@[simp] theorem State.inertReader_ptrOff (s : State) : (s.inertReader).ptrOff = 0 := rfl
@[simp] theorem State.inertReader_cache (s : State) : (s.inertReader).cache = 0 := rfl
@[simp] theorem State.inertReader_valid (s : State) : (s.inertReader).valid = 0 := rfl
@[simp] theorem State.inertReader_size (s : State) : (s.inertReader).size = 0 := rfl
@[simp] theorem State.inertReader_cmd (s : State) : (s.inertReader).cmd = s.cmd := rfl
@[simp] theorem State.inertReader_argA (s : State) : (s.inertReader).argA = s.argA := rfl
@[simp] theorem State.inertReader_argB (s : State) : (s.inertReader).argB = s.argB := rfl
@[simp] theorem State.inertReader_res (s : State) : (s.inertReader).res = s.res := rfl
@[simp] theorem State.inertReader_status (s : State) : (s.inertReader).status = s.status := rfl
@[simp] theorem State.inertReader_fault (s : State) : (s.inertReader).fault = s.fault := rfl
@[simp] theorem State.inertReader_mem (s : State) : (s.inertReader).mem = s.mem := rfl
@[simp] theorem State.inertReader_inbox (s : State) : (s.inertReader).inbox = s.inbox := rfl
@[simp] theorem State.inertReader_progIndex (s : State) : (s.inertReader).progIndex = s.progIndex := rfl
@[simp] theorem State.inertReader_hostData (s : State) : (s.inertReader).hostData = s.hostData := rfl
@[simp] theorem State.inertReader_freeCount (s : State) : (s.inertReader).freeCount = s.freeCount := rfl

/-! ### openReader -/

@[simp] theorem State.openReader_params (s : State) (b : Word64) (n : Nat) : (s.openReader b n).params = s.params := rfl
@[simp] theorem State.openReader_buf (s : State) (b : Word64) (n : Nat) : (s.openReader b n).buf = b := rfl
@[simp] theorem State.openReader_byteLen (s : State) (b : Word64) (n : Nat) :
    (s.openReader b n).byteLen = BitVec.ofNat 32 ((n + 7) / 8) := rfl
@[simp] theorem State.openReader_ptrOff (s : State) (b : Word64) (n : Nat) : (s.openReader b n).ptrOff = 0 := rfl
@[simp] theorem State.openReader_cache (s : State) (b : Word64) (n : Nat) : (s.openReader b n).cache = 0 := rfl
@[simp] theorem State.openReader_valid (s : State) (b : Word64) (n : Nat) : (s.openReader b n).valid = 0 := rfl
@[simp] theorem State.openReader_size (s : State) (b : Word64) (n : Nat) : (s.openReader b n).size = BitVec.ofNat 32 n := rfl
@[simp] theorem State.openReader_cmd (s : State) (b : Word64) (n : Nat) : (s.openReader b n).cmd = s.cmd := rfl
@[simp] theorem State.openReader_argA (s : State) (b : Word64) (n : Nat) : (s.openReader b n).argA = s.argA := rfl
@[simp] theorem State.openReader_argB (s : State) (b : Word64) (n : Nat) : (s.openReader b n).argB = s.argB := rfl
@[simp] theorem State.openReader_res (s : State) (b : Word64) (n : Nat) : (s.openReader b n).res = s.res := rfl
@[simp] theorem State.openReader_status (s : State) (b : Word64) (n : Nat) : (s.openReader b n).status = s.status := rfl
@[simp] theorem State.openReader_fault (s : State) (b : Word64) (n : Nat) : (s.openReader b n).fault = s.fault := rfl
@[simp] theorem State.openReader_mem (s : State) (b : Word64) (n : Nat) : (s.openReader b n).mem = s.mem := rfl
@[simp] theorem State.openReader_inbox (s : State) (b : Word64) (n : Nat) : (s.openReader b n).inbox = s.inbox := rfl
@[simp] theorem State.openReader_progIndex (s : State) (b : Word64) (n : Nat) :
    (s.openReader b n).progIndex = s.progIndex := rfl
@[simp] theorem State.openReader_hostData (s : State) (b : Word64) (n : Nat) :
    (s.openReader b n).hostData = s.hostData := rfl
@[simp] theorem State.openReader_freeCount (s : State) (b : Word64) (n : Nat) :
    (s.openReader b n).freeCount = s.freeCount := rfl

@[simp] theorem State.dropBits_valid (s : State) (n : Nat) :
    (s.dropBits n).valid = if n ≤ s.valid.toNat then BitVec.ofNat 7 (s.valid.toNat - n) else 0 := rfl

theorem State.dropBits_cache_le (s : State) (n : Nat) (h : s.params.endian = .le) :
    (s.dropBits n).cache = s.cache >>> n := by
  simp [State.dropBits, h]

theorem State.dropBits_cache_be (s : State) (n : Nat) (h : s.params.endian = .be) :
    (s.dropBits n).cache = s.cache <<< n := by
  simp [State.dropBits, h]

/-! ### Views that an update leaves alone -/

@[simp] theorem State.writeByte_tell (s : State) (a : Nat) (b : Byte) : (s.writeByte a b).tell = s.tell := rfl
@[simp] theorem State.writeByte_left (s : State) (a : Nat) (b : Byte) : (s.writeByte a b).left = s.left := rfl
@[simp] theorem State.writeByte_faulted (s : State) (a : Nat) (b : Byte) : (s.writeByte a b).faulted = s.faulted := rfl
@[simp] theorem State.writeByte_wrapAddr (s : State) (a : Nat) (b : Byte) (x : Nat) :
    (s.writeByte a b).wrapAddr x = s.wrapAddr x := rfl
@[simp] theorem State.forgetByte_tell (s : State) (a : Nat) : (s.forgetByte a).tell = s.tell := rfl
@[simp] theorem State.forgetByte_left (s : State) (a : Nat) : (s.forgetByte a).left = s.left := rfl
@[simp] theorem State.forgetByte_faulted (s : State) (a : Nat) : (s.forgetByte a).faulted = s.faulted := rfl
@[simp] theorem State.forgetByte_wrapAddr (s : State) (a : Nat) (x : Nat) : (s.forgetByte a).wrapAddr x = s.wrapAddr x := rfl
@[simp] theorem State.dropBits_faulted (s : State) (n : Nat) : (s.dropBits n).faulted = s.faulted := rfl
@[simp] theorem State.dropBits_readByte (s : State) (n : Nat) (x : Nat) : (s.dropBits n).readByte x = s.readByte x := rfl
@[simp] theorem State.dropBits_streamBit (s : State) (n : Nat) (k : Nat) : (s.dropBits n).streamBit k = s.streamBit k := rfl
@[simp] theorem State.dropBits_wrapAddr (s : State) (n : Nat) (x : Nat) : (s.dropBits n).wrapAddr x = s.wrapAddr x := rfl
@[simp] theorem State.emptyCache_faulted (s : State) : (s.emptyCache).faulted = s.faulted := rfl
@[simp] theorem State.emptyCache_readByte (s : State) (x : Nat) : (s.emptyCache).readByte x = s.readByte x := rfl
@[simp] theorem State.emptyCache_streamBit (s : State) (k : Nat) : (s.emptyCache).streamBit k = s.streamBit k := rfl
@[simp] theorem State.emptyCache_wrapAddr (s : State) (x : Nat) : (s.emptyCache).wrapAddr x = s.wrapAddr x := rfl
@[simp] theorem State.complete_tell (s : State) (v : Word64) (b : Bool) : (s.complete v b).tell = s.tell := rfl
@[simp] theorem State.complete_left (s : State) (v : Word64) (b : Bool) : (s.complete v b).left = s.left := rfl
@[simp] theorem State.complete_faulted (s : State) (v : Word64) (b : Bool) : (s.complete v b).faulted = s.faulted := rfl
@[simp] theorem State.complete_readByte (s : State) (v : Word64) (b : Bool) (x : Nat) :
    (s.complete v b).readByte x = s.readByte x := rfl
@[simp] theorem State.complete_streamBit (s : State) (v : Word64) (b : Bool) (k : Nat) :
    (s.complete v b).streamBit k = s.streamBit k := rfl
@[simp] theorem State.complete_wrapAddr (s : State) (v : Word64) (b : Bool) (x : Nat) :
    (s.complete v b).wrapAddr x = s.wrapAddr x := rfl
@[simp] theorem State.takeFault_tell (s : State) (op : BitVec 6) (c : Cause) : (s.takeFault op c).tell = s.tell := rfl
@[simp] theorem State.takeFault_left (s : State) (op : BitVec 6) (c : Cause) : (s.takeFault op c).left = s.left := rfl
@[simp] theorem State.takeFault_readByte (s : State) (op : BitVec 6) (c : Cause) (x : Nat) :
    (s.takeFault op c).readByte x = s.readByte x := rfl
@[simp] theorem State.takeFault_streamBit (s : State) (op : BitVec 6) (c : Cause) (k : Nat) :
    (s.takeFault op c).streamBit k = s.streamBit k := rfl
@[simp] theorem State.takeFault_wrapAddr (s : State) (op : BitVec 6) (c : Cause) (x : Nat) :
    (s.takeFault op c).wrapAddr x = s.wrapAddr x := rfl
@[simp] theorem State.refuseFaulted_tell (s : State) : (s.refuseFaulted).tell = s.tell := rfl
@[simp] theorem State.refuseFaulted_left (s : State) : (s.refuseFaulted).left = s.left := rfl
@[simp] theorem State.refuseFaulted_faulted (s : State) : (s.refuseFaulted).faulted = s.faulted := rfl
@[simp] theorem State.refuseFaulted_readByte (s : State) (x : Nat) : (s.refuseFaulted).readByte x = s.readByte x := rfl
@[simp] theorem State.refuseFaulted_streamBit (s : State) (k : Nat) : (s.refuseFaulted).streamBit k = s.streamBit k := rfl
@[simp] theorem State.refuseFaulted_wrapAddr (s : State) (x : Nat) : (s.refuseFaulted).wrapAddr x = s.wrapAddr x := rfl
@[simp] theorem State.assertReset_readByte (s : State) (x : Nat) : (s.assertReset).readByte x = s.readByte x := rfl
@[simp] theorem State.assertReset_wrapAddr (s : State) (x : Nat) : (s.assertReset).wrapAddr x = s.wrapAddr x := rfl
@[simp] theorem State.popInput_tell (s : State) : (s.popInput).tell = s.tell := rfl
@[simp] theorem State.popInput_left (s : State) : (s.popInput).left = s.left := rfl
@[simp] theorem State.popInput_faulted (s : State) : (s.popInput).faulted = s.faulted := rfl
@[simp] theorem State.popInput_readByte (s : State) (x : Nat) : (s.popInput).readByte x = s.readByte x := rfl
@[simp] theorem State.popInput_streamBit (s : State) (k : Nat) : (s.popInput).streamBit k = s.streamBit k := rfl
@[simp] theorem State.popInput_wrapAddr (s : State) (x : Nat) : (s.popInput).wrapAddr x = s.wrapAddr x := rfl
@[simp] theorem State.latchPacket_tell (s : State) (p : Packet) : (s.latchPacket p).tell = s.tell := rfl
@[simp] theorem State.latchPacket_left (s : State) (p : Packet) : (s.latchPacket p).left = s.left := rfl
@[simp] theorem State.latchPacket_faulted (s : State) (p : Packet) : (s.latchPacket p).faulted = s.faulted := rfl
@[simp] theorem State.latchPacket_readByte (s : State) (p : Packet) (x : Nat) :
    (s.latchPacket p).readByte x = s.readByte x := rfl
@[simp] theorem State.latchPacket_streamBit (s : State) (p : Packet) (k : Nat) :
    (s.latchPacket p).streamBit k = s.streamBit k := rfl
@[simp] theorem State.latchPacket_wrapAddr (s : State) (p : Packet) (x : Nat) :
    (s.latchPacket p).wrapAddr x = s.wrapAddr x := rfl
@[simp] theorem State.countPacket_tell (s : State) : (s.countPacket).tell = s.tell := rfl
@[simp] theorem State.countPacket_left (s : State) : (s.countPacket).left = s.left := rfl
@[simp] theorem State.countPacket_faulted (s : State) : (s.countPacket).faulted = s.faulted := rfl
@[simp] theorem State.countPacket_readByte (s : State) (x : Nat) : (s.countPacket).readByte x = s.readByte x := rfl
@[simp] theorem State.countPacket_streamBit (s : State) (k : Nat) : (s.countPacket).streamBit k = s.streamBit k := rfl
@[simp] theorem State.countPacket_wrapAddr (s : State) (x : Nat) : (s.countPacket).wrapAddr x = s.wrapAddr x := rfl
@[simp] theorem State.answerHost_tell (s : State) (v : Word64) : (s.answerHost v).tell = s.tell := rfl
@[simp] theorem State.answerHost_left (s : State) (v : Word64) : (s.answerHost v).left = s.left := rfl
@[simp] theorem State.answerHost_faulted (s : State) (v : Word64) : (s.answerHost v).faulted = s.faulted := rfl
@[simp] theorem State.answerHost_readByte (s : State) (v : Word64) (x : Nat) :
    (s.answerHost v).readByte x = s.readByte x := rfl
@[simp] theorem State.answerHost_streamBit (s : State) (v : Word64) (k : Nat) :
    (s.answerHost v).streamBit k = s.streamBit k := rfl
@[simp] theorem State.answerHost_wrapAddr (s : State) (v : Word64) (x : Nat) :
    (s.answerHost v).wrapAddr x = s.wrapAddr x := rfl
@[simp] theorem State.inertReader_faulted (s : State) : (s.inertReader).faulted = s.faulted := rfl
@[simp] theorem State.inertReader_readByte (s : State) (x : Nat) : (s.inertReader).readByte x = s.readByte x := rfl
@[simp] theorem State.inertReader_wrapAddr (s : State) (x : Nat) : (s.inertReader).wrapAddr x = s.wrapAddr x := rfl
@[simp] theorem State.openReader_faulted (s : State) (b : Word64) (n : Nat) : (s.openReader b n).faulted = s.faulted := rfl
@[simp] theorem State.openReader_readByte (s : State) (b : Word64) (n : Nat) (x : Nat) :
    (s.openReader b n).readByte x = s.readByte x := rfl
@[simp] theorem State.openReader_wrapAddr (s : State) (b : Word64) (n : Nat) (x : Nat) :
    (s.openReader b n).wrapAddr x = s.wrapAddr x := rfl

end Sys2Proof.Machine
end

