-- ==== Sys2Proof/Laws/Memory.lean ====
section
/-! SUPPORT. The laws of the memory: a read after a write, a write elsewhere, a byte that becomes unspecified, and the canonical
form that every memory operation keeps. -/

namespace Sys2Proof.Machine

/-! ### Sparse lists -/

theorem lookupAt_eraseAt {α : Type} (l : List (Nat × α)) (a b : Nat) :
    lookupAt (eraseAt l a) b = if b = a then none else lookupAt l b := by
  induction l with
  | nil => simp [eraseAt, lookupAt]
  | cons e rest ih =>
    by_cases h : e.1 = a
    · rw [eraseAt, if_pos h, ih, lookupAt]
      by_cases hb : b = a
      · simp [hb]
      · simp [hb, show ¬ e.1 = b from fun h' => hb (h' ▸ h)]
    · rw [eraseAt, if_neg h, lookupAt, lookupAt, ih]
      by_cases hb : e.1 = b
      · simp [hb, show ¬ b = a from fun h' => h (hb.trans h')]
      · simp [hb]

theorem lookupAt_insertAt {α : Type} (l : List (Nat × α)) (a b : Nat) (v : α) :
    lookupAt (insertAt l a v) b = if b = a then some v else lookupAt l b := by
  induction l with
  | nil => simp [insertAt, lookupAt, eq_comm]
  | cons e rest ih =>
    rw [insertAt]
    split
    · simp [lookupAt, eq_comm]
    · split
      · rename_i h
        simp only [lookupAt, h]
        by_cases hb : b = a
        · simp [hb]
        · simp [hb, Ne.symm hb]
      · rename_i h
        rw [lookupAt, lookupAt, ih]
        by_cases hb : e.1 = b
        · simp [hb, show ¬ b = a from fun h' => h (hb.trans h')]
        · simp [hb]

theorem mem_eraseAt {α : Type} {l : List (Nat × α)} {a : Nat} {e : Nat × α} :
    e ∈ eraseAt l a ↔ e ∈ l ∧ e.1 ≠ a := by
  induction l with
  | nil => simp [eraseAt]
  | cons f rest ih =>
    rw [eraseAt]
    split
    · rename_i h
      rw [ih, List.mem_cons]
      constructor
      · exact fun ⟨h1, h2⟩ => ⟨.inr h1, h2⟩
      · rintro ⟨rfl | h1, h2⟩
        · exact absurd h h2
        · exact ⟨h1, h2⟩
    · rename_i h
      rw [List.mem_cons, List.mem_cons, ih]
      constructor
      · rintro (rfl | ⟨h1, h2⟩)
        · exact ⟨.inl rfl, h⟩
        · exact ⟨.inr h1, h2⟩
      · rintro ⟨rfl | h1, h2⟩
        · exact .inl rfl
        · exact .inr ⟨h1, h2⟩

theorem mem_insertAt {α : Type} {l : List (Nat × α)} {a : Nat} {v : α} {e : Nat × α}
    (h : e ∈ insertAt l a v) : e = (a, v) ∨ e ∈ l := by
  induction l with
  | nil => simpa [insertAt] using h
  | cons f rest ih =>
    rw [insertAt] at h
    split at h
    · simpa using h
    · split at h
      · rcases List.mem_cons.mp h with h | h
        · exact .inl h
        · exact .inr (List.mem_cons_of_mem _ h)
      · rcases List.mem_cons.mp h with h | h
        · exact .inr (h ▸ List.mem_cons_self)
        · exact (ih h).imp id (List.mem_cons_of_mem _)

theorem keysRise_cons {α : Type} (e : Nat × α) (rest : List (Nat × α)) :
    keysRise (e :: rest) = true ↔ (∀ f ∈ rest, e.1 < f.1) ∧ keysRise rest = true := by
  simp [keysRise]

theorem keysRise_eraseAt {α : Type} {l : List (Nat × α)} (a : Nat) (h : keysRise l = true) :
    keysRise (eraseAt l a) = true := by
  induction l with
  | nil => rfl
  | cons e rest ih =>
    obtain ⟨h1, h2⟩ := (keysRise_cons e rest).mp h
    rw [eraseAt]
    split
    · exact ih h2
    · exact (keysRise_cons _ _).mpr ⟨fun f hf => h1 f (mem_eraseAt.mp hf).1, ih h2⟩

theorem keysRise_insertAt {α : Type} {l : List (Nat × α)} (a : Nat) (v : α) (h : keysRise l = true) :
    keysRise (insertAt l a v) = true := by
  induction l with
  | nil => rfl
  | cons e rest ih =>
    obtain ⟨h1, h2⟩ := (keysRise_cons e rest).mp h
    rw [insertAt]
    split
    · rename_i ha
      refine (keysRise_cons _ _).mpr ⟨fun f hf => ?_, h⟩
      rcases List.mem_cons.mp hf with rfl | hf
      · exact ha
      · exact lt_trans ha (h1 f hf)
    · split
      · rename_i hne he
        exact (keysRise_cons _ _).mpr ⟨fun f hf => he ▸ h1 f hf, h2⟩
      · rename_i hlt hne
        refine (keysRise_cons _ _).mpr ⟨fun f hf => ?_, ih h2⟩
        rcases mem_insertAt hf with rfl | hf
        · show e.1 < a
          omega
        · exact h1 f hf

/-! ### Reads -/

theorem Memory.read_write (m : Memory) (a x : Nat) (b : Byte) :
    (m.write a b).read x = if x = a then b else m.read x := by
  unfold Memory.read Memory.write
  simp only [lookupAt_eraseAt]
  by_cases hx : x = a
  · subst hx
    simp only [if_pos]
    by_cases hb : b = unwrittenByte
    · simp [hb, lookupAt_eraseAt]
    · simp [hb, lookupAt_insertAt]
  · simp only [if_neg hx]
    cases lookupAt m.free x with
    | some k => rfl
    | none =>
      by_cases hb : b = unwrittenByte
      · simp [hb, lookupAt_eraseAt, hx]
      · simp [hb, lookupAt_insertAt, hx]

theorem Memory.read_forget (m : Memory) (a k x : Nat) :
    (m.forget a k).read x = if x = a then Config.freeByte k else m.read x := by
  unfold Memory.read Memory.forget
  simp only [lookupAt_insertAt, lookupAt_eraseAt]
  by_cases hx : x = a
  · simp [hx]
  · simp [hx]

@[simp] theorem State.wrapAddr_idem (s : State) (a : Nat) : s.wrapAddr (s.wrapAddr a) = s.wrapAddr a :=
  Nat.mod_mod _ _

theorem State.wrapAddr_lt (s : State) (a : Nat) : s.wrapAddr a < 2 ^ s.params.addrW :=
  Nat.mod_lt _ (Nat.two_pow_pos _)

theorem State.readByte_writeByte (s : State) (a x : Nat) (b : Byte) :
    (s.writeByte a b).readByte x = if s.wrapAddr x = s.wrapAddr a then b else s.readByte x :=
  Memory.read_write _ _ _ _

theorem State.readByte_forgetByte (s : State) (a x : Nat) :
    (s.forgetByte a).readByte x =
      if s.wrapAddr x = s.wrapAddr a then Config.freeByte s.freeCount else s.readByte x :=
  Memory.read_forget _ _ _ _

/-- What `forgetBytes` can do: its `n` bytes get the next `n` free values, the later byte winning where addresses wrap onto one
another, and every other byte reads as before. -/
theorem State.forgetBytes_spec (s : State) (a n : Nat) :
    (s.forgetBytes a n = { s with mem := (s.forgetBytes a n).mem, freeCount := s.freeCount + n }) ∧
    (∀ x, (∀ j, j < n → s.wrapAddr x ≠ s.wrapAddr (a + j)) → (s.forgetBytes a n).readByte x = s.readByte x) ∧
    (∀ x j, j < n → s.wrapAddr x = s.wrapAddr (a + j) →
      ∃ k, s.freeCount ≤ k ∧ k < s.freeCount + n ∧ (s.forgetBytes a n).readByte x = Config.freeByte k) := by
  induction n with
  | zero => exact ⟨rfl, fun _ _ => rfl, fun _ j hj => absurd hj (Nat.not_lt_zero j)⟩
  | succ n ih =>
    obtain ⟨hs, hout, hin⟩ := ih
    have hw : ∀ x, (s.forgetBytes a n).wrapAddr x = s.wrapAddr x := fun x => by rw [hs]; rfl
    have hc : (s.forgetBytes a n).freeCount = s.freeCount + n := by rw [hs]
    refine ⟨?_, fun x hx => ?_, fun x j hj hxj => ?_⟩
    · simp only [State.forgetBytes, State.forgetByte]
      rw [hs]
      simp [Nat.add_assoc]
    · rw [State.forgetBytes, State.readByte_forgetByte, hw, hw, if_neg (hx n (Nat.lt_succ_self n))]
      exact hout x fun j hj => hx j (Nat.lt_succ_of_lt hj)
    · rw [State.forgetBytes, State.readByte_forgetByte, hw, hw, hc]
      by_cases hn : s.wrapAddr x = s.wrapAddr (a + n)
      · exact ⟨s.freeCount + n, by omega, by omega, by rw [if_pos hn]⟩
      · rw [if_neg hn]
        have hjn : j < n := by
          rcases Nat.lt_succ_iff_lt_or_eq.mp hj with h | h
          · exact h
          · exact absurd (h ▸ hxj) hn
        obtain ⟨k, h1, h2, h3⟩ := hin x j hjn hxj
        exact ⟨k, h1, by omega, h3⟩

/-! ### The canonical form -/

theorem Memory.wf_iff (m : Memory) :
    m.wf = true ↔ keysRise m.cells = true ∧ (∀ e ∈ m.cells, e.2 ≠ unwrittenByte) ∧ keysRise m.free = true ∧
      ∀ e ∈ m.free, lookupAt m.cells e.1 = none := by
  simp [Memory.wf, and_assoc]

theorem Memory.wf_write (m : Memory) (a : Nat) (b : Byte) (h : m.wf = true) : (m.write a b).wf = true := by
  obtain ⟨h1, h2, h3, h4⟩ := (Memory.wf_iff m).mp h
  refine (Memory.wf_iff _).mpr ?_
  unfold Memory.write
  by_cases hb : b = unwrittenByte
  · simp only [if_pos hb]
    refine ⟨keysRise_eraseAt a h1, fun e he => h2 e (mem_eraseAt.mp he).1, keysRise_eraseAt a h3, fun e he => ?_⟩
    rw [lookupAt_eraseAt, h4 e (mem_eraseAt.mp he).1, ite_self]
  · simp only [if_neg hb]
    refine ⟨keysRise_insertAt a b h1, fun e he => ?_, keysRise_eraseAt a h3, fun e he => ?_⟩
    · rcases mem_insertAt he with rfl | he
      · exact hb
      · exact h2 e he
    · obtain ⟨h5, h6⟩ := mem_eraseAt.mp he
      rw [lookupAt_insertAt, if_neg h6, h4 e h5]

theorem Memory.wf_forget (m : Memory) (a k : Nat) (h : m.wf = true) : (m.forget a k).wf = true := by
  obtain ⟨h1, h2, h3, h4⟩ := (Memory.wf_iff m).mp h
  refine (Memory.wf_iff _).mpr
    ⟨keysRise_eraseAt a h1, fun e he => h2 e (mem_eraseAt.mp he).1, keysRise_insertAt a k h3, fun e he => ?_⟩
  show lookupAt (eraseAt m.cells a) e.1 = none
  rw [lookupAt_eraseAt]
  rcases mem_insertAt he with rfl | he
  · simp
  · rw [h4 e he, ite_self]

theorem Memory.below_iff (m : Memory) (limit : Nat) :
    m.below limit = true ↔ (∀ e ∈ m.cells, e.1 < limit) ∧ ∀ e ∈ m.free, e.1 < limit := by
  simp [Memory.below]

theorem Memory.below_write (m : Memory) (a limit : Nat) (b : Byte) (h : m.below limit = true) (ha : a < limit) :
    (m.write a b).below limit = true := by
  obtain ⟨h1, h2⟩ := (Memory.below_iff m limit).mp h
  refine (Memory.below_iff _ _).mpr ⟨fun e he => ?_, fun e he => h2 e (mem_eraseAt.mp he).1⟩
  unfold Memory.write at he
  by_cases hb : b = unwrittenByte
  · simp only [if_pos hb] at he
    exact h1 e (mem_eraseAt.mp he).1
  · simp only [if_neg hb] at he
    rcases mem_insertAt he with rfl | he
    · exact ha
    · exact h1 e he

theorem Memory.below_forget (m : Memory) (a k limit : Nat) (h : m.below limit = true) (ha : a < limit) :
    (m.forget a k).below limit = true := by
  obtain ⟨h1, h2⟩ := (Memory.below_iff m limit).mp h
  refine (Memory.below_iff _ _).mpr ⟨fun e he => h1 e (mem_eraseAt.mp he).1, fun e he => ?_⟩
  rcases mem_insertAt he with rfl | he
  · exact ha
  · exact h2 e he

theorem Memory.wf_reset : State.reset.mem.wf = true := rfl

theorem Memory.below_initial (p : Params) : (State.initial p).mem.below (2 ^ p.addrW) = true := rfl

end Sys2Proof.Machine
end

