-- ==== Sys2Proof/Laws/Bits.lean ====
section
/-! SUPPORT. The laws of the bit helpers and of the bits a reader shows: which byte a bit of a refill chunk comes from, and the
value of `Show(n)` said on the stream. -/

namespace Sys2Proof.Machine

theorem mask_getLsbD (n i : Nat) : (mask n).getLsbD i = (decide (i < 64) && decide (i < n)) := by
  simp [mask, BitVec.getLsbD_ofNat, Nat.testBit_two_pow_sub_one]

/-- Bit `i` of a little-endian chunk is bit `i % 8` of byte `i / 8`. -/
theorem leWord_getLsbD (bs : List Byte) (i : Nat) :
    (leWord bs).getLsbD i = (decide (i < 64) && (bs.getD (i / 8) 0).getLsbD (i % 8)) := by
  induction bs generalizing i with
  | nil => simp [leWord]
  | cons b bs ih =>
    rw [leWord, BitVec.getLsbD_or, BitVec.getLsbD_setWidth, BitVec.getLsbD_shiftLeft, ih]
    by_cases h64 : i < 64
    · by_cases h8 : i < 8
      · have hd : i / 8 = 0 := by omega
        have hm : i % 8 = i := by omega
        simp [h64, h8, hd, hm]
      · obtain ⟨j, rfl⟩ : ∃ j, i = j + 8 := ⟨i - 8, by omega⟩
        have hd : (j + 8) / 8 = j / 8 + 1 := by omega
        have hj : j < 64 := by omega
        simp [h64, h8, hd, hj]
    · simp [h64]

theorem leWord_toNat_lt (bs : List Byte) : (leWord bs).toNat < 2 ^ (8 * bs.length) := by
  refine Nat.lt_pow_two_of_testBit _ fun i hi => ?_
  have hbit : (leWord bs).toNat.testBit i = (leWord bs).getLsbD i := rfl
  rw [hbit, leWord_getLsbD]
  have hlen : bs.length ≤ i / 8 := by omega
  rw [List.getD_eq_default _ _ hlen]
  simp

/-- Bit `i` of a big-endian chunk of `n` bytes is bit `i % 8` of byte `n - 1 - i / 8`. -/
theorem beWord_getLsbD (bs : List Byte) (i : Nat) (h : i < 8 * bs.length) :
    (beWord bs).getLsbD i = (decide (i < 64) && (bs.getD (bs.length - 1 - i / 8) 0).getLsbD (i % 8)) := by
  have hi : i / 8 < bs.length := by omega
  rw [beWord, leWord_getLsbD]
  congr 2
  rw [List.getD_eq_getElem?_getD, List.getD_eq_getElem?_getD, List.getElem?_reverse hi]

theorem beWord_toNat_lt (bs : List Byte) : (beWord bs).toNat < 2 ^ (8 * bs.length) := by
  have := leWord_toNat_lt bs.reverse
  simpa [beWord] using this

theorem State.chunkWord_toNat_lt (s : State) (bs : List Byte) :
    (s.chunkWord bs).toNat < 2 ^ (8 * bs.length) := by
  unfold State.chunkWord
  cases s.params.endian
  · exact leWord_toNat_lt bs
  · exact beWord_toNat_lt bs

/-! ### The value of stream bits -/

theorem State.fieldLe_testBit (s : State) (k n i : Nat) :
    (s.fieldLe k n).testBit i = (decide (i < n) && s.streamBit (k + i)) := by
  have hlt : ∀ n, s.fieldLe k n < 2 ^ n := by
    intro n
    induction n with
    | zero => simp [State.fieldLe]
    | succ n ih =>
      have hb : (s.streamBit (k + n)).toNat ≤ 1 := Bool.toNat_le _
      have : (s.streamBit (k + n)).toNat * 2 ^ n ≤ 1 * 2 ^ n := Nat.mul_le_mul_right _ hb
      rw [State.fieldLe, Nat.pow_succ]
      omega
  induction n with
  | zero => simp [State.fieldLe]
  | succ n ih =>
    rw [State.fieldLe, Nat.add_comm, Nat.mul_comm, Nat.testBit_two_pow_mul_add _ (hlt n), ih]
    by_cases h : i < n
    · simp [h, Nat.lt_succ_of_lt h]
    · by_cases he : i = n
      · subst he
        cases s.streamBit (k + i) <;> simp
      · obtain ⟨d, rfl⟩ : ∃ d, i = n + 1 + d := ⟨i - (n + 1), by omega⟩
        have h1 : n + 1 + d - n = d + 1 := by omega
        have h2 : ¬ n + 1 + d < n + 1 := by omega
        cases s.streamBit (k + n) <;> simp [h, h1, h2, Nat.testBit_succ]

theorem State.fieldBe_testBit (s : State) (k n i : Nat) :
    (s.fieldBe k n).testBit i = (decide (i < n) && s.streamBit (k + (n - 1 - i))) := by
  induction n generalizing i with
  | zero => simp [State.fieldBe]
  | succ n ih =>
    rw [State.fieldBe]
    cases i with
    | zero => cases hb : s.streamBit (k + n) <;> simp [hb]
    | succ i =>
      have hd : (2 * s.fieldBe k n + (s.streamBit (k + n)).toNat) / 2 = s.fieldBe k n := by
        have : (s.streamBit (k + n)).toNat ≤ 1 := Bool.toNat_le _
        omega
      have h1 : n + 1 - 1 - (i + 1) = n - 1 - i := by omega
      rw [Nat.testBit_succ, hd, ih, h1]
      simp

theorem State.streamField_zero (s : State) (k : Nat) : s.streamField k 0 = 0 := by
  unfold State.streamField
  cases s.params.endian <;> rfl

theorem State.nextBit_eq_streamBit (s : State) (h : s.streamOrdered = true) (i : Nat) (hi : i < s.valid.toNat) :
    s.nextBit i = s.streamBit (s.tell.toNat + i) := by
  simpa using List.all_eq_true.mp h i (List.mem_range.mpr hi)

theorem State.streamOrdered_iff (s : State) :
    s.streamOrdered = true ↔ ∀ i, i < s.valid.toNat → s.nextBit i = s.streamBit (s.tell.toNat + i) := by
  simp [State.streamOrdered, List.all_eq_true]

/-- `Show(n)` of cached bits is their value on the stream. -/
theorem State.showBits_eq_streamField (s : State) (n : Nat) (h : s.streamOrdered = true) (hn : n ≤ s.valid.toNat)
    (hv : s.valid.toNat ≤ 64) : (s.showBits n).toNat = s.streamField s.tell.toNat n := by
  have hbit := s.nextBit_eq_streamBit h
  unfold State.showBits State.streamField
  unfold State.nextBit at hbit
  by_cases h0 : n = 0
  · subst h0
    cases s.params.endian <;> rfl
  rw [if_neg h0]
  cases he : s.params.endian with
  | le =>
    simp only [he] at hbit ⊢
    refine Nat.eq_of_testBit_eq fun i => ?_
    rw [State.fieldLe_testBit]
    show (s.cache &&& mask n).getLsbD i = _
    rw [BitVec.getLsbD_and, mask_getLsbD]
    by_cases hi : i < n
    · have h64 : i < 64 := by omega
      rw [hbit i (by omega)]
      simp [hi, h64]
    · simp [hi]
  | be =>
    simp only [he] at hbit ⊢
    refine Nat.eq_of_testBit_eq fun i => ?_
    rw [State.fieldBe_testBit]
    show (s.cache >>> (64 - n)).getLsbD i = _
    rw [BitVec.getLsbD_ushiftRight]
    by_cases hi : i < n
    · have h1 : 64 - n + i = 63 - (n - 1 - i) := by omega
      rw [h1, hbit (n - 1 - i) (by omega)]
      simp [hi]
    · have h1 : 64 ≤ 64 - n + i := by omega
      simp [hi, BitVec.getLsbD_of_ge _ _ h1]

end Sys2Proof.Machine
end

