-- ==== Sys2Proof/Laws/Reader.lean ====
section
/-! SUPPORT. What each reader primitive and each shared reader body can do: one inversion lemma each, cited instead of unfolding
them, and the frame they share. -/

namespace Sys2Proof.Machine

/-! ### Chains of steps that can raise a fault -/

theorem except_bind_ok {α β : Type} {x : Except Cause α} {f : α → Except Cause β} {b : β} :
    (x >>= f) = .ok b ↔ ∃ a, x = .ok a ∧ f a = .ok b := by
  cases x with
  | error c => exact ⟨fun h => (nomatch h), fun ⟨_, h, _⟩ => (nomatch h)⟩
  | ok a => exact ⟨fun h => ⟨a, rfl, h⟩, fun ⟨a', h, h'⟩ => by cases h; exact h'⟩

theorem except_bind_error {α β : Type} {x : Except Cause α} {f : α → Except Cause β} {c : Cause} :
    (x >>= f) = .error c ↔ x = .error c ∨ ∃ a, x = .ok a ∧ f a = .error c := by
  cases x with
  | error c' =>
    constructor
    · intro h
      cases h
      exact .inl rfl
    · intro h
      rcases h with h | ⟨_, h, _⟩
      · cases h
        rfl
      · cases h
  | ok a =>
    refine ⟨fun h => .inr ⟨a, rfl, h⟩, fun h => ?_⟩
    rcases h with h | ⟨a', h, h'⟩
    · cases h
    · cases h
      exact h'

/-! ### The cursor frame -/

/-- Only the cursor, the cache and the count of free values differ. -/
def cursorFrame (s t : State) : Prop :=
  t = { s with ptrOff := t.ptrOff, cache := t.cache, valid := t.valid, freeCount := t.freeCount }

theorem cursorFrame_refl (s : State) : cursorFrame s s := rfl

theorem cursorFrame_trans {s t u : State} (h1 : cursorFrame s t) (h2 : cursorFrame t u) : cursorFrame s u := by
  unfold cursorFrame at *
  rw [h2, h1]

theorem cursorFrame_params {s t : State} (h : cursorFrame s t) : t.params = s.params := by rw [h]
theorem cursorFrame_mem {s t : State} (h : cursorFrame s t) : t.mem = s.mem := by rw [h]
theorem cursorFrame_buf {s t : State} (h : cursorFrame s t) : t.buf = s.buf := by rw [h]
theorem cursorFrame_size {s t : State} (h : cursorFrame s t) : t.size = s.size := by rw [h]
theorem cursorFrame_byteLen {s t : State} (h : cursorFrame s t) : t.byteLen = s.byteLen := by rw [h]
theorem cursorFrame_fault {s t : State} (h : cursorFrame s t) : t.fault = s.fault := by rw [h]
theorem cursorFrame_status {s t : State} (h : cursorFrame s t) : t.status = s.status := by rw [h]

theorem cursorFrame_readByte {s t : State} (h : cursorFrame s t) (a : Nat) : t.readByte a = s.readByte a := by
  rw [h]
  rfl

theorem cursorFrame_streamBit {s t : State} (h : cursorFrame s t) (k : Nat) : t.streamBit k = s.streamBit k := by
  rw [h]
  rfl

theorem cursorFrame_fieldLe {s t : State} (h : cursorFrame s t) (k n : Nat) : t.fieldLe k n = s.fieldLe k n := by
  induction n with
  | zero => rfl
  | succ n ih => rw [State.fieldLe, State.fieldLe, ih, cursorFrame_streamBit h]

theorem cursorFrame_fieldBe {s t : State} (h : cursorFrame s t) (k n : Nat) : t.fieldBe k n = s.fieldBe k n := by
  induction n with
  | zero => rfl
  | succ n ih => rw [State.fieldBe, State.fieldBe, ih, cursorFrame_streamBit h]

theorem cursorFrame_streamField {s t : State} (h : cursorFrame s t) (k n : Nat) :
    t.streamField k n = s.streamField k n := by
  unfold State.streamField
  rw [cursorFrame_params h, cursorFrame_fieldLe h, cursorFrame_fieldBe h]

theorem cursorFrame_dropBits (s : State) (n : Nat) : cursorFrame s (s.dropBits n) := rfl

theorem cursorFrame_emptyCache (s : State) : cursorFrame s s.emptyCache := rfl

theorem cursorFrame_advancePtr (s : State) (k : Nat) : cursorFrame s (s.advancePtr k) := by
  unfold cursorFrame State.advancePtr
  split <;> rfl

/-! ### The stream window -/

theorem State.readStream_ok {s : State} {o : Nat} {b : Byte} :
    s.readStream o = .ok b ↔ o < s.byteLen.toNat + s.params.pad ∧ b = s.readByte (s.buf.toNat + o) := by
  unfold State.readStream
  split
  · rename_i h
    exact ⟨fun h' => (nomatch h'), fun ⟨h', _⟩ => absurd h' (Nat.not_lt.mpr h)⟩
  · rename_i h
    constructor
    · intro h'
      cases h'
      exact ⟨Nat.lt_of_not_le h, rfl⟩
    · rintro ⟨_, rfl⟩
      rfl

theorem State.readStream_error {s : State} {o : Nat} {c : Cause} :
    s.readStream o = .error c ↔ s.byteLen.toNat + s.params.pad ≤ o ∧ c = .bufferOverread := by
  unfold State.readStream
  split
  · rename_i h
    constructor
    · intro h'
      cases h'
      exact ⟨h, rfl⟩
    · rintro ⟨_, rfl⟩
      rfl
  · rename_i h
    exact ⟨fun h' => (nomatch h'), fun ⟨h', _⟩ => absurd h' h⟩

/-- `readChunk` answers exactly when the chunk ends inside the window, with the bytes of the window in order. -/
theorem State.readChunk_ok {s : State} {o n : Nat} {bs : List Byte} :
    s.readChunk o n = .ok bs ↔
      (n = 0 ∨ o + n ≤ s.byteLen.toNat + s.params.pad) ∧
        bs = (List.range n).map (fun i => s.readByte (s.buf.toNat + (o + i))) := by
  induction n generalizing o bs with
  | zero =>
    constructor
    · intro h
      cases h
      exact ⟨.inl rfl, rfl⟩
    · rintro ⟨_, rfl⟩
      rfl
  | succ n ih =>
    rw [State.readChunk, except_bind_ok]
    have hmap : ∀ o, (List.range (n + 1)).map (fun i => s.readByte (s.buf.toNat + (o + i))) =
        s.readByte (s.buf.toNat + o) :: (List.range n).map (fun i => s.readByte (s.buf.toNat + (o + 1 + i))) := by
      intro o
      rw [List.range_succ_eq_map, List.map_cons, List.map_map]
      congr 1
      refine List.map_congr_left fun i _ => ?_
      show s.readByte (s.buf.toNat + (o + (i + 1))) = _
      congr 2
      omega
    constructor
    · rintro ⟨b, hb, h⟩
      obtain ⟨hlt, rfl⟩ := State.readStream_ok.mp hb
      obtain ⟨bs', hbs', h⟩ := except_bind_ok.mp h
      obtain ⟨hn, rfl⟩ := ih.mp hbs'
      cases h
      exact ⟨.inr (by omega), (hmap o).symm⟩
    · rintro ⟨hn, rfl⟩
      have hle : o + (n + 1) ≤ s.byteLen.toNat + s.params.pad := by omega
      refine ⟨_, State.readStream_ok.mpr ⟨by omega, rfl⟩, except_bind_ok.mpr ⟨_, ih.mpr ⟨.inr (by omega), rfl⟩, ?_⟩⟩
      rw [hmap]
      rfl

theorem State.readChunk_error {s : State} {o n : Nat} {c : Cause} (h : s.readChunk o n = .error c) :
    s.byteLen.toNat + s.params.pad < o + n ∧ c = .bufferOverread := by
  induction n generalizing o with
  | zero => cases h
  | succ n ih =>
    rw [State.readChunk, except_bind_error] at h
    rcases h with h | ⟨b, _, h⟩
    · obtain ⟨h1, h2⟩ := State.readStream_error.mp h
      exact ⟨by omega, h2⟩
    · rcases except_bind_error.mp h with h | ⟨_, _, h⟩
      · obtain ⟨h1, h2⟩ := ih h
        exact ⟨by omega, h2⟩
      · cases h

/-- The `n` bytes of the window from offset `o`. -/
def State.windowBytes (s : State) (o n : Nat) : List Byte :=
  (List.range n).map (fun i => s.readByte (s.buf.toNat + (o + i)))

theorem State.windowBytes_length (s : State) (o n : Nat) : (s.windowBytes o n).length = n := by
  simp [State.windowBytes]

theorem State.windowBytes_getD (s : State) (o n i : Nat) (h : i < n) :
    (s.windowBytes o n).getD i 0 = s.readByte (s.buf.toNat + (o + i)) := by
  simp [State.windowBytes, h]

/-- Bit `i` of the word of a chunk of window bytes, in stream order, is the stream bit there. -/
theorem State.chunkWord_windowBytes (s : State) (o n i : Nat) (hn : n ≤ 8) (hi : i < 8 * n) :
    (match s.params.endian with
      | .le => (s.chunkWord (s.windowBytes o n)).getLsbD i
      | .be => (s.chunkWord (s.windowBytes o n)).getLsbD (8 * n - 1 - i)) = s.streamBit (8 * o + i) := by
  have hd : (8 * o + i) / 8 = o + i / 8 := by omega
  have hm : (8 * o + i) % 8 = i % 8 := by omega
  have hlen := s.windowBytes_length o n
  unfold State.streamBit State.chunkWord
  cases s.params.endian with
  | le =>
    simp only []
    rw [leWord_getLsbD, s.windowBytes_getD o n (i / 8) (by omega), hd, hm]
    simp [show i < 64 by omega]
  | be =>
    simp only []
    rw [beWord_getLsbD _ _ (by rw [hlen]; omega), hlen, hd, hm]
    have h1 : n - 1 - (8 * n - 1 - i) / 8 = i / 8 := by omega
    have h2 : (8 * n - 1 - i) % 8 = 7 - i % 8 := by omega
    rw [h1, h2, s.windowBytes_getD o n (i / 8) (by omega)]
    simp [show 8 * n - 1 - i < 64 by omega]

/-! ### Pointer, guard and refills -/

theorem State.advancePtr_fits {s : State} {k : Nat} (h : s.ptrOff.toNat + k < 2 ^ 64) :
    s.advancePtr k = { s with ptrOff := BitVec.ofNat 64 (s.ptrOff.toNat + k) } := by
  unfold State.advancePtr
  rw [if_pos h]

theorem State.advancePtr_toNat {s : State} {k : Nat} (h : s.ptrOff.toNat + k < 2 ^ 64) :
    (s.advancePtr k).ptrOff.toNat = s.ptrOff.toNat + k := by
  rw [State.advancePtr_fits h]
  exact Nat.mod_eq_of_lt h

/-- Where the sum leaves the register, PTR_OFF is a value of which only `8 ≤ PTR_OFF` is known. -/
theorem State.advancePtr_overflow {s : State} {k : Nat} (h : 2 ^ 64 ≤ s.ptrOff.toNat + k) :
    8 ≤ (s.advancePtr k).ptrOff.toNat := by
  unfold State.advancePtr
  rw [if_neg (Nat.not_lt.mpr h)]
  simp only []
  split
  · decide
  · omega

theorem State.advancePtr_valid (s : State) (k : Nat) : (s.advancePtr k).valid = s.valid := by
  unfold State.advancePtr
  split <;> rfl

theorem State.advancePtr_cache (s : State) (k : Nat) : (s.advancePtr k).cache = s.cache := by
  unfold State.advancePtr
  split <;> rfl

theorem State.atEnd_iff (s : State) :
    s.atEnd = true ↔ s.params.checked = true ∧ s.byteLen.toNat ≤ s.ptrOff.toNat := by
  simp [State.atEnd]

/-- What `Refill64` can do (20_memory.md R44). -/
theorem State.refill64_ok {s t : State} :
    s.refill64 = .ok t ↔
      (s.atEnd = true ∧ t = s) ∨
      (s.atEnd = false ∧ s.ptrOff.toNat + 8 ≤ s.byteLen.toNat + s.params.pad ∧
        t = ({ s with cache := s.chunkWord (s.windowBytes s.ptrOff.toNat 8), valid := 64 } : State).advancePtr 8) := by
  unfold State.refill64
  split
  · rename_i h
    constructor
    · intro h'
      cases h'
      exact .inl ⟨h, rfl⟩
    · rintro (⟨_, rfl⟩ | ⟨h', _⟩)
      · rfl
      · rw [h] at h'
        cases h'
  · rename_i h
    rw [except_bind_ok]
    constructor
    · rintro ⟨bs, hbs, h'⟩
      obtain ⟨hle, rfl⟩ := State.readChunk_ok.mp hbs
      cases h'
      exact .inr ⟨by simpa using h, by omega, rfl⟩
    · rintro (⟨h', _⟩ | ⟨_, hle, rfl⟩)
      · exact absurd h' h
      · exact ⟨_, State.readChunk_ok.mpr ⟨.inr hle, rfl⟩, rfl⟩

/-- The cache after `Refill32` appends the word `w` to it (20_memory.md R45). -/
def State.appendedCache (s : State) (w : Word64) : Word64 :=
  match s.params.endian with
  | .le => s.cache ||| (w <<< s.valid.toNat)
  | .be => s.cache ||| (w <<< (32 - s.valid.toNat))

/-- What `Refill32` can do (20_memory.md R45). -/
theorem State.refill32_ok {s t : State} :
    s.refill32 = .ok t ↔
      (s.atEnd = true ∧ t = s) ∨
      (s.atEnd = false ∧ s.ptrOff.toNat + 4 ≤ s.byteLen.toNat + s.params.pad ∧
        t = ({ s with
          cache := s.appendedCache (s.chunkWord (s.windowBytes s.ptrOff.toNat 4))
          valid := BitVec.ofNat 7 (s.valid.toNat + 32) } : State).advancePtr 4) := by
  unfold State.refill32
  split
  · rename_i h
    constructor
    · intro h'
      cases h'
      exact .inl ⟨h, rfl⟩
    · rintro (⟨_, rfl⟩ | ⟨h', _⟩)
      · rfl
      · rw [h] at h'
        cases h'
  · rename_i h
    rw [except_bind_ok]
    constructor
    · rintro ⟨bs, hbs, h'⟩
      obtain ⟨hle, rfl⟩ := State.readChunk_ok.mp hbs
      cases h'
      exact .inr ⟨by simpa using h, by omega, rfl⟩
    · rintro (⟨h', _⟩ | ⟨_, hle, rfl⟩)
      · exact absurd h' h
      · exact ⟨_, State.readChunk_ok.mpr ⟨.inr hle, rfl⟩, rfl⟩

theorem State.refill64_error {s : State} {c : Cause} (h : s.refill64 = .error c) :
    s.atEnd = false ∧ s.byteLen.toNat + s.params.pad < s.ptrOff.toNat + 8 ∧ c = .bufferOverread := by
  unfold State.refill64 at h
  split at h
  · cases h
  · rename_i hend
    rcases except_bind_error.mp h with h | ⟨_, _, h⟩
    · exact ⟨by simpa using hend, State.readChunk_error h⟩
    · cases h

theorem State.refill32_error {s : State} {c : Cause} (h : s.refill32 = .error c) :
    s.atEnd = false ∧ s.byteLen.toNat + s.params.pad < s.ptrOff.toNat + 4 ∧ c = .bufferOverread := by
  unfold State.refill32 at h
  split at h
  · cases h
  · rename_i hend
    rcases except_bind_error.mp h with h | ⟨_, _, h⟩
    · exact ⟨by simpa using hend, State.readChunk_error h⟩
    · cases h

theorem cursorFrame_refill64 {s t : State} (h : s.refill64 = .ok t) : cursorFrame s t := by
  rcases State.refill64_ok.mp h with ⟨_, rfl⟩ | ⟨_, _, rfl⟩
  · exact cursorFrame_refl _
  · exact cursorFrame_trans (by rfl) (cursorFrame_advancePtr _ _)

theorem cursorFrame_refill32 {s t : State} (h : s.refill32 = .ok t) : cursorFrame s t := by
  rcases State.refill32_ok.mp h with ⟨_, rfl⟩ | ⟨_, _, rfl⟩
  · exact cursorFrame_refl _
  · exact cursorFrame_trans (by rfl) (cursorFrame_advancePtr _ _)

/-- `refillFor n` refills exactly when fewer than `n` bits are cached. -/
theorem State.refillFor_eq (s : State) (n : Nat) :
    s.refillFor n = if s.valid.toNat < n then s.refill32 else .ok s := rfl

theorem cursorFrame_refillFor {s t : State} {n : Nat} (h : s.refillFor n = .ok t) : cursorFrame s t := by
  rw [State.refillFor_eq] at h
  split at h
  · exact cursorFrame_refill32 h
  · cases h
    exact cursorFrame_refl _

theorem cursorFrame_refillIfEmpty {s t : State} (h : s.refillIfEmpty = .ok t) : cursorFrame s t := by
  unfold State.refillIfEmpty at h
  split at h
  · exact cursorFrame_refill64 h
  · cases h
    exact cursorFrame_refl _

/-! ### CheckRange and the bodies -/

theorem State.checkRange_ok {s : State} {n : Nat} :
    s.checkRange n = .ok () ↔ s.params.checked = true ∨ s.tell + (n : Int) ≤ (s.size.toNat : Int) := by
  unfold State.checkRange
  split
  · rename_i h
    constructor
    · intro h'
      cases h'
    · rintro (h' | h')
      · rw [h.1] at h'
        cases h'
      · exact absurd h.2 (Int.not_lt.mpr h')
  · rename_i h
    refine ⟨fun _ => ?_, fun _ => rfl⟩
    cases hc : s.params.checked
    · exact .inr (Int.not_lt.mp fun h' => h ⟨hc, h'⟩)
    · exact .inl rfl

theorem State.checkRange_error {s : State} {n : Nat} {c : Cause} :
    s.checkRange n = .error c ↔
      (s.params.checked = false ∧ (s.size.toNat : Int) < s.tell + (n : Int)) ∧ c = .uncheckedOverrun := by
  unfold State.checkRange
  split
  · rename_i h
    constructor
    · intro h'
      cases h'
      exact ⟨h, rfl⟩
    · rintro ⟨_, rfl⟩
      rfl
  · rename_i h
    exact ⟨fun h' => (nomatch h'), fun ⟨h', _⟩ => absurd h' h⟩

/-- What READ_NZ's body can do (41_reader_extract.md R92). -/
theorem State.takeBits_ok {s : State} {n : Nat} {r : Word64 × State} :
    s.takeBits n = .ok r ↔
      s.checkRange n = .ok () ∧ ∃ t, s.refillFor n = .ok t ∧ r = (t.showBits n, t.dropBits n) := by
  unfold State.takeBits
  rw [except_bind_ok]
  constructor
  · rintro ⟨_, h1, h⟩
    obtain ⟨t, h2, h⟩ := except_bind_ok.mp h
    cases h
    exact ⟨h1, t, h2, rfl⟩
  · rintro ⟨h1, t, h2, rfl⟩
    exact ⟨(), h1, except_bind_ok.mpr ⟨t, h2, rfl⟩⟩

/-- What PEEK's body can do (41_reader_extract.md R96). -/
theorem State.peekBits_ok {s : State} {n : Nat} {r : Word64 × State} :
    s.peekBits n = .ok r ↔ s.checkRange n = .ok () ∧ ∃ t, s.refillFor n = .ok t ∧ r = (t.showBits n, t) := by
  unfold State.peekBits
  rw [except_bind_ok]
  constructor
  · rintro ⟨_, h1, h⟩
    obtain ⟨t, h2, h⟩ := except_bind_ok.mp h
    cases h
    exact ⟨h1, t, h2, rfl⟩
  · rintro ⟨h1, t, h2, rfl⟩
    exact ⟨(), h1, except_bind_ok.mpr ⟨t, h2, rfl⟩⟩

/-- What READ_BIT's body can do (41_reader_extract.md R91). -/
theorem State.takeBit_ok {s : State} {r : Word64 × State} :
    s.takeBit = .ok r ↔
      s.checkRange 1 = .ok () ∧
        ∃ t, s.refillIfEmpty = .ok t ∧ r = (t.showBits 1, t.dropBits 1) := by
  unfold State.takeBit
  rw [except_bind_ok]
  constructor
  · rintro ⟨_, h1, h⟩
    obtain ⟨t, h2, h⟩ := except_bind_ok.mp h
    cases h
    exact ⟨h1, t, h2, rfl⟩
  · rintro ⟨h1, t, h2, rfl⟩
    exact ⟨(), h1, except_bind_ok.mpr ⟨t, h2, rfl⟩⟩

/-- What READ_63's body can do (41_reader_extract.md R94). -/
theorem State.takeWide_ok {s : State} {n : Nat} {r : Word64 × State} :
    s.takeWide n = .ok r ↔
      s.checkRange n = .ok () ∧
      ((n ≤ s.valid.toNat ∧ r = (s.joinParts 0 0 (s.showBits n) n, s.dropBits n)) ∨
        (s.valid.toNat < n ∧ ∃ t,
          (if s.valid.toNat > 0 then s.dropBits s.valid.toNat else s).refill64 = .ok t ∧
          r = (s.joinParts (if s.valid.toNat > 0 then s.showBits s.valid.toNat else 0) s.valid.toNat
                (t.showBits (n - s.valid.toNat)) (n - s.valid.toNat),
              t.dropBits (n - s.valid.toNat)))) := by
  unfold State.takeWide
  rw [except_bind_ok]
  have hfst : (if s.valid.toNat > 0 then s.getBits s.valid.toNat else (0, s)).1 =
      if s.valid.toNat > 0 then s.showBits s.valid.toNat else 0 := by split <;> rfl
  have hsnd : (if s.valid.toNat > 0 then s.getBits s.valid.toNat else (0, s)).2 =
      if s.valid.toNat > 0 then s.dropBits s.valid.toNat else s := by split <;> rfl
  constructor
  · rintro ⟨_, h1, h⟩
    refine ⟨h1, ?_⟩
    split at h
    · rename_i hn
      obtain ⟨t, h2, h⟩ := except_bind_ok.mp h
      cases h
      exact .inr ⟨hn, t, hsnd ▸ h2, by rw [hfst]; rfl⟩
    · rename_i hn
      cases h
      exact .inl ⟨Nat.not_lt.mp hn, rfl⟩
  · rintro ⟨h1, h⟩
    refine ⟨(), h1, ?_⟩
    rcases h with ⟨hn, rfl⟩ | ⟨hn, t, h2, rfl⟩
    · rw [if_neg (Nat.not_lt.mpr hn)]
      rfl
    · rw [if_pos hn]
      exact except_bind_ok.mpr ⟨t, hsnd ▸ h2, by rw [hfst]; rfl⟩

/-- What SkipBits can do (41_reader_extract.md R99). -/
theorem State.skipBits_ok {s t : State} {n : Nat} :
    s.skipBits n = .ok t ↔
      s.checkRange n = .ok () ∧
      ((n < s.valid.toNat ∧ t = s.dropBits n) ∨
        (s.valid.toNat ≤ n ∧ 64 ≤ n - s.valid.toNat ∧
          ∃ u, (s.emptyCache.advancePtr ((n - s.valid.toNat) / 8)).refill64 = .ok u ∧
            t = if (n - s.valid.toNat) % 8 > 0 then u.dropBits ((n - s.valid.toNat) % 8) else u) ∨
        (s.valid.toNat ≤ n ∧ n - s.valid.toNat < 64 ∧
          ∃ u, s.emptyCache.refill64 = .ok u ∧
            t = if n - s.valid.toNat > 0 then u.dropBits (n - s.valid.toNat) else u)) := by
  unfold State.skipBits
  rw [except_bind_ok]
  constructor
  · rintro ⟨_, h1, h⟩
    refine ⟨h1, ?_⟩
    split at h
    · rename_i hn
      cases h
      exact .inl ⟨hn, rfl⟩
    · rename_i hn
      dsimp only at h
      split at h
      · rename_i hm
        obtain ⟨u, h2, h⟩ := except_bind_ok.mp h
        cases h
        exact .inr (.inl ⟨Nat.not_lt.mp hn, hm, u, h2, rfl⟩)
      · rename_i hm
        obtain ⟨u, h2, h⟩ := except_bind_ok.mp h
        cases h
        exact .inr (.inr ⟨Nat.not_lt.mp hn, Nat.lt_of_not_le hm, u, h2, rfl⟩)
  · rintro ⟨h1, h⟩
    refine ⟨(), h1, ?_⟩
    rcases h with ⟨hn, rfl⟩ | ⟨hn, hm, u, h2, rfl⟩ | ⟨hn, hm, u, h2, rfl⟩
    · rw [if_pos hn]
      rfl
    · rw [if_neg (Nat.not_lt.mpr hn)]
      simp only []
      rw [if_pos hm]
      exact except_bind_ok.mpr ⟨u, h2, rfl⟩
    · rw [if_neg (Nat.not_lt.mpr hn)]
      simp only []
      rw [if_neg (Nat.not_le.mpr hm)]
      exact except_bind_ok.mpr ⟨u, h2, rfl⟩

theorem cursorFrame_takeBits {s : State} {n : Nat} {r : Word64 × State} (h : s.takeBits n = .ok r) :
    cursorFrame s r.2 := by
  obtain ⟨_, t, ht, rfl⟩ := State.takeBits_ok.mp h
  exact cursorFrame_trans (cursorFrame_refillFor ht) (cursorFrame_dropBits t n)

theorem cursorFrame_peekBits {s : State} {n : Nat} {r : Word64 × State} (h : s.peekBits n = .ok r) :
    cursorFrame s r.2 := by
  obtain ⟨_, t, ht, rfl⟩ := State.peekBits_ok.mp h
  exact cursorFrame_refillFor ht

theorem cursorFrame_takeBit {s : State} {r : Word64 × State} (h : s.takeBit = .ok r) : cursorFrame s r.2 := by
  obtain ⟨_, t, ht, rfl⟩ := State.takeBit_ok.mp h
  exact cursorFrame_trans (cursorFrame_refillIfEmpty ht) (cursorFrame_dropBits t 1)

theorem cursorFrame_takeWide {s : State} {n : Nat} {r : Word64 × State} (h : s.takeWide n = .ok r) :
    cursorFrame s r.2 := by
  obtain ⟨_, ⟨_, rfl⟩ | ⟨_, t, ht, rfl⟩⟩ := State.takeWide_ok.mp h
  · exact cursorFrame_dropBits s n
  · refine cursorFrame_trans ?_ (cursorFrame_dropBits t _)
    split at ht
    · exact cursorFrame_trans (cursorFrame_dropBits s _) (cursorFrame_refill64 ht)
    · exact cursorFrame_refill64 ht

theorem cursorFrame_skipBits {s t : State} {n : Nat} (h : s.skipBits n = .ok t) : cursorFrame s t := by
  obtain ⟨_, ⟨_, rfl⟩ | ⟨_, _, u, hu, rfl⟩ | ⟨_, _, u, hu, rfl⟩⟩ := State.skipBits_ok.mp h
  · exact cursorFrame_dropBits s n
  · have hf := cursorFrame_trans (cursorFrame_trans (cursorFrame_emptyCache s)
      (cursorFrame_advancePtr _ _)) (cursorFrame_refill64 hu)
    split
    · exact cursorFrame_trans hf (cursorFrame_dropBits u _)
    · exact hf
  · have hf := cursorFrame_trans (cursorFrame_emptyCache s) (cursorFrame_refill64 hu)
    split
    · exact cursorFrame_trans hf (cursorFrame_dropBits u _)
    · exact hf

end Sys2Proof.Machine
end

