-- ==== Sys2Proof/Laws/Commands.lean ====
section
/-! SUPPORT. How every command runs and what a meaning can answer, said once; the table lookup and the loops over the reader;
the host port. -/

namespace Sys2Proof.Machine

/-! ### runCommand -/

theorem runCommand_faulted {op : BitVec 6} {legal : Bool} {body : State → Except Cause Done} {s : State}
    (h : s.faulted = true) : runCommand op legal body s = s.refuseFaulted := by
  rw [runCommand, if_pos h]

theorem runCommand_illegal {op : BitVec 6} {body : State → Except Cause Done} {s : State} (h : s.faulted = false) :
    runCommand op false body s = s.takeFault op .illegalCommand := by
  rw [runCommand, if_neg (by simp [h]), if_neg (by decide)]

theorem runCommand_ok {op : BitVec 6} {body : State → Except Cause Done} {s : State} {d : Done}
    (h : s.faulted = false) (hb : body s = .ok d) : runCommand op true body s = d.state.complete d.value d.invalid := by
  rw [runCommand, if_neg (by simp [h]), if_pos rfl, hb]

theorem runCommand_error {op : BitVec 6} {body : State → Except Cause Done} {s : State} {c : Cause}
    (h : s.faulted = false) (hb : body s = .error c) : runCommand op true body s = s.takeFault op c := by
  rw [runCommand, if_neg (by simp [h]), if_pos rfl, hb]

/-- The four ways a command ends (60_exceptions.md R143, R144). -/
theorem runCommand_cases (op : BitVec 6) (legal : Bool) (body : State → Except Cause Done) (s : State) :
    (s.faulted = true ∧ runCommand op legal body s = s.refuseFaulted) ∨
    (s.faulted = false ∧ legal = false ∧ runCommand op legal body s = s.takeFault op .illegalCommand) ∨
    (s.faulted = false ∧ legal = true ∧ ∃ c, body s = .error c ∧ runCommand op legal body s = s.takeFault op c) ∨
    (s.faulted = false ∧ legal = true ∧ ∃ d, body s = .ok d ∧
      runCommand op legal body s = d.state.complete d.value d.invalid) := by
  cases hf : s.faulted with
  | true => exact .inl ⟨rfl, runCommand_faulted hf⟩
  | false =>
    cases legal with
    | false => exact .inr (.inl ⟨rfl, rfl, runCommand_illegal hf⟩)
    | true =>
      cases hb : body s with
      | error c => exact .inr (.inr (.inl ⟨rfl, rfl, c, rfl, runCommand_error hf hb⟩))
      | ok d => exact .inr (.inr (.inr ⟨rfl, rfl, d, rfl, runCommand_ok hf hb⟩))

/-! ### The legality a meaning checks is the well-formedness of its command -/

theorem countOk_eq (arg : Word64) : countOk arg = decide (arg.toNat < 2 ^ 32) := by
  unfold countOk
  rw [decide_eq_decide]
  omega

theorem countOf_eq {arg : Word64} (h : arg.toNat < 2 ^ 32) : countOf arg = arg.toNat := Nat.mod_eq_of_lt h

theorem widthOk_zero (hi : Nat) {w : Nat} (n : BitVec w) : widthOk 0 hi n = decide (n.toNat ≤ hi) := by
  simp [widthOk]

/-- Every meaning is `runCommand` at the command's opcode and well-formedness, over some body. -/
theorem exec_runs (i : Instr) (s : State) :
    ∃ body : State → Except Cause Done, exec i s = .next (runCommand i.opcode i.wellFormed body s) := by
  have hv : ∀ d : BitVec 2, widthOk 1 3 d = decide (1 ≤ d.toNat) := by
    intro d
    have := d.isLt
    simp only [widthOk, show d.toNat ≤ 3 by omega, decide_true, Bool.and_true]
  have hq : ∀ q : BitVec 5, widthOk 1 31 q = decide (1 ≤ q.toNat) := by
    intro q
    have := q.isLt
    simp only [widthOk, show q.toNat ≤ 31 by omega, decide_true, Bool.and_true]
  cases i with
  | init buf nbits => exact ⟨_, by rw [Instr.wellFormed, ← countOk_eq]; rfl⟩
  | readBit => exact ⟨_, rfl⟩
  | read n => exact ⟨_, by rw [Instr.wellFormed, ← widthOk_zero]; rfl⟩
  | readNz n => exact ⟨_, rfl⟩
  | read63 n => exact ⟨_, by rw [Instr.wellFormed, ← widthOk_zero]; rfl⟩
  | read64 n => exact ⟨_, by rw [Instr.wellFormed, ← widthOk_zero]; rfl⟩
  | readSigned n => exact ⟨_, rfl⟩
  | peek n => exact ⟨_, by rw [Instr.wellFormed, ← widthOk_zero]; rfl⟩
  | peekSigned n => exact ⟨_, rfl⟩
  | skip n => exact ⟨_, by rw [Instr.wellFormed, ← countOk_eq]; rfl⟩
  | seek pos => exact ⟨_, by rw [Instr.wellFormed, ← countOk_eq]; rfl⟩
  | align => exact ⟨_, rfl⟩
  | tell => exact ⟨_, rfl⟩
  | size => exact ⟨_, rfl⟩
  | left => exact ⟨_, rfl⟩
  | readVlc n d table tlen => exact ⟨_, by rw [Instr.wellFormed, ← hv]; rfl⟩
  | skip1stop8data => exact ⟨_, rfl⟩
  | dequant n intra nonlin losslessDc qscale dcScale blk mat =>
    exact ⟨_, by rw [Instr.wellFormed, ← hq, ← widthOk_zero]; rfl⟩
  | idctPut stride blk dst => exact ⟨_, rfl⟩
  | idctAdd n stride blk dst => exact ⟨_, by rw [Instr.wellFormed, ← widthOk_zero]; rfl⟩
  | idctDcAdd stride blk dst => exact ⟨_, rfl⟩

/-! ### The VLC walk and the loops over the reader -/

/-- What a table lookup can answer (42_vlc.md R112). -/
theorem State.vlcEntry_ok {s : State} {table : Word64} {tlen : Nat} {i : Int} {e : VlcEntry} :
    s.vlcEntry table tlen i = .ok e ↔
      0 ≤ i ∧ i < (tlen : Int) ∧
        e = ⟨sext 16 (le16 (s.readByte (table.toNat + 4 * i.toNat)) (s.readByte (table.toNat + 4 * i.toNat + 1))),
          sext 16 (le16 (s.readByte (table.toNat + 4 * i.toNat + 2)) (s.readByte (table.toNat + 4 * i.toNat + 3)))⟩ := by
  unfold State.vlcEntry
  split
  · rename_i h
    exact ⟨fun h' => (nomatch h'), fun ⟨h1, h2, _⟩ => absurd h (by omega)⟩
  · rename_i h
    constructor
    · intro h'
      cases h'
      exact ⟨by omega, by omega, rfl⟩
    · rintro ⟨_, _, rfl⟩
      rfl

theorem State.vlcEntry_error {s : State} {table : Word64} {tlen : Nat} {i : Int} {c : Cause} :
    s.vlcEntry table tlen i = .error c ↔ (i < 0 ∨ (tlen : Int) ≤ i) ∧ c = .vlcTable := by
  unfold State.vlcEntry
  split
  · rename_i h
    constructor
    · intro h'
      cases h'
      exact ⟨h, rfl⟩
    · rintro ⟨_, rfl⟩
      rfl
  · rename_i h
    exact ⟨fun h' => (nomatch h'), fun ⟨h', _⟩ => absurd h' h⟩

theorem cursorFrame_vlcEntry {s t : State} (h : cursorFrame s t) (table : Word64) (tlen : Nat) (i : Int) :
    t.vlcEntry table tlen i = s.vlcEntry table tlen i := by
  unfold State.vlcEntry
  simp only [cursorFrame_readByte h]

/-- What one lookup of the walk can do (42_vlc.md R111). -/
theorem State.vlcLookup_ok {s : State} {table : Word64} {tlen nb : Nat} {base : Int} {p : VlcPoint} :
    s.vlcLookup table tlen nb base = .ok p ↔
      ∃ t e, s.refillFor nb = .ok t ∧ t.vlcEntry table tlen (((t.showBits nb).toNat : Int) + base) = .ok e ∧
        p = ⟨nb, e, t⟩ := by
  unfold State.vlcLookup
  rw [except_bind_ok]
  constructor
  · rintro ⟨t, h1, h⟩
    obtain ⟨e, h2, h⟩ := except_bind_ok.mp h
    cases h
    exact ⟨t, e, h1, h2, rfl⟩
  · rintro ⟨t, e, h1, h2, rfl⟩
    exact ⟨t, h1, except_bind_ok.mpr ⟨e, h2, rfl⟩⟩

theorem cursorFrame_vlcLookup {s : State} {table : Word64} {tlen nb : Nat} {base : Int} {p : VlcPoint}
    (h : s.vlcLookup table tlen nb base = .ok p) : cursorFrame s p.reader := by
  obtain ⟨t, e, ht, _, rfl⟩ := State.vlcLookup_ok.mp h
  exact cursorFrame_refillFor ht

/-- What the loop of READ_VLC does with one more level: it stops at an entry that is no sentinel, and else consumes the
level's bits and looks the sub-table up (42_vlc.md R111). -/
theorem vlcWalk_succ_ok {table : Word64} {tlen more : Nat} {p q : VlcPoint} :
    vlcWalk table tlen (more + 1) p = .ok q ↔
      (0 ≤ p.entry.len ∧ q = p) ∨
      (p.entry.len < 0 ∧ p.reader.checkRange p.width = .ok () ∧ -p.entry.len ≤ 32 ∧
        ∃ r, (p.reader.dropBits p.width).vlcLookup table tlen (-p.entry.len).toNat p.entry.sym = .ok r ∧
          vlcWalk table tlen more r = .ok q) := by
  rw [vlcWalk]
  split
  · rename_i hneg
    rw [except_bind_ok]
    constructor
    · rintro ⟨_, h1, h⟩
      split at h
      · cases h
      · rename_i hw
        obtain ⟨r, h2, h⟩ := except_bind_ok.mp h
        exact .inr ⟨hneg, h1, by omega, r, h2, h⟩
    · rintro (⟨h, _⟩ | ⟨_, h1, hw, r, h2, h⟩)
      · omega
      · exact ⟨(), h1, by rw [if_neg (by omega)]; exact except_bind_ok.mpr ⟨r, h2, h⟩⟩
  · rename_i hneg
    constructor
    · intro h
      cases h
      exact .inl ⟨by omega, rfl⟩
    · rintro (⟨_, rfl⟩ | ⟨h, _⟩)
      · rfl
      · exact absurd h hneg

theorem cursorFrame_vlcWalk {table : Word64} {tlen more : Nat} {p q : VlcPoint}
    (h : vlcWalk table tlen more p = .ok q) : cursorFrame p.reader q.reader := by
  induction more generalizing p with
  | zero =>
    cases h
    exact cursorFrame_refl _
  | succ more ih =>
    rcases vlcWalk_succ_ok.mp h with ⟨_, rfl⟩ | ⟨_, _, _, r, hr, h⟩
    · exact cursorFrame_refl _
    · exact cursorFrame_trans (cursorFrame_trans (cursorFrame_dropBits _ _) (cursorFrame_vlcLookup hr)) (ih h)

theorem cursorFrame_skipToBoundary {s t : State} (h : s.skipToBoundary = .ok t) : cursorFrame s t := by
  unfold State.skipToBoundary at h
  split at h
  · exact cursorFrame_skipBits h
  · cases h
    exact cursorFrame_refl _

/-- What one more pass of SKIP_1STOP_8DATA does (41_reader_extract.md R100). -/
theorem State.skipGroups_succ_ok {s : State} {passes : Nat} {r : Bool × State} :
    s.skipGroups (passes + 1) = .ok r ↔
      ∃ v u, s.takeBit = .ok (v, u) ∧
        ((v = 0 ∧ r = (true, u)) ∨
          (v ≠ 0 ∧ ∃ t, u.skipBits 8 = .ok t ∧
            ((t.left ≤ 0 ∧ r = (false, t)) ∨ (0 < t.left ∧ t.skipGroups passes = .ok r)))) := by
  rw [State.skipGroups, except_bind_ok]
  constructor
  · rintro ⟨⟨v, u⟩, h1, h⟩
    refine ⟨v, u, h1, ?_⟩
    dsimp only at h
    split at h
    · rename_i hv
      cases h
      exact .inl ⟨hv, rfl⟩
    · rename_i hv
      obtain ⟨t, h2, h⟩ := except_bind_ok.mp h
      refine .inr ⟨hv, t, h2, ?_⟩
      split at h
      · rename_i hl
        cases h
        exact .inl ⟨hl, rfl⟩
      · rename_i hl
        exact .inr ⟨by omega, h⟩
  · rintro ⟨v, u, h1, h⟩
    refine ⟨(v, u), h1, ?_⟩
    dsimp only
    rcases h with ⟨hv, rfl⟩ | ⟨hv, t, h2, h⟩
    · rw [if_pos hv]
      rfl
    · rw [if_neg hv]
      refine except_bind_ok.mpr ⟨t, h2, ?_⟩
      rcases h with ⟨hl, rfl⟩ | ⟨hl, h⟩
      · rw [if_pos hl]
        rfl
      · rw [if_neg (by omega)]
        exact h

theorem cursorFrame_skipGroups {s : State} {passes : Nat} {r : Bool × State} (h : s.skipGroups passes = .ok r) :
    cursorFrame s r.2 := by
  induction passes generalizing s with
  | zero =>
    cases h
    exact cursorFrame_refl _
  | succ passes ih =>
    obtain ⟨v, u, h1, h⟩ := State.skipGroups_succ_ok.mp h
    have hu : cursorFrame s u := cursorFrame_takeBit (r := (v, u)) h1
    rcases h with ⟨_, rfl⟩ | ⟨_, t, h2, h⟩
    · exact hu
    · have ht := cursorFrame_trans hu (cursorFrame_skipBits h2)
      rcases h with ⟨_, rfl⟩ | ⟨_, h⟩
      · exact ht
      · exact cursorFrame_trans ht (ih h)

/-! ### The host port -/

/-- The offset of an access to the register block is the offset from BSR_BASE (10_state.md R22). -/
theorem State.portOffset_base (s : State) (off : Nat) (h : off < 2 ^ 64) :
    s.portOffset (s.params.bsrBase + BitVec.ofNat 64 off) = off := by
  unfold State.portOffset
  rw [show s.params.bsrBase + BitVec.ofNat 64 off - s.params.bsrBase = BitVec.ofNat 64 off by
    rw [BitVec.add_comm, BitVec.add_sub_cancel]]
  exact Nat.mod_eq_of_lt h

end Sys2Proof.Machine
end

