-- ==== Sys2Proof/Laws/Cursor.lean ====
section
/-! SUPPORT. What dropping bits and the two refills do to the bits the cache shows, to the position, and to the order of the
stream in the cache (10_state.md R16 to R18, 20_memory.md R52). -/

namespace Sys2Proof.Machine

/-! ### Aligned caches -/

/-- An aligned cache is one that shows a 0 bit at every place from VALID on (10_state.md R18). -/
theorem State.cacheAligned_iff (s : State) (hv : s.valid.toNat ≤ 64) :
    s.cacheAligned = true ↔ ∀ i, s.valid.toNat ≤ i → i < 64 → s.nextBit i = false := by
  unfold State.cacheAligned State.nextBit
  cases s.params.endian with
  | le =>
    simp only [decide_eq_true_eq]
    constructor
    · intro h i hi _
      exact Nat.testBit_lt_two_pow (Nat.lt_of_lt_of_le h (Nat.pow_le_pow_right (by decide) hi))
    · intro h
      refine Nat.lt_pow_two_of_testBit _ fun i hi => ?_
      by_cases h64 : i < 64
      · exact h i hi h64
      · exact BitVec.getLsbD_of_ge _ _ (by omega)
  | be =>
    simp only [decide_eq_true_eq]
    constructor
    · intro h i hi h64
      have hb : (s.cache.toNat % 2 ^ (64 - s.valid.toNat)).testBit (63 - i) = false := by rw [h]; exact Nat.zero_testBit _
      rw [Nat.testBit_mod_two_pow] at hb
      rw [show decide (63 - i < 64 - s.valid.toNat) = true from decide_eq_true (by omega), Bool.true_and] at hb
      exact hb
    · intro h
      refine Nat.eq_of_testBit_eq fun i => ?_
      rw [Nat.testBit_mod_two_pow, Nat.zero_testBit]
      by_cases hi : i < 64 - s.valid.toNat
      · have hb := h (63 - i) (by omega) (by omega)
        rw [show 63 - (63 - i) = i by omega] at hb
        rw [show decide (i < 64 - s.valid.toNat) = true from decide_eq_true hi, Bool.true_and]
        exact hb
      · simp [hi]

theorem State.nextBit_beyond {s : State} (hv : s.valid.toNat ≤ 64) (ha : s.cacheAligned = true) {i : Nat}
    (hi : s.valid.toNat ≤ i) (h64 : i < 64) : s.nextBit i = false := (s.cacheAligned_iff hv).mp ha i hi h64

theorem State.nextBit_advancePtr (s : State) (k i : Nat) : (s.advancePtr k).nextBit i = s.nextBit i := by
  unfold State.nextBit
  rw [cursorFrame_params (cursorFrame_advancePtr s k), State.advancePtr_cache]

/-! ### Drop -/

theorem State.dropBits_bitCount (s : State) (n : Nat) : (s.dropBits n).valid.toNat = s.valid.toNat - n := by
  have := s.valid.isLt
  unfold State.dropBits
  dsimp only
  split
  · exact Nat.mod_eq_of_lt (by omega)
  · show 0 = _
    omega

/-- `Drop(n)` advances the position by `n`, but not past the bits it has. -/
theorem State.dropBits_tell (s : State) (n : Nat) :
    (s.dropBits n).tell = s.tell + (min n s.valid.toNat : Nat) := by
  unfold State.tell
  rw [State.dropBits_bitCount, State.dropBits_ptrOff]
  omega

/-- `Drop(n)` moves the shown bits forward by `n`. -/
theorem State.dropBits_nextBit (s : State) (n i : Nat) (hi : i < 64) :
    (s.dropBits n).nextBit i = (decide (i + n < 64) && s.nextBit (i + n)) := by
  unfold State.nextBit State.dropBits
  cases s.params.endian with
  | le =>
    dsimp only
    rw [BitVec.getLsbD_ushiftRight, Nat.add_comm n i]
    by_cases h : i + n < 64
    · simp [h]
    · simp [h, BitVec.getLsbD_of_ge s.cache (i + n) (by omega)]
  | be =>
    dsimp only
    rw [BitVec.getLsbD_shiftLeft]
    by_cases h : i + n < 64
    · have h1 : 63 - i - n = 63 - (i + n) := by omega
      have h2 : ¬ 63 - i < n := by omega
      simp [h, h1, h2, show 63 - i < 64 by omega]
    · simp [h, show 63 - i < n by omega]

theorem State.dropBits_cacheAligned {s : State} (hv : s.valid.toNat ≤ 64) (ha : s.cacheAligned = true) (n : Nat) :
    (s.dropBits n).cacheAligned = true := by
  refine (State.cacheAligned_iff _ (by rw [State.dropBits_bitCount]; omega)).mpr fun i hi h64 => ?_
  rw [State.dropBits_bitCount] at hi
  rw [State.dropBits_nextBit s n i h64]
  by_cases h : i + n < 64
  · rw [State.nextBit_beyond hv ha (by omega) h, Bool.and_false]
  · simp [h]

/-- `Drop(n)` keeps the stream in order. -/
theorem State.dropBits_streamOrdered {s : State} (hv : s.valid.toNat ≤ 64) (ht : 0 ≤ s.tell)
    (ho : s.streamOrdered = true) (n : Nat) : (s.dropBits n).streamOrdered = true := by
  refine (State.streamOrdered_iff _).mpr fun i hi => ?_
  rw [State.dropBits_bitCount] at hi
  rw [State.dropBits_nextBit s n i (by omega), State.nextBit_eq_streamBit s ho (i + n) (by omega),
    cursorFrame_streamBit (cursorFrame_dropBits s n), State.dropBits_tell]
  have h1 : (s.tell + ((min n s.valid.toNat : Nat) : Int)).toNat + i = s.tell.toNat + (i + n) := by omega
  rw [h1, decide_eq_true (show i + n < 64 by omega), Bool.true_and]

/-! ### Refill64 -/

/-- The reader a `Refill64` that is not suppressed leaves (20_memory.md R44). -/
def State.refilled64 (s : State) : State :=
  ({ s with cache := s.chunkWord (s.windowBytes s.ptrOff.toNat 8), valid := 64 } : State).advancePtr 8

theorem cursorFrame_refilled64 (s : State) : cursorFrame s s.refilled64 :=
  cursorFrame_trans (by rfl) (cursorFrame_advancePtr _ 8)

theorem State.refilled64_valid (s : State) : s.refilled64.valid.toNat = 64 := by
  unfold State.refilled64
  rw [State.advancePtr_valid]
  rfl

theorem State.refilled64_ptrOff (s : State) (hp : s.ptrOff.toNat + 8 < 2 ^ 64) :
    s.refilled64.ptrOff.toNat = s.ptrOff.toNat + 8 := State.advancePtr_toNat hp

/-- With an empty cache `Refill64` leaves the position where it was. -/
theorem State.refilled64_tell (s : State) (hp : s.ptrOff.toNat + 8 < 2 ^ 64) :
    s.refilled64.tell = 8 * (s.ptrOff.toNat : Int) := by
  unfold State.tell
  rw [State.refilled64_valid, State.refilled64_ptrOff s hp]
  omega

/-- `Refill64` shows the 64 stream bits from byte PTR_OFF on. -/
theorem State.refilled64_nextBit (s : State) (i : Nat) (hi : i < 64) :
    s.refilled64.nextBit i = s.streamBit (8 * s.ptrOff.toNat + i) := by
  unfold State.refilled64
  rw [State.nextBit_advancePtr]
  have h := s.chunkWord_windowBytes s.ptrOff.toNat 8 i (Nat.le_refl 8) hi
  unfold State.nextBit
  cases he : s.params.endian <;> simpa [he] using h

theorem State.refilled64_cacheAligned (s : State) : s.refilled64.cacheAligned = true := by
  refine (State.cacheAligned_iff _ (Nat.le_of_eq s.refilled64_valid)).mpr fun i hi h64 => ?_
  rw [State.refilled64_valid] at hi
  omega

theorem State.refilled64_streamOrdered (s : State) (hp : s.ptrOff.toNat + 8 < 2 ^ 64) :
    s.refilled64.streamOrdered = true := by
  refine (State.streamOrdered_iff _).mpr fun i hi => ?_
  rw [State.refilled64_valid] at hi
  rw [State.refilled64_nextBit s i hi, State.refilled64_tell s hp,
    cursorFrame_streamBit (cursorFrame_refilled64 s)]
  have : (8 * (s.ptrOff.toNat : Int)).toNat = 8 * s.ptrOff.toNat := by omega
  rw [this]

/-- What `Refill64` can do, in one line (20_memory.md R44). -/
theorem State.refill64_eq {s t : State} :
    s.refill64 = .ok t ↔
      (s.atEnd = true ∧ t = s) ∨
      (s.atEnd = false ∧ s.ptrOff.toNat + 8 ≤ s.byteLen.toNat + s.params.pad ∧ t = s.refilled64) :=
  State.refill64_ok

/-! ### Refill32 -/

/-- The reader a `Refill32` that is not suppressed leaves (20_memory.md R45). -/
def State.refilled32 (s : State) : State :=
  ({ s with
    cache := s.appendedCache (s.chunkWord (s.windowBytes s.ptrOff.toNat 4))
    valid := BitVec.ofNat 7 (s.valid.toNat + 32) } : State).advancePtr 4

theorem cursorFrame_refilled32 (s : State) : cursorFrame s s.refilled32 :=
  cursorFrame_trans (by rfl) (cursorFrame_advancePtr _ 4)

theorem State.refilled32_valid (s : State) (hv : s.valid.toNat ≤ 32) :
    s.refilled32.valid.toNat = s.valid.toNat + 32 := by
  unfold State.refilled32
  rw [State.advancePtr_valid]
  exact Nat.mod_eq_of_lt (by omega)

theorem State.refilled32_ptrOff (s : State) (hp : s.ptrOff.toNat + 4 < 2 ^ 64) :
    s.refilled32.ptrOff.toNat = s.ptrOff.toNat + 4 := State.advancePtr_toNat hp

/-- `Refill32` leaves the position where it was. -/
theorem State.refilled32_tell (s : State) (hv : s.valid.toNat ≤ 32) (hp : s.ptrOff.toNat + 4 < 2 ^ 64) :
    s.refilled32.tell = s.tell := by
  unfold State.tell
  rw [State.refilled32_valid s hv, State.refilled32_ptrOff s hp]
  omega

/-- `Refill32` leaves the bits the cache showed and shows the 32 stream bits from byte PTR_OFF on behind them. -/
theorem State.refilled32_nextBit (s : State) (hv : s.valid.toNat ≤ 32) (i : Nat) (hi : i < 64)
    (hz : s.valid.toNat ≤ i → s.nextBit i = false) :
    s.refilled32.nextBit i =
      if i < s.valid.toNat then s.nextBit i
      else decide (i < s.valid.toNat + 32) && s.streamBit (8 * s.ptrOff.toNat + (i - s.valid.toNat)) := by
  unfold State.refilled32
  rw [State.nextBit_advancePtr]
  have hw : (s.chunkWord (s.windowBytes s.ptrOff.toNat 4)).toNat < 2 ^ 32 := by
    have := s.chunkWord_toNat_lt (s.windowBytes s.ptrOff.toNat 4)
    rwa [State.windowBytes_length] at this
  have hbit := s.chunkWord_windowBytes s.ptrOff.toNat 4 (i - s.valid.toNat) (by decide)
  have hhigh : ∀ j, 32 ≤ j → (s.chunkWord (s.windowBytes s.ptrOff.toNat 4)).getLsbD j = false := by
    intro j hj
    exact Nat.testBit_lt_two_pow (Nat.lt_of_lt_of_le hw (Nat.pow_le_pow_right (by decide) hj))
  unfold State.nextBit at hz ⊢
  unfold State.appendedCache
  cases he : s.params.endian with
  | le =>
    simp only [he] at hbit hz ⊢
    rw [BitVec.getLsbD_or, BitVec.getLsbD_shiftLeft]
    by_cases h1 : i < s.valid.toNat
    · simp [h1]
    · rw [hz (by omega)]
      by_cases h2 : i < s.valid.toNat + 32
      · simp [h1, h2, hi, hbit (by omega)]
      · simp [h1, h2, hi, hhigh (i - s.valid.toNat) (by omega)]
  | be =>
    simp only [he] at hbit hz ⊢
    rw [BitVec.getLsbD_or, BitVec.getLsbD_shiftLeft]
    by_cases h1 : i < s.valid.toNat
    · have h3 : 32 ≤ 63 - i - (32 - s.valid.toNat) := by omega
      simp [h1, hhigh _ h3]
    · rw [hz (by omega)]
      by_cases h2 : i < s.valid.toNat + 32
      · have h3 : 63 - i - (32 - s.valid.toNat) = 8 * 4 - 1 - (i - s.valid.toNat) := by omega
        have h4 : ¬ 63 - i < 32 - s.valid.toNat := by omega
        rw [h3, hbit (by omega)]
        simp [h1, h2, h4, show 63 - i < 64 by omega]
      · have h4 : 63 - i < 32 - s.valid.toNat := by omega
        simp [h1, h2, h4]

theorem State.refilled32_cacheAligned {s : State} (hv : s.valid.toNat ≤ 32) (ha : s.cacheAligned = true) :
    s.refilled32.cacheAligned = true := by
  refine (State.cacheAligned_iff _ (by rw [State.refilled32_valid s hv]; omega)).mpr fun i hi h64 => ?_
  rw [State.refilled32_valid s hv] at hi
  rw [State.refilled32_nextBit s hv i h64 fun h => State.nextBit_beyond (by omega) ha h h64, if_neg (by omega)]
  simp [show ¬ i < s.valid.toNat + 32 by omega]

/-- `Refill32` keeps the stream in order. -/
theorem State.refilled32_streamOrdered {s : State} (hv : s.valid.toNat ≤ 32) (ht : s.valid.toNat ≤ 8 * s.ptrOff.toNat)
    (hp : s.ptrOff.toNat + 4 < 2 ^ 64) (ha : s.cacheAligned = true) (ho : s.streamOrdered = true) :
    s.refilled32.streamOrdered = true := by
  refine (State.streamOrdered_iff _).mpr fun i hi => ?_
  rw [State.refilled32_valid s hv] at hi
  rw [State.refilled32_nextBit s hv i (by omega) fun h => State.nextBit_beyond (by omega) ha h (by omega),
    State.refilled32_tell s hv hp, cursorFrame_streamBit (cursorFrame_refilled32 s)]
  split
  · rename_i h
    exact State.nextBit_eq_streamBit s ho i h
  · rename_i h
    have : 8 * s.ptrOff.toNat + (i - s.valid.toNat) = s.tell.toNat + i := by
      unfold State.tell
      omega
    rw [this]
    simp [hi]

/-- What `Refill32` can do, in one line (20_memory.md R45). -/
theorem State.refill32_eq {s t : State} :
    s.refill32 = .ok t ↔
      (s.atEnd = true ∧ t = s) ∨
      (s.atEnd = false ∧ s.ptrOff.toNat + 4 ≤ s.byteLen.toNat + s.params.pad ∧ t = s.refilled32) :=
  State.refill32_ok

end Sys2Proof.Machine
end

