-- ==== Sys2Proof/Laws/Output.lean ====
section
/-! SUPPORT. What the loops of the idct_2d commands do to memory: which bytes each leaves alone, what each writes, and that
the memory keeps its canonical form. -/

namespace Sys2Proof.Machine

/-! ### Canonical memory -/

/-- The memory is canonical and lies in the address space. -/
theorem State.memoryOk_iff (s : State) :
    s.memoryOk = true ↔ s.mem.wf = true ∧ s.mem.below (2 ^ s.params.addrW) = true := by
  simp [State.memoryOk]

theorem State.memoryOk_writeByte {s : State} (a : Nat) (b : Byte) (h : s.memoryOk = true) :
    (s.writeByte a b).memoryOk = true := by
  obtain ⟨h1, h2⟩ := s.memoryOk_iff.mp h
  exact (State.memoryOk_iff _).mpr ⟨Memory.wf_write _ _ _ h1, Memory.below_write _ _ _ _ h2 (s.wrapAddr_lt a)⟩

theorem State.memoryOk_forgetByte {s : State} (a : Nat) (h : s.memoryOk = true) : (s.forgetByte a).memoryOk = true := by
  obtain ⟨h1, h2⟩ := s.memoryOk_iff.mp h
  exact (State.memoryOk_iff _).mpr ⟨Memory.wf_forget _ _ _ h1, Memory.below_forget _ _ _ _ h2 (s.wrapAddr_lt a)⟩

theorem State.memoryOk_forgetBytes {s : State} (a n : Nat) (h : s.memoryOk = true) :
    (s.forgetBytes a n).memoryOk = true := by
  induction n with
  | zero => exact h
  | succ n ih => exact State.memoryOk_forgetByte _ ih

/-! ### Destination samples -/

/-- Overwriting samples changes the memory alone. -/
theorem State.putSamples_frame (s : State) (dst : Word64) (stride : BitVec 16) (r : List Int) (n : Nat) :
    s.putSamples dst stride r n = { s with mem := (s.putSamples dst stride r n).mem } := by
  induction n with
  | zero => rfl
  | succ n ih =>
    rw [State.putSamples]
    generalize s.putSamples dst stride r n = t at ih
    rw [ih]
    rfl

theorem State.addSamples_frame (s : State) (dst : Word64) (stride : BitVec 16) (r : List Int) (n : Nat) :
    s.addSamples dst stride r n = { s with mem := (s.addSamples dst stride r n).mem } := by
  induction n with
  | zero => rfl
  | succ n ih =>
    rw [State.addSamples]
    generalize s.addSamples dst stride r n = t at ih
    rw [ih]
    rfl

theorem State.memoryOk_putSamples {s : State} (dst : Word64) (stride : BitVec 16) (r : List Int) (n : Nat)
    (h : s.memoryOk = true) : (s.putSamples dst stride r n).memoryOk = true := by
  induction n with
  | zero => exact h
  | succ n ih => exact State.memoryOk_writeByte _ _ ih

theorem State.memoryOk_addSamples {s : State} (dst : Word64) (stride : BitVec 16) (r : List Int) (n : Nat)
    (h : s.memoryOk = true) : (s.addSamples dst stride r n).memoryOk = true := by
  induction n with
  | zero => exact h
  | succ n ih => exact State.memoryOk_writeByte _ _ ih

theorem State.putSamples_wrapAddr (s : State) (dst : Word64) (stride : BitVec 16) (r : List Int) (n a : Nat) :
    (s.putSamples dst stride r n).wrapAddr a = s.wrapAddr a := by
  rw [State.putSamples_frame]
  rfl

theorem State.addSamples_wrapAddr (s : State) (dst : Word64) (stride : BitVec 16) (r : List Int) (n a : Nat) :
    (s.addSamples dst stride r n).wrapAddr a = s.wrapAddr a := by
  rw [State.addSamples_frame]
  rfl

/-- A byte that is none of the first `n` samples reads as before. -/
theorem State.putSamples_outside (s : State) (dst : Word64) (stride : BitVec 16) (r : List Int) (n a : Nat)
    (h : ∀ i, i < n → s.wrapAddr a ≠ s.wrapAddr (dstAddr dst stride i)) :
    (s.putSamples dst stride r n).readByte a = s.readByte a := by
  induction n with
  | zero => rfl
  | succ n ih =>
    rw [State.putSamples, State.readByte_writeByte]
    simp only [State.putSamples_wrapAddr]
    rw [if_neg (h n (Nat.lt_succ_self n))]
    exact ih fun i hi => h i (Nat.lt_succ_of_lt hi)

theorem State.addSamples_outside (s : State) (dst : Word64) (stride : BitVec 16) (r : List Int) (n a : Nat)
    (h : ∀ i, i < n → s.wrapAddr a ≠ s.wrapAddr (dstAddr dst stride i)) :
    (s.addSamples dst stride r n).readByte a = s.readByte a := by
  induction n with
  | zero => rfl
  | succ n ih =>
    rw [State.addSamples]
    rw [State.readByte_writeByte]
    simp only [State.addSamples_wrapAddr]
    rw [if_neg (h n (Nat.lt_succ_self n))]
    exact ih fun i hi => h i (Nat.lt_succ_of_lt hi)

/-- Where the first `n` samples have `n` addresses, sample `i` becomes its clipped residual. -/
theorem State.putSamples_inside (s : State) (dst : Word64) (stride : BitVec 16) (r : List Int) (n i : Nat) (hi : i < n)
    (h : ∀ j k, j < n → k < n → s.wrapAddr (dstAddr dst stride j) = s.wrapAddr (dstAddr dst stride k) → j = k) :
    (s.putSamples dst stride r n).readByte (dstAddr dst stride i) = clip8 (r.getD i 0) := by
  induction n with
  | zero => omega
  | succ n ih =>
    rw [State.putSamples, State.readByte_writeByte]
    simp only [State.putSamples_wrapAddr]
    by_cases he : i = n
    · rw [if_pos (by rw [he]), he]
    · rw [if_neg fun h' => he (h i n hi (Nat.lt_succ_self n) h')]
      exact ih (by omega) fun j k hj hk => h j k (by omega) (by omega)

/-- Where the first `n` samples have `n` addresses, sample `i` becomes its old value plus its residual, clipped. -/
theorem State.addSamples_inside (s : State) (dst : Word64) (stride : BitVec 16) (r : List Int) (n i : Nat) (hi : i < n)
    (h : ∀ j k, j < n → k < n → s.wrapAddr (dstAddr dst stride j) = s.wrapAddr (dstAddr dst stride k) → j = k) :
    (s.addSamples dst stride r n).readByte (dstAddr dst stride i) =
      clip8 (((s.readByte (dstAddr dst stride i)).toNat : Int) + r.getD i 0) := by
  induction n with
  | zero => omega
  | succ n ih =>
    rw [State.addSamples]
    rw [State.readByte_writeByte]
    simp only [State.addSamples_wrapAddr]
    by_cases he : i = n
    · rw [if_pos (by rw [he]), he, State.addSamples_outside]
      intro j hj h'
      exact absurd (h n j (Nat.lt_succ_self n) (by omega) h') (by omega)
    · rw [if_neg fun h' => he (h i n hi (Nat.lt_succ_self n) h')]
      exact ih (by omega) fun j k hj hk => h j k (by omega) (by omega)

/-- With `State.samplesApart` and a legal stride the 64 samples have 64 addresses. -/
theorem State.samples_distinct (s : State) (dst : Word64) (stride : BitVec 16) (hs : 8 ≤ stride.toNat)
    (h : s.samplesApart stride = true) :
    ∀ j k, j < 64 → k < 64 → s.wrapAddr (dstAddr dst stride j) = s.wrapAddr (dstAddr dst stride k) → j = k := by
  have hd : 7 * stride.toNat + 8 ≤ 2 ^ s.params.addrW := of_decide_eq_true h
  have hwrap : ∀ m d x y : Nat, x < m → y < m → (d + x) % m = (d + y) % m → x = y := by
    intro m d x y hx hy he
    have : x % m = y % m := Nat.ModEq.add_left_cancel' d he
    rwa [Nat.mod_eq_of_lt hx, Nat.mod_eq_of_lt hy] at this
  intro j k hj hk he
  have hb : ∀ i, i < 64 → i / 8 * stride.toNat + i % 8 < 2 ^ s.params.addrW := by
    intro i hi
    have : i / 8 * stride.toNat ≤ 7 * stride.toNat := Nat.mul_le_mul_right _ (by omega)
    omega
  have he' := hwrap _ dst.toNat _ _ (hb j hj) (hb k hk) (by
    rw [← Nat.add_assoc, ← Nat.add_assoc]
    exact he)
  have hrow : j / 8 = k / 8 := by
    rcases Nat.lt_trichotomy (j / 8) (k / 8) with hlt | heq | hlt
    · have := Nat.mul_le_mul_right stride.toNat (show j / 8 + 1 ≤ k / 8 from hlt)
      rw [Nat.add_mul] at this
      omega
    · exact heq
    · have := Nat.mul_le_mul_right stride.toNat (show k / 8 + 1 ≤ j / 8 from hlt)
      rw [Nat.add_mul] at this
      omega
  rw [hrow] at he'
  omega

/-! ### Coefficients -/

theorem State.writeCoef_frame (s : State) (blk : Word64) (k : Nat) (v : Int) :
    s.writeCoef blk k v = { s with mem := (s.writeCoef blk k v).mem } := rfl

theorem State.memoryOk_writeCoef {s : State} (blk : Word64) (k : Nat) (v : Int) (h : s.memoryOk = true) :
    (s.writeCoef blk k v).memoryOk = true := State.memoryOk_writeByte _ _ (State.memoryOk_writeByte _ _ h)

/-- What one coefficient write does to a byte. -/
theorem State.readByte_writeCoef (s : State) (blk : Word64) (k a : Nat) (v : Int) :
    (s.writeCoef blk k v).readByte a =
      if s.wrapAddr a = s.wrapAddr (blk.toNat + 2 * k + 1) then highByte v
      else if s.wrapAddr a = s.wrapAddr (blk.toNat + 2 * k) then lowByte v
      else s.readByte a := by
  unfold State.writeCoef
  rw [State.readByte_writeByte, State.readByte_writeByte]
  rfl

theorem State.writeAssigned_frame (s : State) (blk : Word64) (out : List (Nat × Int)) (n : Nat) :
    s.writeAssigned blk out n = { s with mem := (s.writeAssigned blk out n).mem } := by
  induction n with
  | zero => rfl
  | succ n ih =>
    rw [State.writeAssigned]
    generalize s.writeAssigned blk out n = t at ih
    split
    · rw [ih]
      rfl
    · exact ih

theorem State.memoryOk_writeAssigned {s : State} (blk : Word64) (out : List (Nat × Int)) (n : Nat)
    (h : s.memoryOk = true) : (s.writeAssigned blk out n).memoryOk = true := by
  induction n with
  | zero => exact h
  | succ n ih =>
    rw [State.writeAssigned]
    split
    · exact State.memoryOk_writeCoef _ _ _ ih
    · exact ih

/-- A byte that belongs to none of the first `n` coefficients reads as before. -/
theorem State.writeAssigned_outside (s : State) (blk : Word64) (out : List (Nat × Int)) (n a : Nat)
    (h : ∀ j, j < 2 * n → s.wrapAddr a ≠ s.wrapAddr (blk.toNat + j)) :
    (s.writeAssigned blk out n).readByte a = s.readByte a := by
  induction n with
  | zero => rfl
  | succ n ih =>
    have hframe := State.writeAssigned_frame s blk out n
    have hw : ∀ x, (s.writeAssigned blk out n).wrapAddr x = s.wrapAddr x := by
      intro x
      rw [hframe]
      rfl
    rw [State.writeAssigned]
    split
    · rw [State.readByte_writeCoef]
      simp only [hw]
      rw [if_neg (show s.wrapAddr a ≠ s.wrapAddr (blk.toNat + 2 * n + 1) from h (2 * n + 1) (by omega)),
        if_neg (h (2 * n) (by omega))]
      exact ih fun j hj => h j (by omega)
    · exact ih fun j hj => h j (by omega)

/-- A 16-bit value comes back from the two bytes it is stored in (43_reconstruction.md R121, R122). -/
theorem sext_lowByte_highByte (v : Int) (h1 : -32768 ≤ v) (h2 : v ≤ 32767) : sext 16 (le16 (lowByte v) (highByte v)) = v := by
  have hl : (lowByte v).toNat = (v % 256).toNat := by
    unfold lowByte
    rw [BitVec.toNat_ofInt]
    rfl
  have hh : (highByte v).toNat = (v / 256 % 256).toNat := by
    unfold highByte asr
    rw [BitVec.toNat_ofInt]
    rfl
  have hm : le16 (lowByte v) (highByte v) = (v % 65536).toNat := by
    unfold le16
    rw [hl, hh]
    omega
  unfold sext
  rw [hm]
  have ht : ((v % 65536).toNat).testBit 15 = decide (v < 0) := by
    rw [Nat.testBit_eq_decide_div_mod_eq, decide_eq_decide]
    omega
  rw [ht]
  split
  · rename_i hneg
    have : v < 0 := of_decide_eq_true hneg
    push_cast
    omega
  · rename_i hneg
    have : ¬ v < 0 := fun hh => hneg (decide_eq_true hh)
    omega

/-- The clipped value as a number (00_scope.md R9). -/
theorem clip8_toNat (v : Int) : ((clip8 v).toNat : Int) = min (max v 0) 255 := by
  unfold clip8
  rw [BitVec.toNat_ofInt]
  omega

/-! ### The scan of DEQUANT -/

/-- The scan loop faults exactly where it meets a zero matrix entry at a non-zero coefficient (43_reconstruction.md R122). -/
theorem State.dequantScan_error {s : State} {blk mat : Word64} {f : AcQuant} {q : Nat} {ks : List Nat}
    {out : List (Nat × Int)} {c : Cause} :
    s.dequantScan blk mat f q ks out = .error c ↔
      (∃ k ∈ ks, s.coef blk k ≠ 0 ∧ s.matEntry mat k = 0) ∧ c = .paramRange := by
  induction ks generalizing out with
  | nil => exact ⟨fun h => (nomatch h), fun ⟨⟨_, h, _⟩, _⟩ => (nomatch h)⟩
  | cons k ks ih =>
    rw [State.dequantScan]
    split
    · rename_i hc
      rw [ih]
      constructor
      · rintro ⟨⟨k', hk', h⟩, hcc⟩
        exact ⟨⟨k', .tail _ hk', h⟩, hcc⟩
      · rintro ⟨⟨k', hk', h⟩, hcc⟩
        rcases List.mem_cons.mp hk' with rfl | hk'
        · exact absurd hc h.1
        · exact ⟨⟨k', hk', h⟩, hcc⟩
    · rename_i hc
      split
      · rename_i hm
        constructor
        · intro h
          cases h
          exact ⟨⟨k, .head _, hc, hm⟩, rfl⟩
        · rintro ⟨_, rfl⟩
          rfl
      · rename_i hm
        rw [ih]
        constructor
        · rintro ⟨⟨k', hk', h⟩, hcc⟩
          exact ⟨⟨k', .tail _ hk', h⟩, hcc⟩
        · rintro ⟨⟨k', hk', h⟩, hcc⟩
          rcases List.mem_cons.mp hk' with rfl | hk'
          · exact absurd h.2 hm
          · exact ⟨⟨k', hk', h⟩, hcc⟩

/-- What the scan loop assigns: at a scanned position with a non-zero coefficient the AC function's value, elsewhere what
stood there before (43_reconstruction.md R122). -/
theorem State.dequantScan_lookup {s : State} {blk mat : Word64} {f : AcQuant} {q : Nat} {ks : List Nat}
    {out res : List (Nat × Int)} (h : s.dequantScan blk mat f q ks out = .ok res) (k : Nat) :
    lookupAt res k =
      if k ∈ ks ∧ s.coef blk k ≠ 0 then some (acQuant f (s.coef blk k) q (s.matEntry mat k)) else lookupAt out k := by
  induction ks generalizing out with
  | nil =>
    cases h
    simp
  | cons k' ks ih =>
    rw [State.dequantScan] at h
    split at h
    · rename_i hc
      rw [ih h]
      by_cases he : k = k'
      · subst he
        simp [hc]
      · simp [he]
    · rename_i hc
      split at h
      · cases h
      · rw [ih h]
        by_cases he : k = k'
        · subst he
          simp [hc, lookupAt]
        · simp [he, lookupAt, Ne.symm he]

end Sys2Proof.Machine
end

