-- ==== Sys2Proof/Laws/PerInstr.lean ====
section
/-! SUPPORT. The lemmas per instruction: the opcode field of every command's packet (30_encoding.md R62, R69). -/

namespace Sys2Proof

/-- The opcode field of a command word does not see a field placed above it. -/
theorem opField_or_fieldAt (cmd : Word32) (s : Nat) (hs : 6 ≤ s) {w : Nat} (v : BitVec w) :
    opField (cmd ||| fieldAt s v) = opField cmd := by
  refine BitVec.eq_of_getLsbD_eq fun i hi => ?_
  unfold opField fieldAt
  simp only [BitVec.getLsbD_extractLsb', BitVec.getLsbD_or, BitVec.getLsbD_shiftLeft]
  simp [show i < s by omega]

theorem opField_or_flagAt (cmd : Word32) (s : Nat) (hs : 6 ≤ s) (b : Bool) :
    opField (cmd ||| flagAt s b) = opField cmd := opField_or_fieldAt cmd s hs _

/-- The opcode field of a command word that holds only an opcode. -/
theorem opField_fieldAt (op : BitVec 6) : opField (fieldAt 0 op) = op := by
  unfold opField fieldAt
  refine BitVec.eq_of_getLsbD_eq fun i hi => ?_
  simp only [BitVec.getLsbD_extractLsb', BitVec.getLsbD_shiftLeft, BitVec.getLsbD_setWidth]
  simp [hi, show i < 32 by omega]

namespace Laws.OpcodeField

/-- The packet of the command carries the command's opcode in CMD[5:0]. -/
def Statement (i : Instr) : Prop := opField (encode i).cmd = i.opcode

theorem init (buf nbits : Word64) : Statement (.init buf nbits) := opField_fieldAt _
theorem readBit : Statement .readBit := opField_fieldAt _
theorem read (n : BitVec 7) : Statement (.read n) := (opField_or_fieldAt _ 6 (by decide) n).trans (opField_fieldAt _)
theorem readNz (n : BitVec 7) : Statement (.readNz n) := (opField_or_fieldAt _ 6 (by decide) n).trans (opField_fieldAt _)
theorem read63 (n : BitVec 7) : Statement (.read63 n) := (opField_or_fieldAt _ 6 (by decide) n).trans (opField_fieldAt _)
theorem read64 (n : BitVec 7) : Statement (.read64 n) := (opField_or_fieldAt _ 6 (by decide) n).trans (opField_fieldAt _)
theorem readSigned (n : BitVec 7) : Statement (.readSigned n) :=
  (opField_or_fieldAt _ 6 (by decide) n).trans (opField_fieldAt _)
theorem peek (n : BitVec 7) : Statement (.peek n) := (opField_or_fieldAt _ 6 (by decide) n).trans (opField_fieldAt _)
theorem peekSigned (n : BitVec 7) : Statement (.peekSigned n) :=
  (opField_or_fieldAt _ 6 (by decide) n).trans (opField_fieldAt _)
theorem skip (n : Word64) : Statement (.skip n) := opField_fieldAt _
theorem seek (pos : Word64) : Statement (.seek pos) := opField_fieldAt _
theorem align : Statement .align := opField_fieldAt _
theorem tell : Statement .tell := opField_fieldAt _
theorem size : Statement .size := opField_fieldAt _
theorem left : Statement .left := opField_fieldAt _
theorem readVlc (n : BitVec 7) (d : BitVec 2) (table tlen : Word64) : Statement (.readVlc n d table tlen) :=
  ((opField_or_fieldAt _ 13 (by decide) d).trans (opField_or_fieldAt _ 6 (by decide) n)).trans (opField_fieldAt _)
theorem skip1stop8data : Statement .skip1stop8data := opField_fieldAt _
theorem dequant (n : BitVec 7) (intra nonlin losslessDc : Bool) (qscale : BitVec 5) (dcScale : BitVec 8)
    (blk mat : Word64) : Statement (.dequant n intra nonlin losslessDc qscale dcScale blk mat) := by
  unfold Statement encode encodeCmd
  rw [opField_or_fieldAt _ 21 (by decide), opField_or_fieldAt _ 16 (by decide), opField_or_flagAt _ 15 (by decide),
    opField_or_flagAt _ 14 (by decide), opField_or_flagAt _ 13 (by decide), opField_or_fieldAt _ 6 (by decide)]
  exact opField_fieldAt _
theorem idctPut (stride : BitVec 16) (blk dst : Word64) : Statement (.idctPut stride blk dst) :=
  (opField_or_fieldAt _ 16 (by decide) stride).trans (opField_fieldAt _)
theorem idctAdd (n : BitVec 7) (stride : BitVec 16) (blk dst : Word64) : Statement (.idctAdd n stride blk dst) :=
  ((opField_or_fieldAt _ 16 (by decide) stride).trans (opField_or_fieldAt _ 6 (by decide) n)).trans (opField_fieldAt _)
theorem idctDcAdd (stride : BitVec 16) (blk dst : Word64) : Statement (.idctDcAdd stride blk dst) :=
  (opField_or_fieldAt _ 16 (by decide) stride).trans (opField_fieldAt _)

end Laws.OpcodeField

end Sys2Proof
end

