-- ==== Sys2Proof/Laws/Port.lean ====
section
/-! SUPPORT. The host port by bytes: what a register byte, a host write and a host read are (10_state.md R22). -/

namespace Sys2Proof.Machine

/-! ### Bytes of a value -/

theorem byteOf_getLsbD {w : Nat} (v : BitVec w) (j i : Nat) :
    (byteOf v j).getLsbD i = (decide (i < 8) && v.getLsbD (8 * j + i)) := by
  simp [byteOf, BitVec.getLsbD_extractLsb']

/-- Replacing one byte changes that byte alone. -/
theorem byteOf_withByte {w : Nat} (v : BitVec w) (j k : Nat) (b : Byte) (hj : 8 * j + 8 ≤ w) :
    byteOf (withByte v j b) k = if k = j then b else byteOf v k := by
  refine BitVec.eq_of_getLsbD_eq fun i hi => ?_
  rw [byteOf_getLsbD]
  simp only [withByte, BitVec.getLsbD_or, BitVec.getLsbD_and, BitVec.getLsbD_not, BitVec.getLsbD_shiftLeft,
    BitVec.getLsbD_setWidth]
  by_cases hk : k = j
  · subst hk
    have h1 : 8 * k + i < w := by omega
    have h2 : i < w := by omega
    have h3 : (255#8).getLsbD i = true := by
      have : ∀ i : Fin 8, (255#8).getLsbD i = true := by decide
      exact this ⟨i, hi⟩
    simp [hi, h1, h2, h3]
  · rw [if_neg hk, byteOf_getLsbD]
    by_cases h1 : 8 * k + i < w
    · by_cases h2 : 8 * k + i < 8 * j
      · simp [hi, h1, h2]
      · have h3 : 8 ≤ 8 * k + i - 8 * j := by omega
        simp [hi, h1, h2, BitVec.getLsbD_of_ge b _ h3, BitVec.getLsbD_of_ge (255#8) _ h3]
    · simp [h1, BitVec.getLsbD_of_ge v _ (by omega : w ≤ 8 * k + i)]

/-- A value is its bytes. -/
theorem eq_of_byteOf_eq {n : Nat} {v u : BitVec (8 * n)} (h : ∀ j, j < n → byteOf v j = byteOf u j) : v = u := by
  refine BitVec.eq_of_getLsbD_eq fun i hi => ?_
  have hb := congrArg (fun b => b.getLsbD (i % 8)) (h (i / 8) (by omega))
  have hm : i % 8 < 8 := by omega
  have hd : 8 * (i / 8) + i % 8 = i := by omega
  simp only [byteOf_getLsbD, hm, hd, decide_true, Bool.true_and] at hb
  exact hb

/-- The bytes of a word assembled least significant byte first. -/
theorem byteOf_leWord (bs : List Byte) (j : Nat) (hj : j < 8) : byteOf (leWord bs) j = bs.getD j 0 := by
  refine BitVec.eq_of_getLsbD_eq fun i hi => ?_
  rw [byteOf_getLsbD, leWord_getLsbD]
  have h1 : (8 * j + i) / 8 = j := by omega
  have h2 : (8 * j + i) % 8 = i := by omega
  simp [hi, h1, h2, show 8 * j + i < 64 by omega]

/-! ### Accesses to the register block -/

/-- The lanes of an access that starts at an offset from BSR_BASE. -/
theorem State.portLane_base (s : State) (off j : Nat) (h : off + j < 2 ^ 64) :
    s.portLane (s.params.bsrBase + BitVec.ofNat 64 off) j = off + j := by
  unfold State.portLane
  rw [show s.params.bsrBase + BitVec.ofNat 64 off + BitVec.ofNat 64 j = s.params.bsrBase + BitVec.ofNat 64 (off + j) by
    rw [BitVec.add_assoc, BitVec.ofNat_add]]
  exact s.portOffset_base (off + j) h

theorem State.portReaches_iff (s : State) (limit : Nat) (addr : Word64) (width : PortWidth) :
    s.portReaches limit addr width = true ↔ ∃ j, j < width.bytes ∧ s.portLane addr j < limit := by
  simp [State.portReaches]

theorem PortWidth.bytes_pos (width : PortWidth) : 0 < width.bytes := by cases width <;> decide

theorem PortWidth.bytes_le (width : PortWidth) : width.bytes ≤ 8 := by cases width <;> decide

/-- An access that starts inside the block reaches the bytes below a limit exactly when it starts below it. -/
theorem State.portReaches_base (s : State) (limit off : Nat) (width : PortWidth) (h : off + 8 ≤ 2 ^ 64) :
    s.portReaches limit (s.params.bsrBase + BitVec.ofNat 64 off) width = decide (off < limit) := by
  have hw := width.bytes_le
  rw [Bool.eq_iff_iff, State.portReaches_iff, decide_eq_true_eq]
  constructor
  · rintro ⟨j, hj, hl⟩
    rw [s.portLane_base off j (by omega)] at hl
    omega
  · intro hl
    exact ⟨0, width.bytes_pos, by rw [s.portLane_base off 0 (by omega)]; omega⟩

/-- A host write of one byte changes CMD, ARG_A and ARG_B at most. -/
theorem State.portWriteByte_frame (s : State) (o : Nat) (b : Byte) :
    s.portWriteByte o b =
      { s with cmd := (s.portWriteByte o b).cmd, argA := (s.portWriteByte o b).argA, argB := (s.portWriteByte o b).argB } := by
  unfold State.portWriteByte
  split
  · rfl
  · split
    · rfl
    · split <;> rfl

/-- What a host write of one byte does to the bytes of CMD, ARG_A and ARG_B. -/
theorem State.portWriteByte_spec (s : State) (o : Nat) (b : Byte) :
    (∀ j, j < 4 → byteOf (s.portWriteByte o b).cmd j = if j = o then b else byteOf s.cmd j) ∧
    (∀ j, j < 8 → byteOf (s.portWriteByte o b).argA j = if 0x08 + j = o then b else byteOf s.argA j) ∧
    (∀ j, j < 8 → byteOf (s.portWriteByte o b).argB j = if 0x10 + j = o then b else byteOf s.argB j) := by
  unfold State.portWriteByte
  split
  · rename_i h
    refine ⟨fun j _ => byteOf_withByte s.cmd o j b (by omega), fun j _ => ?_, fun j _ => ?_⟩ <;> rw [if_neg (by omega)]
  · split
    · rename_i h
      refine ⟨fun j _ => by rw [if_neg (by omega)], fun j _ => ?_, fun j _ => by rw [if_neg (by omega)]⟩
      rw [byteOf_withByte s.argA (o - 0x08) j b (by omega)]
      exact if_congr (by omega) rfl rfl
    · split
      · rename_i h
        refine ⟨fun j _ => by rw [if_neg (by omega)], fun j _ => by rw [if_neg (by omega)], fun j _ => ?_⟩
        rw [byteOf_withByte s.argB (o - 0x10) j b (by omega)]
        exact if_congr (by omega) rfl rfl
      · refine ⟨fun j _ => ?_, fun j _ => ?_, fun j _ => ?_⟩ <;> rw [if_neg (by omega)]

/-- A host write changes CMD, ARG_A and ARG_B at most. -/
theorem State.portWriteBytes_frame (s : State) (addr v : Word64) (n : Nat) :
    s.portWriteBytes addr v n =
      { s with
        cmd := (s.portWriteBytes addr v n).cmd
        argA := (s.portWriteBytes addr v n).argA
        argB := (s.portWriteBytes addr v n).argB } := by
  induction n with
  | zero => rfl
  | succ n ih =>
    rw [State.portWriteBytes, State.portWriteByte_frame]
    generalize s.portWriteBytes addr v n = t at ih ⊢
    rw [ih]

@[simp] theorem State.portWriteBytes_params (s : State) (addr v : Word64) (n : Nat) :
    (s.portWriteBytes addr v n).params = s.params := by rw [State.portWriteBytes_frame]
@[simp] theorem State.portWriteBytes_buf (s : State) (addr v : Word64) (n : Nat) :
    (s.portWriteBytes addr v n).buf = s.buf := by rw [State.portWriteBytes_frame]
@[simp] theorem State.portWriteBytes_byteLen (s : State) (addr v : Word64) (n : Nat) :
    (s.portWriteBytes addr v n).byteLen = s.byteLen := by rw [State.portWriteBytes_frame]
@[simp] theorem State.portWriteBytes_ptrOff (s : State) (addr v : Word64) (n : Nat) :
    (s.portWriteBytes addr v n).ptrOff = s.ptrOff := by rw [State.portWriteBytes_frame]
@[simp] theorem State.portWriteBytes_cache (s : State) (addr v : Word64) (n : Nat) :
    (s.portWriteBytes addr v n).cache = s.cache := by rw [State.portWriteBytes_frame]
@[simp] theorem State.portWriteBytes_valid (s : State) (addr v : Word64) (n : Nat) :
    (s.portWriteBytes addr v n).valid = s.valid := by rw [State.portWriteBytes_frame]
@[simp] theorem State.portWriteBytes_size (s : State) (addr v : Word64) (n : Nat) :
    (s.portWriteBytes addr v n).size = s.size := by rw [State.portWriteBytes_frame]
@[simp] theorem State.portWriteBytes_res (s : State) (addr v : Word64) (n : Nat) :
    (s.portWriteBytes addr v n).res = s.res := by rw [State.portWriteBytes_frame]
@[simp] theorem State.portWriteBytes_status (s : State) (addr v : Word64) (n : Nat) :
    (s.portWriteBytes addr v n).status = s.status := by rw [State.portWriteBytes_frame]
@[simp] theorem State.portWriteBytes_fault (s : State) (addr v : Word64) (n : Nat) :
    (s.portWriteBytes addr v n).fault = s.fault := by rw [State.portWriteBytes_frame]
@[simp] theorem State.portWriteBytes_mem (s : State) (addr v : Word64) (n : Nat) :
    (s.portWriteBytes addr v n).mem = s.mem := by rw [State.portWriteBytes_frame]
@[simp] theorem State.portWriteBytes_inbox (s : State) (addr v : Word64) (n : Nat) :
    (s.portWriteBytes addr v n).inbox = s.inbox := by rw [State.portWriteBytes_frame]
@[simp] theorem State.portWriteBytes_progIndex (s : State) (addr v : Word64) (n : Nat) :
    (s.portWriteBytes addr v n).progIndex = s.progIndex := by rw [State.portWriteBytes_frame]
@[simp] theorem State.portWriteBytes_hostData (s : State) (addr v : Word64) (n : Nat) :
    (s.portWriteBytes addr v n).hostData = s.hostData := by rw [State.portWriteBytes_frame]
@[simp] theorem State.portWriteBytes_freeCount (s : State) (addr v : Word64) (n : Nat) :
    (s.portWriteBytes addr v n).freeCount = s.freeCount := by rw [State.portWriteBytes_frame]

/-- A host write, said on the bytes of CMD, ARG_A and ARG_B: every byte the access covers gets the byte of the value that lies
as far above its lowest byte as the register byte lies above the start of the access, every other byte stays. -/
theorem State.portWriteBytes_spec (s : State) (off : Nat) (v : Word64) (n : Nat) (h : off + n ≤ 2 ^ 64) :
    (∀ j, j < 4 → byteOf (s.portWriteBytes (s.params.bsrBase + BitVec.ofNat 64 off) v n).cmd j =
      if off ≤ j ∧ j < off + n then byteOf v (j - off) else byteOf s.cmd j) ∧
    (∀ j, j < 8 → byteOf (s.portWriteBytes (s.params.bsrBase + BitVec.ofNat 64 off) v n).argA j =
      if off ≤ 0x08 + j ∧ 0x08 + j < off + n then byteOf v (0x08 + j - off) else byteOf s.argA j) ∧
    (∀ j, j < 8 → byteOf (s.portWriteBytes (s.params.bsrBase + BitVec.ofNat 64 off) v n).argB j =
      if off ≤ 0x10 + j ∧ 0x10 + j < off + n then byteOf v (0x10 + j - off) else byteOf s.argB j) := by
  induction n with
  | zero => exact ⟨fun j _ => (if_neg (by omega)).symm, fun j _ => (if_neg (by omega)).symm, fun j _ => (if_neg (by omega)).symm⟩
  | succ n ih =>
    obtain ⟨hc, ha, hb⟩ := ih (by omega)
    have grow : ∀ (x : Nat) (y : Byte), (if x = off + n then byteOf v n
        else if off ≤ x ∧ x < off + n then byteOf v (x - off) else y) =
        if off ≤ x ∧ x < off + (n + 1) then byteOf v (x - off) else y := by
      intro x y
      by_cases hx : x = off + n
      · rw [if_pos hx, if_pos (by omega), show x - off = n by omega]
      · rw [if_neg hx]
        exact if_congr (by omega) rfl rfl
    simp only [State.portWriteBytes, s.portLane_base off n (by omega)]
    obtain ⟨hc', ha', hb'⟩ := (s.portWriteBytes (s.params.bsrBase + BitVec.ofNat 64 off) v n).portWriteByte_spec (off + n)
      (byteOf v n)
    exact ⟨fun j hj => by rw [hc' j hj, hc j hj, grow], fun j hj => by rw [ha' j hj, ha j hj, grow],
      fun j hj => by rw [hb' j hj, hb j hj, grow]⟩

/-- A host read, said on its bytes. -/
theorem State.portRead_spec (s : State) (off : Nat) (width : PortWidth) (h : off + 8 ≤ 2 ^ 64) (j : Nat) (hj : j < 8) :
    byteOf (s.portRead (s.params.bsrBase + BitVec.ofNat 64 off) width) j =
      if j < width.bytes then s.portByte (off + j) else 0 := by
  unfold State.portRead
  rw [byteOf_leWord _ j hj]
  by_cases hw : j < width.bytes
  · rw [if_pos hw]
    simp [hw, s.portLane_base off j (by omega)]
  · rw [if_neg hw]
    simp [hw]

end Sys2Proof.Machine
end

