-- ==== Sys2Proof/Machine/HostDuties.lean ====
section
/-! DEFINITION. What the spec asks of the host around the block: the name of an instance (00_scope.md R2) and the commands of
one macroblock (43_reconstruction.md R136 to R138). No command uses these; they say which commands a host issues. -/

namespace Sys2Proof.Machine

/-- The identity string of an instance, `BSR-<E>-<M>` (00_scope.md R2). -/
def identity (p : Params) : String :=
  "BSR-" ++ (match p.endian with | .le => "LE" | .be => "BE") ++ (if p.checked then "-C" else "-U")

/-- The chroma formats (43_reconstruction.md R138). -/
inductive Chroma where
  /-- 4:2:0. -/
  | yuv420
  /-- 4:2:2. -/
  | yuv422
  /-- 4:4:4. -/
  | yuv444
  deriving DecidableEq, Repr

/-- The chroma blocks of a macroblock, both planes together (43_reconstruction.md R138). -/
def chromaBlocks : Chroma → Nat
  | .yuv420 => 2
  | .yuv422 => 4
  | .yuv444 => 8

/-- `stride_b`: the line stride of a block's destination, doubled for field DCT (43_reconstruction.md R137). -/
def blockStride (fieldDct : Bool) (linesize : Nat) : Nat := if fieldDct then 2 * linesize else linesize

/-- `dct_offset`: how far the lower blocks, or the second field's, lie from the upper ones (43_reconstruction.md R137). -/
def dctOffset (fieldDct : Bool) (linesize : Nat) : Nat := if fieldDct then linesize else 8 * linesize

/-- The destinations of four blocks in the 2×2 arrangement of the luma plane (43_reconstruction.md R137, R138). -/
def lumaOrigins (fieldDct : Bool) (linesize origin : Nat) : List Nat :=
  [origin, origin + 8, origin + dctOffset fieldDct linesize, origin + dctOffset fieldDct linesize + 8]

/-- The destinations of the blocks of one chroma plane (43_reconstruction.md R138). -/
def chromaOrigins (c : Chroma) (fieldDct : Bool) (linesize origin : Nat) : List Nat :=
  match c with
  | .yuv420 => [origin]
  | .yuv422 => [origin, origin + dctOffset fieldDct linesize]
  | .yuv444 => lumaOrigins fieldDct linesize origin

/-- What the host knows of one coded block of a macroblock (43_reconstruction.md R136). -/
structure BlockJob where
  /-- LAST + 1. -/
  n : BitVec 7
  /-- The "non-linear quant" flag. -/
  nonlin : Bool
  /-- The "lossless DC" flag, of intra blocks only. -/
  losslessDc : Bool
  /-- QSCALE. -/
  qscale : BitVec 5
  /-- The DC scale of the block's plane. -/
  dcScale : BitVec 8
  /-- The coefficient block. -/
  blk : Word64
  /-- The quantization matrix. -/
  mat : Word64
  /-- The destination and its stride. -/
  dst : Word64
  /-- `stride_b`. -/
  stride : BitVec 16
  deriving DecidableEq, Repr

/-- The commands for one block of a macroblock that is not skipped (43_reconstruction.md R136). -/
def blockCommands (intra : Bool) (b : BlockJob) : List Instr :=
  if intra then
    [.dequant b.n true b.nonlin b.losslessDc b.qscale b.dcScale b.blk b.mat, .idctPut b.stride b.blk b.dst]
  else if lastOf b.n ≥ 0 then
    [.dequant b.n false b.nonlin false b.qscale b.dcScale b.blk b.mat, .idctAdd b.n b.stride b.blk b.dst]
  else []

/-- The commands for one macroblock: none if it is skipped (43_reconstruction.md R136). -/
def macroblockCommands (skipped intra : Bool) (blocks : List BlockJob) : List Instr :=
  if skipped then [] else blocks.flatMap (blockCommands intra)

end Sys2Proof.Machine
end

