-- ==== Sys2Proof/Tests/Slice0.lean ====
section
/-! SUPPORT. Named checks by evaluation: each range check refuses an ill-formed command, a hand-written word of every command
decodes, single steps give the values of spec/95_test_vectors.md, and a concrete state meets the hypotheses of every
statement that has some. -/

namespace Sys2Proof.Tests

open Sys2Proof Sys2Proof.Machine

/-! ### Well-formedness: one ill-formed command for each check of 30_encoding.md R70 -/

theorem test_illFormed_init : (Instr.init 0x1000 0x100000000).wellFormed = false := by decide
theorem test_illFormed_read : (Instr.read 33).wellFormed = false := by decide
theorem test_illFormed_readNz_low : (Instr.readNz 0).wellFormed = false := by decide
theorem test_illFormed_readNz_high : (Instr.readNz 33).wellFormed = false := by decide
theorem test_illFormed_read63 : (Instr.read63 64).wellFormed = false := by decide
theorem test_illFormed_read64 : (Instr.read64 65).wellFormed = false := by decide
theorem test_illFormed_readSigned_low : (Instr.readSigned 0).wellFormed = false := by decide
theorem test_illFormed_readSigned_high : (Instr.readSigned 33).wellFormed = false := by decide
theorem test_illFormed_peek : (Instr.peek 33).wellFormed = false := by decide
theorem test_illFormed_peekSigned_low : (Instr.peekSigned 0).wellFormed = false := by decide
theorem test_illFormed_peekSigned_high : (Instr.peekSigned 33).wellFormed = false := by decide
theorem test_illFormed_skip : (Instr.skip 0x100000000).wellFormed = false := by decide
theorem test_illFormed_seek : (Instr.seek 0x100000000).wellFormed = false := by decide
theorem test_illFormed_readVlc_low : (Instr.readVlc 0 1 0x2000 8).wellFormed = false := by decide
theorem test_illFormed_readVlc_high : (Instr.readVlc 33 1 0x2000 8).wellFormed = false := by decide
theorem test_illFormed_readVlc_depth : (Instr.readVlc 3 0 0x2000 8).wellFormed = false := by decide
theorem test_illFormed_dequant_n : (Instr.dequant 65 true false false 2 8 0 0).wellFormed = false := by decide
theorem test_illFormed_dequant_qscale : (Instr.dequant 1 true false false 0 8 0 0).wellFormed = false := by decide
theorem test_illFormed_dequant_lossless : (Instr.dequant 1 false false true 2 8 0 0).wellFormed = false := by decide
theorem test_illFormed_dequant_dcScale : (Instr.dequant 1 true false false 2 0 0 0).wellFormed = false := by decide
theorem test_illFormed_idctPut : (Instr.idctPut 7 0 0).wellFormed = false := by decide
theorem test_illFormed_idctAdd_stride : (Instr.idctAdd 1 7 0 0).wellFormed = false := by decide
theorem test_illFormed_idctAdd_n : (Instr.idctAdd 65 8 0 0).wellFormed = false := by decide
theorem test_illFormed_idctDcAdd : (Instr.idctDcAdd 7 0 0).wellFormed = false := by decide

/-! ### Decoding: words written out from the formats of 30_encoding.md R63 to R68 and R72 -/

theorem test_decode_init : decode ⟨0x00000001, 0x1000, 64⟩ = .ok (.init 0x1000 64) := by decide
theorem test_decode_readBit : decode ⟨0x00000002, 0, 0⟩ = .ok .readBit := by decide
/-- R72: `READ 5` is 0x00000143. -/
theorem test_decode_read : decode ⟨0x00000143, 0, 0⟩ = .ok (.read 5) := by decide
/-- `4 | 32 << 6`. -/
theorem test_decode_readNz : decode ⟨0x00000804, 0, 0⟩ = .ok (.readNz 32) := by decide
/-- `5 | 63 << 6`. -/
theorem test_decode_read63 : decode ⟨0x00000FC5, 0, 0⟩ = .ok (.read63 63) := by decide
/-- `6 | 64 << 6`. -/
theorem test_decode_read64 : decode ⟨0x00001006, 0, 0⟩ = .ok (.read64 64) := by decide
/-- `7 | 1 << 6`. -/
theorem test_decode_readSigned : decode ⟨0x00000047, 0, 0⟩ = .ok (.readSigned 1) := by decide
/-- R72: `PEEK 32` is 0x00000808. -/
theorem test_decode_peek : decode ⟨0x00000808, 0, 0⟩ = .ok (.peek 32) := by decide
/-- `9 | 8 << 6`. -/
theorem test_decode_peekSigned : decode ⟨0x00000209, 0, 0⟩ = .ok (.peekSigned 8) := by decide
theorem test_decode_skip : decode ⟨0x0000000A, 20, 0⟩ = .ok (.skip 20) := by decide
theorem test_decode_seek : decode ⟨0x0000000B, 100, 0⟩ = .ok (.seek 100) := by decide
theorem test_decode_align : decode ⟨0x0000000C, 0, 0⟩ = .ok .align := by decide
theorem test_decode_tell : decode ⟨0x0000000D, 0, 0⟩ = .ok .tell := by decide
theorem test_decode_size : decode ⟨0x0000000E, 0, 0⟩ = .ok .size := by decide
theorem test_decode_left : decode ⟨0x0000000F, 0, 0⟩ = .ok .left := by decide
/-- R72: `READ_VLC T, TLEN, 9, 2` is 0x00004250. -/
theorem test_decode_readVlc : decode ⟨0x00004250, 0x2000, 8⟩ = .ok (.readVlc 9 2 0x2000 8) := by decide
theorem test_decode_skip1stop8data : decode ⟨0x00000011, 0, 0⟩ = .ok .skip1stop8data := by decide
/-- R72: `DEQUANT A, B, last=0, q=2, dc=8, intra` is 0x01022060. -/
theorem test_decode_dequant :
    decode ⟨0x01022060, 0x3000, 0x3100⟩ = .ok (.dequant 1 true false false 2 8 0x3000 0x3100) := by decide
/-- `0x21 | 16 << 16`. -/
theorem test_decode_idctPut : decode ⟨0x00100021, 0x3000, 0x4000⟩ = .ok (.idctPut 16 0x3000 0x4000) := by decide
/-- R129: `IDCT_ADD A, B, 16, last=0` is 0x00100062. -/
theorem test_decode_idctAdd : decode ⟨0x00100062, 0x3000, 0x4000⟩ = .ok (.idctAdd 1 16 0x3000 0x4000) := by decide
/-- R72: `IDCT_DC_ADD A, B, 16` is 0x00100023. -/
theorem test_decode_idctDcAdd : decode ⟨0x00100023, 0x3000, 0x4000⟩ = .ok (.idctDcAdd 16 0x3000 0x4000) := by decide
/-- 1.3 (c): the lossless-DC form 0x0102A060 differs from 0x01022060 in bit 15 alone; bit 14 is NONLIN. -/
theorem test_decode_dequant_flags :
    decode ⟨0x0102A060, 0, 0⟩ = .ok (.dequant 1 true false true 2 8 0 0) ∧
    decode ⟨0x01026060, 0, 0⟩ = .ok (.dequant 1 true true false 2 8 0 0) := by decide
/-- R69: OP 0x00, 0x12 and 0x24 are reserved. R62: so is bit 13 of format N. -/
theorem test_decode_reserved :
    decode ⟨0x00000000, 0, 0⟩ = .error (.reservedOpcode 0x00) ∧ decode ⟨0x00000012, 0, 0⟩ = .error (.reservedOpcode 0x12) ∧
    decode ⟨0x00000024, 0, 0⟩ = .error (.reservedOpcode 0x24) ∧
    decode ⟨0x00002143, 0, 0⟩ = .error (.reservedBits 0x03) := by decide

/-! ### Small states -/

/-- The default instance with a bit order and a mode. -/
def instanceOf (e : Endian) (checked : Bool) : Params := { Config.defaultParams with endian := e, checked := checked }

/-- The bytes from an address upward, 0 bytes left out. -/
def cellsAt : Nat → List Byte → List Host.Cell
  | _, [] => []
  | a, b :: bs => if b = 0 then cellsAt (a + 1) bs else (a, b) :: cellsAt (a + 1) bs

/-- A block with some memory and no reader. -/
def memoryOnly (e : Endian) (cells : List Host.Cell) : State :=
  { State.initial (instanceOf e true) with mem := ⟨cells, []⟩ }

/-- A reader at position 0 over `bytes` at 0x1000, with its first 64 bits cached. -/
def readerOver (e : Endian) (checked : Bool) (bytes : List Byte) (bits : Nat) (cache : Word64) : State :=
  { State.initial (instanceOf e checked) with
    buf := 0x1000, byteLen := BitVec.ofNat 32 ((bits + 7) / 8), ptrOff := 8, cache := cache, valid := 64
    size := BitVec.ofNat 32 bits, mem := ⟨cellsAt 0x1000 bytes, []⟩ }

/-- The common stream of 40_reader_control.md. -/
def common : List Byte := [0x12, 0x34, 0x56, 0x78, 0x9A, 0xBC, 0xDE, 0xF0]

/-- The 16-byte stream of 95_test_vectors.md section 2.3. -/
def longer : List Byte := common ++ [0x11, 0x22, 0x33, 0x44, 0x55, 0x66, 0x77, 0x88]

def commonBe : State := readerOver .be true common 64 0x123456789ABCDEF0
def commonLe : State := readerOver .le true common 64 0xF0DEBC9A78563412
def longerBe : State := readerOver .be true longer 128 0x123456789ABCDEF0
def longerLe : State := readerOver .le true longer 128 0xF0DEBC9A78563412

/-- The unchecked reader of section 2.8: `12 34`, 12 bits. -/
def uncheckedBe : State := readerOver .be false [0x12, 0x34] 12 0x1234000000000000

/-- A reader whose first `n` cached bits are gone. -/
def after (n : Nat) (s : State) : State := s.dropBits n

/-- RES, STATUS, FAULT and Tell of a next state. -/
def seen (o : Host.Outcome State Fault Refusal) : Option (Word64 × Word32 × Word32 × Int) :=
  match o with
  | .next t => some (t.res, t.status, t.fault, t.tell)
  | .fault _ => none
  | .refused _ => none

/-- A value of a next state. -/
def seenAt {α : Type} (f : State → α) (o : Host.Outcome State Fault Refusal) : Option α :=
  match o with
  | .next t => some (f t)
  | .fault _ => none
  | .refused _ => none

/-! ### Single steps, from spec/95_test_vectors.md -/

/-- Section 2.2: the state after `INIT 0x1000, 64`. -/
theorem test_init_be :
    seenAt (fun t => (t.cache, t.valid, t.ptrOff, t.byteLen, t.size))
      (exec (.init 0x1000 64) (memoryOnly .be (cellsAt 0x1000 common))) =
      some (0x123456789ABCDEF0, 64, 8, 8, 64) := by decide
/-- R81: 2147483641 is above SIZE_MAX. -/
theorem test_init_invalid : seen (exec (.init 0x1000 2147483641) commonBe) = some (0, 1, 0, 0) := by decide
/-- Section 2.2. -/
theorem test_readBit : seenAt (fun t => (t.res, t.cache, t.valid)) (exec .readBit commonBe) =
    some (0, 0x2468ACF13579BDE0, 63) := by decide
theorem test_read_12 :
    seen (exec (.read 12) commonBe) = some (0x123, 0, 0, 12) ∧ seen (exec (.read 12) commonLe) = some (0x412, 0, 0, 12) := by
  decide
/-- R93: width 0 changes nothing. -/
theorem test_read_0 : seen (exec (.read 0) commonBe) = some (0, 0, 0, 0) := by decide
theorem test_readNz_4 :
    seen (exec (.readNz 4) commonBe) = some (0x1, 0, 0, 4) ∧ seen (exec (.readNz 4) commonLe) = some (0x2, 0, 0, 4) := by
  decide
/-- Section 2.3: READ_63 63 after READ 4, across the refill. -/
theorem test_read63_refill :
    seen (exec (.read63 63) (after 4 longerBe)) = some (0x11A2B3C4D5E6F780, 0, 0, 67) ∧
    seen (exec (.read63 63) (after 4 longerLe)) = some (0x1F0DEBC9A7856341, 0, 0, 67) := by decide
/-- Section 2.2: the same on the 8-byte stream, where the refill is suppressed. -/
theorem test_read63_exhausted :
    seen (exec (.read63 63) (after 4 commonBe)) = some (0x11A2B3C4D5E6F780, 0, 0, 64) ∧
    seen (exec (.read63 63) (after 4 commonLe)) = some (0x0F0DEBC9A7856341, 0, 0, 64) := by decide
/-- Section 2.3. -/
theorem test_read64_64 :
    seen (exec (.read64 64) longerBe) = some (0x123456789ABCDEF0, 0, 0, 64) ∧
    seen (exec (.read64 64) longerLe) = some (0xF0DEBC9A78563412, 0, 0, 64) := by decide
/-- Section 2.2: READ_SIGNED 8 after SKIP 32 gives -102. -/
theorem test_readSigned :
    seen (exec (.readSigned 8) (after 32 commonBe)) = some (0xFFFFFFFFFFFFFF9A, 0, 0, 40) ∧
    seen (exec (.readSigned 4) commonLe) = some (2, 0, 0, 4) := by decide
theorem test_peek :
    seen (exec (.peek 16) commonBe) = some (0x1234, 0, 0, 0) ∧ seen (exec (.peek 16) commonLe) = some (0x3412, 0, 0, 0) := by
  decide
theorem test_peekSigned :
    seen (exec (.peekSigned 8) (after 4 commonBe)) = some (35, 0, 0, 4) ∧
    seen (exec (.peekSigned 8) (after 32 commonLe)) = some (0xFFFFFFFFFFFFFF9A, 0, 0, 32) := by decide
/-- Section 2.5: SKIP 70 drains the cache, refills and drops 6 bits. -/
theorem test_skip_70 : seen (exec (.skip 70) longerBe) = some (0, 0, 0, 70) := by decide
/-- Section 2.4. -/
theorem test_seek_100 :
    seenAt (fun t => (t.ptrOff, t.valid, t.cache)) (exec (.seek 100) longerBe) = some (20, 60, 0x5667788000000000) ∧
    seenAt (fun t => (t.ptrOff, t.valid, t.cache)) (exec (.seek 100) longerLe) = some (20, 60, 0x0000000008877665) := by decide
/-- Section 2.2: ALIGN after READ 3. -/
theorem test_align : seen (exec .align (after 3 commonLe)) = some (0x1001, 0, 0, 8) := by decide
/-- R84 to R86: after READ 3 on the common stream. -/
theorem test_queries :
    seen (exec .tell (after 3 commonBe)) = some (3, 0, 0, 3) ∧ seen (exec .size (after 3 commonBe)) = some (64, 0, 0, 3) ∧
    seen (exec .left (after 3 commonBe)) = some (61, 0, 0, 3) := by decide
/-- Section 2.8: what a 12-bit unchecked stream refuses. -/
theorem test_unchecked :
    seen (exec (.read 1) (after 12 uncheckedBe)) = some (0, 3, 0x303, 12) ∧
    seen (exec (.peek 13) uncheckedBe) = some (0, 3, 0x803, 0) ∧ seen (exec (.seek 13) uncheckedBe) = some (0, 3, 0xB03, 0) ∧
    seen (exec .align (after 9 uncheckedBe)) = some (0, 3, 0xC03, 9) := by decide

/-- Table BE1 of section 1.2. -/
def tableBe1 : List Byte :=
  [0, 0, 1, 0, 0, 0, 1, 0, 0, 0, 1, 0, 0, 0, 1, 0, 1, 0, 2, 0, 1, 0, 2, 0, 2, 0, 3, 0, 3, 0, 3, 0]

/-- Table LE2 of section 1.2. -/
def tableLe2 : List Byte :=
  [0, 0, 1, 0, 1, 0, 2, 0, 0, 0, 1, 0, 4, 0, 0xFE, 0xFF, 2, 0, 2, 0, 4, 0, 1, 0, 3, 0, 2, 0, 4, 0, 1, 0]

/-- The BE reader of section 1.2 over `BB 00`, 9 bits, with table BE1 at 0x2000. -/
def vlcBe : State :=
  { readerOver .be true [0xBB, 0x00] 9 0xBB00000000000000 with mem := ⟨(0x1000, 0xBB) :: cellsAt 0x2000 tableBe1, []⟩ }

/-- The LE reader of section 1.2 over `1F 1B`, 14 bits, with table LE2 at 0x2000. -/
def vlcLe : State :=
  { readerOver .le true [0x1F, 0x1B] 14 0x1B1F with
    mem := ⟨(0x1000, 0x1F) :: (0x1001, 0x1B) :: cellsAt 0x2000 tableLe2, []⟩ }

/-- Section 1.2: the first symbols are 1 (code 10) and, over two levels, 4 (code 111) and 2 (code 1100). -/
theorem test_readVlc :
    seen (exec (.readVlc 3 1 0x2000 8) vlcBe) = some (1, 0, 0, 2) ∧
    seen (exec (.readVlc 2 2 0x2000 8) vlcLe) = some (4, 0, 0, 3) ∧
    seen (exec (.readVlc 2 2 0x2000 8) (after 3 vlcLe)) = some (2, 0, 0, 7) := by decide
/-- Section 3.1: the sentinel at the depth limit is FAULT 0x1004. -/
theorem test_readVlc_depth : seen (exec (.readVlc 2 1 0x2000 8) vlcLe) = some (0, 3, 0x1004, 0) := by decide
/-- R100: `80 40 00` ends at Tell 19. -/
theorem test_skip1stop8data :
    seen (exec .skip1stop8data (readerOver .be true [0x80, 0x40, 0x00] 24 0x8040000000000000)) = some (0, 0, 0, 19) := by decide
/-- R100: a stream of ones is INVALID_DATA. -/
theorem test_skip1stop8data_ones :
    seenAt (fun t => (t.res, t.status)) (exec .skip1stop8data (readerOver .be true [0xFF] 8 0xFF00000000000000)) =
      some (0, 1) := by decide

/-- The block of section 1.3: c[0] = 100 at 0x3000, a matrix that begins with 16 at 0x3100, a first pixel of 250 and a second
of 100 at 0x4000. -/
def blockState : State := memoryOnly .le [(0x3000, 100), (0x3100, 16), (0x4000, 250), (0x4001, 100)]

/-- Section 1.3 (a): the DC becomes 800. (c): with LOSSLESS_DC it stays 100. -/
theorem test_dequant_dc :
    seenAt (fun t => (t.coef 0x3000 0, t.coef 0x3000 1, t.res, t.status))
      (exec (.dequant 1 true false false 2 8 0x3000 0x3100) blockState) = some (800, 0, 0, 0) ∧
    seenAt (fun t => t.coef 0x3000 0) (exec (.dequant 1 true false true 2 8 0x3000 0x3100) blockState) = some 100 := by decide
/-- R122: a zero matrix entry at a processed position is FAULT 0x2006, and a DC outside int16 is FAULT 0x2005. -/
theorem test_dequant_faults :
    seen (exec (.dequant 1 false false false 2 0 0x3000 0x3200) blockState) = some (0, 3, 0x2006, 0) ∧
    seen (exec (.dequant 1 true false false 2 255 0x3001 0x3100) (memoryOnly .le [(0x3001, 0xFF), (0x3002, 0x7F)])) =
      some (0, 3, 0x2005, 0) := by decide

/-- A block at 0x3000 with c[0] = 800, a first pixel of 250 and a second of 100 at 0x4000. -/
def dc800 : State := memoryOnly .le [(0x3000, 0x20), (0x3001, 0x03), (0x4000, 250), (0x4001, 100)]

/-- Section 8.1: c0 = 800 puts 13 over a pixel; the byte after the row is untouched. -/
theorem test_idctPut :
    seenAt (fun t => (t.readByte 0x4001, t.readByte 0x4008)) (exec (.idctPut 16 0x3000 0x4000) dc800) =
      some (13, 0) := by decide +kernel
/-- Section 8.3: 250 + 13 saturates at 255, and 100 becomes 113. With N = 0 nothing changes. -/
theorem test_idctAdd :
    seenAt (fun t => (t.readByte 0x4000, t.readByte 0x4001)) (exec (.idctAdd 1 16 0x3000 0x4000) dc800) =
      some (255, 113) ∧
    seenAt (fun t => (t.readByte 0x4000, t.freeCount)) (exec (.idctAdd 0 16 0x3000 0x4000) dc800) = some (250, 0) := by
  decide +kernel
/-- Section 8.3: c0 = 100 adds 2. -/
theorem test_idctDcAdd :
    seenAt (fun t => (t.readByte 0x4000, t.readByte 0x4001)) (exec (.idctDcAdd 16 0x3000 0x4000) blockState) =
      some (252, 102) := by decide +kernel
/-- Section 8.1, c0 = 256 and c9 = 100: the first and the last row of the residuals. -/
theorem test_kernel_rows :
    (idctDefault ((256 :: List.replicate 8 0) ++ (100 :: List.replicate 54 0))).take 8 = [8, 7, 6, 5, 3, 2, 1, 0] ∧
    (idctDefault ((256 :: List.replicate 8 0) ++ (100 :: List.replicate 54 0))).drop 56 = [0, 1, 2, 3, 5, 6, 7, 8] := by
  decide
/-- Section 8.1, c0 = 1000 and c63 = 200: the first row. -/
theorem test_kernel_last :
    (idctDefault ((1000 :: List.replicate 62 0) ++ [200])).take 8 = [16, 15, 17, 14, 17, 14, 17, 15] := by decide

/-! ### The step, the host port and the host's own duties -/

/-- A block whose next host input is `h`. -/
def given (h : HostInput) (s : State) : State := { s with inbox := [h] }

/-- A faulted block. -/
def faultedState : State := { State.reset with fault := 0x303, status := 3 }

/-- R22, R61: writing CMD issues the packet, also where the access covers the reserved bytes behind it; the upper half of a
64-bit write there is ignored. -/
theorem test_step_cmdWrite :
    seen (step (given (.regWrite 0x00 .w32 0x303) commonBe)) = some (0x123, 0, 0, 12) ∧
    seen (step (given (.regWrite 0x00 .w64 0xFFFFFFFF00000303) commonBe)) = some (0x123, 0, 0, 12) := by decide
theorem test_step_argWrite :
    seenAt (fun t => (t.argA, t.progIndex)) (step (given (.regWrite 0x08 .w64 7) commonBe)) = some (7, 0) ∧
    seenAt (fun t => t.hostData) (step (given (.regRead 0x28 .w32) commonBe)) = some 0x400803 := by decide
/-- R22: registers are little-endian. Offset 0x0C is byte 4 of ARG_A, and a 64-bit read at STATUS has FAULT in its upper half. -/
theorem test_step_portBytes :
    seenAt (fun t => (t.argA, t.argB)) (step (given (.regWrite 0x0C .w8 0x5A) commonBe)) = some (0x5A00000000, 0) ∧
    seenAt (fun t => t.hostData) (step (given (.regRead 0x19 .w16) { commonBe with res := 0x0807060504030201 })) =
      some 0x0302 ∧
    seenAt (fun t => t.hostData) (step (given (.regRead 0x20 .w64) faultedState)) = some 0x30300000003 := by decide
/-- R143: a faulted block refuses; R166: reset clears FAULT. -/
theorem test_step_faulted :
    seen (step (given (.packet ⟨0x0000000D, 0, 0⟩) faultedState)) = some (0, 3, 0x303, 0) ∧
    seen (step (given .reset faultedState)) = some (0, 0, 0, 0) := by decide
/-- The host's fetch hook: the word it places is the packet the next step runs. -/
theorem test_withFetchWord :
    decodeTableWord 32 0x143 = some (.read 5) ∧ seen (step (commonBe.withFetchWord 32 0x303)) = some (0x123, 0, 0, 12) := by
  decide
/-- R2, R136, R138. -/
theorem test_hostDuties :
    identity Config.defaultParams = "BSR-LE-C" ∧
    macroblockCommands false false [⟨1, false, false, 2, 8, 0x3000, 0x3100, 0x4000, 16⟩] =
      [.dequant 1 false false false 2 8 0x3000 0x3100, .idctAdd 1 16 0x3000 0x4000] ∧
    macroblockCommands false false [⟨0, false, false, 2, 8, 0x3000, 0x3100, 0x4000, 16⟩] = [] ∧
    lumaOrigins true 16 0 = [0, 8, 16, 24] := by decide
theorem test_chromaOrigins (c : Chroma) (f : Bool) (l o : Nat) : 2 * (chromaOrigins c f l o).length = chromaBlocks c := by
  cases c <;> rfl

/-! ### Witnesses: a concrete state and operands that meet the hypotheses of each statement that has some -/

theorem witness_EncodeOfDecode :
    decode ⟨0x00000143, 7, 9⟩ = .ok (.read 5) ∧ usesArgA (.read 5) = false ∧ usesArgB (.read 5) = false ∧
    decode ⟨0x0000000A, 20, 9⟩ = .ok (.skip 20) ∧ usesArgA (.skip 20) = true ∧ usesArgB (.skip 20) = false := by decide

theorem witness_StepRunsDecodedPacket :
    (given (.packet ⟨0x00000143, 0, 0⟩) commonBe).inbox = .packet ⟨0x00000143, 0, 0⟩ :: [] ∧
    decode ⟨0x00000143, 0, 0⟩ = .ok (.read 5) := by decide

/-- A byte write at the top byte of CMD, a 64-bit write there that reaches ARG_A, and the 32-bit write. -/
theorem witness_CmdWriteIssuesPacket :
    (given (.regWrite 3 .w8 0) { commonBe with cmd := 0xFF000143 }).inbox =
      .regWrite (commonBe.params.bsrBase + BitVec.ofNat 64 3) .w8 0 :: [] ∧
    (∀ j, j < 4 → (0x00000143 : Word32).extractLsb' (8 * j) 8 =
      if 3 ≤ j ∧ j < 3 + PortWidth.w8.bytes then (0 : Word64).extractLsb' (8 * (j - 3)) 8
      else (0xFF000143 : Word32).extractLsb' (8 * j) 8) ∧
    (given (.regWrite 3 .w64 0x0302010000000000) { commonBe with cmd := 0xFF000143 }).inbox =
      .regWrite (commonBe.params.bsrBase + BitVec.ofNat 64 3) .w64 0x0302010000000000 :: [] ∧
    (∀ j, j < 8 → (0x030201 : Word64).extractLsb' (8 * j) 8 =
      if 8 + j < 3 + PortWidth.w64.bytes then (0x0302010000000000 : Word64).extractLsb' (8 * (8 + j - 3)) 8
      else commonBe.argA.extractLsb' (8 * j) 8) ∧
    decode ⟨0x00000143, 0x030201, commonBe.argB⟩ = .ok (.read 5) ∧
    (given (.regWrite 0 .w32 0x143) commonBe).inbox = .regWrite commonBe.params.bsrBase .w32 0x143 :: [] ∧
    decode ⟨(0x143 : Word64).setWidth 32, commonBe.argA, commonBe.argB⟩ = .ok (.read 5) := by decide

/-- As a packet and as a write of CMD, on a block that is not faulted and on one that is. -/
theorem witness_UnmatchedPacketFaults :
    (given (.packet ⟨0x3F, 0, 0⟩) commonBe).inbox = .packet ⟨0x3F, 0, 0⟩ :: [] ∧
    (given (.regWrite 0 .w32 0x3F) faultedState).inbox = .regWrite faultedState.params.bsrBase .w32 0x3F :: [] ∧
    decode ⟨0x3F, 0, 0⟩ = .error (.reservedOpcode 0x3F) ∧
    decode ⟨(0x3F : Word64).setWidth 32, faultedState.argA, faultedState.argB⟩ = .error (.reservedOpcode 0x3F) ∧
    commonBe.faulted = false ∧ faultedState.faulted = true := by decide

theorem witness_IllegalExactlyWhenOutOfRange :
    commonBe.faulted = false ∧ (∃ t, exec (.read 33) commonBe = .next t) ∧ (Instr.read 33).wellFormed = false ∧
    (∃ t, exec (.read 32) commonBe = .next t) ∧ (Instr.read 32).wellFormed = true :=
  ⟨by decide, ⟨_, rfl⟩, by decide, ⟨_, rfl⟩, by decide⟩

theorem witness_IdleBlockKeepsState : commonBe.inbox = [] := by decide

theorem witness_ProgramIndexCountsPackets :
    (∃ t, step (given (.packet ⟨0x0000000D, 0, 0⟩) commonBe) = .next t) ∧
    (given (.packet ⟨0x0000000D, 0, 0⟩) commonBe).packetNext = true ∧
    (∃ t, step (given .reset commonBe) = .next t) ∧ (given .reset commonBe).packetNext = false :=
  ⟨⟨_, rfl⟩, by decide, ⟨_, rfl⟩, by decide⟩

theorem witness_FaultIsSticky : faultedState.faulted = true := by decide

theorem witness_FaultsArePrecise :
    (∃ t, exec (.read 33) commonBe = .next t ∧ t.status = 3) ∧ (∃ t, exec .tell faultedState = .next t ∧ t.status = 3) :=
  ⟨⟨_, rfl, by decide⟩, ⟨_, rfl, by decide⟩⟩

theorem witness_ResetAloneClearsFault :
    (given .reset faultedState).inbox = .reset :: [] ∧
    (given (.packet ⟨0x0000000D, 0, 0⟩) faultedState).faulted = true ∧
    (∀ rest, (given (.packet ⟨0x0000000D, 0, 0⟩) faultedState).inbox ≠ .reset :: rest) ∧
    ∃ t, step (given (.packet ⟨0x0000000D, 0, 0⟩) faultedState) = .next t :=
  ⟨by decide, by decide, fun _ => nofun, ⟨_, rfl⟩⟩

/-- The first and the last offset, the two argument registers, and a byte of one. -/
theorem witness_PortWritesReachArguments :
    (given (.regWrite 0x04 .w64 7) commonBe).inbox = .regWrite (commonBe.params.bsrBase + BitVec.ofNat 64 0x04) .w64 7 :: [] ∧
    (given (.regWrite 0x08 .w64 7) commonBe).inbox = .regWrite (commonBe.params.bsrBase + BitVec.ofNat 64 0x08) .w64 7 :: [] ∧
    (given (.regWrite 0x10 .w64 7) commonBe).inbox = .regWrite (commonBe.params.bsrBase + BitVec.ofNat 64 0x10) .w64 7 :: [] ∧
    (given (.regWrite 0x17 .w8 7) commonBe).inbox = .regWrite (commonBe.params.bsrBase + BitVec.ofNat 64 0x17) .w8 7 :: [] ∧
    (given (.regWrite 0x3F .w32 7) commonBe).inbox =
      .regWrite (commonBe.params.bsrBase + BitVec.ofNat 64 0x3F) .w32 7 :: [] := by decide

/-- The first and the last byte of the block, a register, and a read over two registers. -/
theorem witness_PortReadsRegisters :
    0x00 + PortWidth.w8.bytes ≤ 0x40 ∧ 0x3F + PortWidth.w8.bytes ≤ 0x40 ∧ 0x20 + PortWidth.w32.bytes ≤ 0x40 ∧
    0x20 + PortWidth.w64.bytes ≤ 0x40 ∧
    (given (.regRead 0x00 .w8) commonBe).inbox = .regRead (commonBe.params.bsrBase + BitVec.ofNat 64 0x00) .w8 :: [] ∧
    (given (.regRead 0x3F .w8) commonBe).inbox = .regRead (commonBe.params.bsrBase + BitVec.ofNat 64 0x3F) .w8 :: [] ∧
    (given (.regRead 0x20 .w32) commonBe).inbox = .regRead (commonBe.params.bsrBase + BitVec.ofNat 64 0x20) .w32 :: [] ∧
    (given (.regRead 0x20 .w64) commonBe).inbox = .regRead (commonBe.params.bsrBase + BitVec.ofNat 64 0x20) .w64 :: [] := by
  decide

theorem witness_ConfigShowsParameters :
    commonBe.params.ok = true ∧ ∃ t, step (given (.packet ⟨0x0000000D, 0, 0⟩) commonBe) = .next t :=
  ⟨by decide, ⟨_, rfl⟩⟩

/-- A block with a 16-bit address space: its last address, and the first it does not have. -/
def smallMemory : State := State.initial { Config.defaultParams with addrW := 16 }

theorem witness_HostReachesMemory :
    (0xFFFF : Word64).toNat < 2 ^ smallMemory.params.addrW ∧ 2 ^ smallMemory.params.addrW ≤ (0x10000 : Word64).toNat ∧
    (given (.memWrite 0xFFFF 7) smallMemory).inbox = .memWrite 0xFFFF 7 :: [] ∧
    (given (.memRead 0xFFFF) smallMemory).inbox = .memRead 0xFFFF :: [] ∧
    (given (.memWrite 0x10000 7) smallMemory).inbox = .memWrite 0x10000 7 :: [] ∧
    (given (.memRead 0x10000) smallMemory).inbox = .memRead 0x10000 :: [] := by decide

theorem witness_ResetMeetsInvariant : Config.defaultParams.ok = true ∧ (instanceOf .be false).ok = true := by decide

theorem witness_StepKeepsInvariant :
    (given (.packet ⟨0x00000143, 0, 0⟩) commonBe).inv = true ∧
    ∃ t, step (given (.packet ⟨0x00000143, 0, 0⟩) commonBe) = .next t := ⟨by decide, ⟨_, rfl⟩⟩

theorem witness_ReaderKeepsStreamOrder :
    longerBe.inv = true ∧ longerBe.streamOrdered = true ∧ isReader (.read63 63) = true ∧
    ∃ t, exec (.read63 63) longerBe = .next t := ⟨by decide, by decide, by decide, ⟨_, rfl⟩⟩

theorem witness_PointerGrowsForward :
    longerBe.inv = true ∧ longerBe.ptrOff.toNat < 2 ^ 63 ∧ (∀ b n, Instr.skip 70 ≠ .init b n) ∧
    (∀ n, Instr.skip 70 ≠ .seek n) ∧ ∃ t, exec (.skip 70) longerBe = .next t :=
  ⟨by decide, by decide, fun _ _ => nofun, fun _ => nofun, ⟨_, rfl⟩⟩

theorem witness_OutcomesAreListed :
    commonBe.faulted = false ∧ (∃ t, exec (.init 0 8) commonBe = .next t ∧ t.status = 1) ∧
    (∃ t, exec (.read 8) commonBe = .next t ∧ t.status = 0) ∧ ∃ t, exec (.peek 13) uncheckedBe = .next t ∧ t.status = 3 :=
  ⟨by decide, ⟨_, rfl, by decide⟩, ⟨_, rfl, by decide⟩, ⟨_, rfl, by decide⟩⟩

theorem witness_ResultRegisterRule :
    (∃ t, exec (.read 33) commonBe = .next t ∧ t.status = 3) ∧ ∃ t, exec (.skip 3) commonBe = .next t ∧ t.status ≠ 3 :=
  ⟨⟨_, rfl, by decide⟩, ⟨_, rfl, by decide⟩⟩

theorem witness_ReaderWritesNoMemory :
    isReader (.read 8) = true ∧ ∃ t, exec (.read 8) commonBe = .next t := ⟨by decide, ⟨_, rfl⟩⟩

theorem witness_OutputStageIgnoresReader :
    isReader (.idctDcAdd 16 0x3000 0x4000) = false ∧ ∃ t, exec (.idctDcAdd 16 0x3000 0x4000) dc800 = .next t :=
  ⟨by decide, ⟨_, rfl⟩⟩

/-- The largest legal size, and the empty stream. -/
theorem witness_InitOpensReader :
    commonBe.params.ok = true ∧ commonBe.faulted = false ∧ (2147483640 : Word64).toNat ≤ Config.sizeMax ∧
    (0 : Word64).toNat ≤ Config.sizeMax ∧ (0x1000 : Word64).toNat % 2 ^ commonBe.params.addrW ≠ 0 := by decide

/-- The smallest size that is too large, and the null address. -/
theorem witness_InitRejectsBadStream :
    commonBe.faulted = false ∧ (2147483641 : Word64).toNat < 2 ^ 32 ∧ Config.sizeMax < (2147483641 : Word64).toNat ∧
    (64 : Word64).toNat < 2 ^ 32 ∧ (0 : Word64).toNat % 2 ^ commonBe.params.addrW = 0 := by decide

/-- SEEK to SIZE, in unchecked mode to the position after it, and in checked mode past it: to a start below BYTE_LEN and to one
that is not. -/
theorem witness_SeekReachesPosition :
    longerBe.inv = true ∧ longerBe.faulted = false ∧ (128 : Word64).toNat < 2 ^ 32 ∧
    (128 : Word64).toNat ≤ longerBe.size.toNat ∧
    uncheckedBe.inv = true ∧ uncheckedBe.faulted = false ∧ uncheckedBe.params.checked = false ∧
    uncheckedBe.size.toNat < (13 : Word64).toNat ∧
    longerBe.params.checked = true ∧ (63 : Word64).toNat < 64 ∧ 0 < longerBe.byteLen.toNat ∧
    (127 : Word64).toNat / 8 < longerBe.byteLen.toNat ∧ longerBe.byteLen.toNat ≤ (0xFFFFFFFF : Word64).toNat / 8 := by decide

/-- A signed read up to the end of the buffer after a peek and a read, and a READ_VLC whose lookahead ends there. -/
theorem witness_SeekAgreesWithInitAndSkip :
    longerBe.ready = true ∧ (100 : Word64).toNat ≤ longerBe.size.toNat ∧
    [Instr.peek 9, .read 12].all (fun j => (readsOrPeeks j).isSome) = true ∧ readsOrPeeks (.readSigned 16) = some 16 ∧
    ((2 : BitVec 7).toNat + 64 = 66) ∧
    ∃ t u v t' v' t'' v'', exec (.seek 100) longerBe = .next t ∧
      exec (.init longerBe.buf (longerBe.size.setWidth 64)) longerBe = .next u ∧ u.status = 0 ∧
      exec (.skip 100) u = .next v ∧ execAll [.peek 9, .read 12] t = some t' ∧ execAll [.peek 9, .read 12] v = some v' ∧
      t'.tell + ((16 : Nat) : Int) ≤ 8 * (longerBe.byteLen.toNat : Int) ∧
      exec (.readSigned 16) t' = .next t'' ∧ exec (.readSigned 16) v' = .next v'' ∧ t''.faulted = false ∧
      v''.faulted = false :=
  ⟨by decide, by decide, by decide, by decide, by decide, _, _, _, _, _, _, _, rfl, rfl, by decide, rfl, rfl, rfl, by decide,
    rfl, rfl, by decide, by decide⟩

/-- In unchecked mode the boundary 8 lies below SIZE = 12. -/
theorem witness_AlignReachesByteBoundary :
    (after 3 commonBe).inv = true ∧ (after 3 commonBe).faulted = false ∧ (after 3 commonBe).params.checked = true ∧
    (after 3 uncheckedBe).inv = true ∧ (after 3 uncheckedBe).faulted = false ∧
    8 * (((after 3 uncheckedBe).tell + 7) / 8) ≤ ((after 3 uncheckedBe).size.toNat : Int) := by decide

theorem witness_QueriesReturnPosition : commonBe.faulted = false := by decide

theorem witness_QueriesArePure : ∃ t, exec .tell commonBe = .next t := ⟨_, rfl⟩

theorem witness_TellPlusLeftIsSize :
    ∃ s a b c, exec (.read 5) commonBe = .next s ∧ s.faulted = false ∧ exec .tell s = .next a ∧ exec .left s = .next b ∧
      exec .size s = .next c := ⟨_, _, _, _, rfl, by decide, rfl, rfl, rfl⟩

/-- The checked and the unchecked clauses; SKIP and SEEK at both sides of 64. -/
theorem witness_InertReaderReturnsZeros :
    (instanceOf .be true).ok = true ∧ (instanceOf .be true).checked = true ∧ (Instr.peekSigned 32).wellFormed = true ∧
    readsOrPeeks (.peekSigned 32) = some 32 ∧ (Instr.skip 63).wellFormed = true ∧ (Instr.seek 64).wellFormed = true ∧
    (63 : Word64).toNat = 63 ∧ (64 : Word64).toNat = 64 ∧
    (instanceOf .be false).ok = true ∧ (instanceOf .be false).checked = false ∧ bitsFromHere (.peek 1) = some 1 ∧
    (Instr.peek 1).wellFormed = true ∧ (Instr.seek 1).wellFormed = true ∧ (1 : Word64).toNat = 1 := by decide

/-- READ 32 of 28 cached bits and a refill; the last bits of an unchecked stream. -/
theorem witness_ReadReturnsStreamBits :
    readsUnsigned (.read 32) = some 32 ∧ (Instr.read 32).wellFormed = true ∧ (after 36 longerBe).ready = true ∧
    (after 36 longerBe).supplies 32 = true ∧ readsUnsigned (.readNz 12) = some 12 ∧ (Instr.readNz 12).wellFormed = true ∧
    uncheckedBe.ready = true ∧ uncheckedBe.supplies 12 = true := by decide

theorem witness_ExhaustedReadPadsZeros :
    readsUnsigned (.read63 63) = some 63 ∧ (Instr.read63 63).wellFormed = true ∧ (after 4 commonBe).ready = true ∧
    (after 4 commonBe).params.checked = true ∧ (after 4 commonBe).supplies 63 = false := by decide

theorem witness_SignedReadReturnsTwosComplement :
    1 ≤ (32 : BitVec 7).toNat ∧ (32 : BitVec 7).toNat ≤ 32 ∧ commonBe.ready = true ∧ commonBe.params.checked = true ∧
    uncheckedBe.ready = true ∧ uncheckedBe.supplies 12 = true := by decide

theorem witness_PeekShowsNextValue :
    (32 : BitVec 7).toNat ≤ 32 ∧ commonLe.ready = true ∧ commonLe.params.checked = true ∧ 1 ≤ (32 : BitVec 7).toNat := by
  decide

/-- A peek past SIZE = 12, and ALIGN from position 9, whose boundary is 16. -/
theorem witness_UncheckedOverrunFaults :
    bitsFromHere (.peek 13) = some 13 ∧ (Instr.peek 13).wellFormed = true ∧ uncheckedBe.inv = true ∧
    uncheckedBe.faulted = false ∧ uncheckedBe.params.checked = false ∧
    (uncheckedBe.size.toNat : Int) < uncheckedBe.tell + ((13 : Nat) : Int) ∧
    (after 9 uncheckedBe).inv = true ∧ (after 9 uncheckedBe).faulted = false ∧
    ((after 9 uncheckedBe).size.toNat : Int) < 8 * (((after 9 uncheckedBe).tell + 7) / 8) := by decide

/-- To the end of the buffer, checked; to SIZE, unchecked. -/
theorem witness_SkipAdvancesPosition :
    longerBe.inv = true ∧ longerBe.faulted = false ∧ (128 : Word64).toNat < 2 ^ 32 ∧ longerBe.params.checked = true ∧
    longerBe.tell + ((128 : Word64).toNat : Int) ≤ 8 * (longerBe.byteLen.toNat : Int) ∧
    uncheckedBe.inv = true ∧ uncheckedBe.faulted = false ∧ uncheckedBe.params.checked = false ∧
    uncheckedBe.tell + ((12 : Word64).toNat : Int) ≤ (uncheckedBe.size.toNat : Int) := by decide

theorem witness_CheckedSkipIsBounded :
    commonBe.inv = true ∧ commonBe.faulted = false ∧ commonBe.params.checked = true ∧
    (0xFFFFFFFF : Word64).toNat < 2 ^ 32 ∧ commonBe.ptrOff.toNat < 2 ^ 63 ∧
    commonBe.valid.toNat + 64 ≤ (128 : Word64).toNat := by decide

/-- A run that ends at a 0 bit, one that reaches SIZE in either mode, and one whose second group crosses SIZE. -/
theorem witness_StopRunEndsAtZeroBit :
    (readerOver .be true [0x80, 0x40, 0x00] 24 0x8040000000000000).ready = true ∧
    (readerOver .be true [0x80, 0x40, 0x00] 24 0x8040000000000000).stopRun 25 0 = .zeroBit 19 ∧
    (readerOver .be true [0xFF] 8 0xFF00000000000000).ready = true ∧
    (readerOver .be true [0xFF] 8 0xFF00000000000000).stopRun 9 0 = .reachesSize 9 ∧
    (readerOver .be false [0x80, 0x40] 9 0x8040000000000000).ready = true ∧
    (readerOver .be false [0x80, 0x40] 9 0x8040000000000000).stopRun 10 0 = .reachesSize 9 ∧
    (readerOver .be false [0x80, 0x40] 16 0x8040000000000000).ready = true ∧
    (readerOver .be false [0x80, 0x40] 16 0x8040000000000000).stopRun 17 0 = .crossesSize := by decide

/-- Byte 0x1000 is cached; byte 0x1008 is the next one a refill reads, and a read after 40 bits reaches it. -/
theorem witness_CacheIsStaleBelowPointer :
    longerBe.ready = true ∧ longerBe.ptrOff.toNat < 2 ^ 63 ∧
    (∀ k, k < 24 → 8 ≤ k → longerBe.wrapAddr (longerBe.buf.toNat + k) ≠ longerBe.wrapAddr 0x1000) ∧
    longerBe.byteLen.toNat + longerBe.params.pad = 24 ∧ isReader (.read63 63) = true ∧
    (∃ t, exec (.read63 63) longerBe = .next t) ∧
    (∀ k, k < 8 → longerBe.wrapAddr (longerBe.buf.toNat + k) ≠ longerBe.wrapAddr 0x1008) ∧ longerBe.ptrOff.toNat = 8 ∧
    [Instr.skip 40].all isReader = true ∧ readsUnsigned (.read 32) = some 32 ∧ (Instr.read 32).wellFormed = true ∧
    ∃ u, execAll [.skip 40] (longerBe.writeByte 0x1008 7) = some u ∧ u.faulted = false ∧ u.supplies 32 = true :=
  ⟨by decide, by decide, by decide, by decide, by decide, ⟨_, rfl⟩, by decide, by decide, by decide, by decide, by decide,
    _, rfl, by decide, by decide⟩

/-- Between the two PEEKs: a query, a wider peek, reads and a skip of no bit, and an IDCT command over the cached bytes. -/
theorem witness_PeekIsIdempotent :
    commonBe.inv = true ∧
    [Instr.tell, .peek 32, .read63 0, .skip 0, .idctDcAdd 8 0x3000 0x1000].all consumesNothing = true ∧
    ∃ t u v, exec (.peek 16) commonBe = .next t ∧
      execAll [.tell, .peek 32, .read63 0, .skip 0, .idctDcAdd 8 0x3000 0x1000] t = some u ∧ exec (.peek 16) u = .next v ∧
      v.faulted = false := ⟨by decide, by decide, _, _, _, rfl, rfl, rfl, by decide +kernel⟩

theorem witness_PeekThenReadAgree :
    commonBe.inv = true ∧ commonBe.supplies 16 = true ∧
    ∃ t u, exec (.peek 16) commonBe = .next t ∧ exec (.read 16) t = .next u ∧ u.faulted = false :=
  ⟨by decide, by decide, _, _, rfl, rfl, by decide⟩

theorem witness_ReadsConcatenate :
    longerLe.ready = true ∧ longerLe.tell + ((40 + 23 : Nat) : Int) ≤ 8 * (longerLe.byteLen.toNat : Int) ∧
    longerLe.params.endian = .le ∧ longerBe.ready = true ∧ longerBe.params.endian = .be ∧
    ∃ w u v, exec (.read63 (BitVec.ofNat 7 (40 + 23))) longerLe = .next w ∧ w.faulted = false ∧
      exec (.read63 (BitVec.ofNat 7 40)) longerLe = .next u ∧ exec (.read63 (BitVec.ofNat 7 23)) u = .next v :=
  ⟨by decide, by decide, by decide, by decide, by decide, _, _, _, rfl, by decide, rfl, rfl⟩

/-- The same instance in unchecked mode, where the code ends below SIZE. -/
def vlcUnchecked : State := { vlcLe with params := instanceOf .le false }

/-- The LE reader of section 1.2 with its 64 cached bits gone: at the end of the buffer, where indices are zeros. -/
def vlcDrained : State := after 64 vlcLe

/-- In the middle of the buffer, at its end, and in unchecked mode. -/
theorem witness_VlcFollowsTableWalk :
    vlcLe.ready = true ∧ (Instr.readVlc 2 2 0x2000 8).wellFormed = true ∧
    vlcLe.vlcOutcome 0x2000 8 2 0 8 2 0 = .ok (4, 3) ∧ vlcLe.tell = 0 ∧ vlcLe.ptrOff = 8 ∧
    vlcDrained.ready = true ∧ vlcDrained.vlcOutcome 0x2000 8 2 64 8 2 0 = .ok (0, 64) ∧ vlcDrained.tell = 64 ∧
    vlcUnchecked.ready = true ∧ vlcUnchecked.vlcOutcome 0x2000 8 2 0 8 2 0 = .ok (4, 3) := by decide

/-- The depth limit in either mode, and in unchecked mode a code of three bits that crosses SIZE = 2 (its sentinel does not). -/
theorem witness_VlcMisfitFaults :
    vlcLe.ready = true ∧ (Instr.readVlc 2 1 0x2000 8).wellFormed = true ∧
    vlcLe.vlcOutcome 0x2000 8 1 0 8 2 0 = .error .vlcTable ∧
    vlcUnchecked.ready = true ∧ vlcUnchecked.vlcOutcome 0x2000 8 1 0 8 2 0 = .error .vlcTable ∧
    ({ vlcUnchecked with size := 2, byteLen := 1 } : State).ready = true ∧
    ({ vlcUnchecked with size := 2, byteLen := 1 } : State).vlcOutcome 0x2000 8 2 0 8 2 0 = .error .uncheckedOverrun := by
  decide

/-- Section 1.2: the codes 111 and 1100, each over two levels. -/
theorem witness_VlcRoundTrip :
    vlcLe.ready = true ∧ (Instr.readVlc 2 2 0x2000 8).wellFormed = true ∧
    vlcLe.holdsCodes 0x2000 8 2 2 0 [(4, 3), (2, 7)] ∧
    ∀ c ∈ ([(4, 3), (2, 7)] : List (Int × Nat)), c.2 ≤ 8 * vlcLe.byteLen.toNat ∧
      (vlcLe.params.checked = false → c.2 ≤ vlcLe.size.toNat) := by
  refine ⟨by decide, by decide, ⟨?_, ?_, trivial⟩, by decide⟩
  · exact .inr ⟨⟨4, -2⟩, by decide, by decide, by decide, by decide, .inl ⟨by decide, by decide, by decide⟩⟩
  · exact .inr ⟨⟨4, -2⟩, by decide, by decide, by decide, by decide, .inl ⟨by decide, by decide, by decide⟩⟩

theorem witness_VlcIsBounded :
    vlcLe.inv = true ∧ vlcLe.ptrOff.toNat < 2 ^ 63 ∧ ∃ t, exec (.readVlc 2 2 0x2000 8) vlcLe = .next t :=
  ⟨by decide, by decide, ⟨_, rfl⟩⟩

theorem witness_DequantScalesCoefficients :
    blockState.params.ok = true ∧ 7 ≤ blockState.params.addrW ∧ blockState.faulted = false ∧
    (Instr.dequant 1 true false false 2 8 0x3000 0x3100).wellFormed = true ∧ 1 ≤ (1 : BitVec 7).toNat ∧
    blockState.zeroMatrixMet 0x3000 0x3100 1 true = false ∧
    ∀ k, k < 64 → ∀ v, blockState.dequantValue 0x3000 0x3100 1 true false false 2 8 k = some v →
      -32768 ≤ v ∧ v ≤ 32767 := by
  refine ⟨by decide, by decide, by decide, by decide, by decide, by decide, ?_⟩
  have h : ∀ k, k < 64 →
      (blockState.dequantValue 0x3000 0x3100 1 true false false 2 8 k).all
        (fun v => decide (-32768 ≤ v) && decide (v ≤ 32767)) = true := by decide
  intro k hk v hv
  have := h k hk
  rw [hv] at this
  simpa using this

/-- The zero-matrix clause, and the range clause on another state. -/
theorem witness_DequantFaultsBeforeWriting :
    blockState.params.ok = true ∧ blockState.faulted = false ∧
    (Instr.dequant 1 false false false 2 0 0x3000 0x3200).wellFormed = true ∧ 1 ≤ (1 : BitVec 7).toNat ∧
    blockState.zeroMatrixMet 0x3000 0x3200 1 false = true ∧
    (Instr.dequant 1 true false false 2 255 0x4000 0x3100).wellFormed = true ∧
    blockState.zeroMatrixMet 0x4000 0x3100 1 true = false ∧
    blockState.dequantValue 0x4000 0x3100 1 true false false 2 255 0 = some 6591750 := by decide

theorem witness_ZeroBlockTouchesNothing :
    dc800.faulted = false ∧ (Instr.dequant 0 true false false 2 8 0x3000 0x3100).wellFormed = true ∧
    8 ≤ (8 : BitVec 16).toNat := by decide

theorem witness_KernelKeepsDcProperty :
    (800 :: List.replicate 63 (0 : Int)).length = 64 ∧
    (∀ i, i < 64 → 1 ≤ i → (800 :: List.replicate 63 (0 : Int)).getD i 0 = 0) ∧
    (List.replicate 64 (0 : Int)).getD 0 0 = 0 := by decide

theorem witness_PutWritesClippedResiduals :
    dc800.faulted = false ∧ 8 ≤ (8 : BitVec 16).toNat ∧ dc800.samplesApart 8 = true ∧
    dc800.inBlock 0x3000 (dstAddr 0x4000 8 63) = false ∧ dc800.inBlock 0x3000 0x5000 = false ∧
    dc800.isSample 0x4000 8 0x5000 = false ∧ ∀ k, k < 64 → dc800.coef 0x6000 k = 0 := by decide +kernel

theorem witness_AddWritesClippedSums :
    dc800.faulted = false ∧ 8 ≤ (8 : BitVec 16).toNat ∧ 1 ≤ (64 : BitVec 7).toNat ∧ (64 : BitVec 7).toNat ≤ 64 ∧
    dc800.samplesApart 8 = true ∧ dc800.inBlock 0x3000 (dstAddr 0x4000 8 0) = false := by decide

theorem witness_DcAddWritesClippedSums :
    dc800.faulted = false ∧ 8 ≤ (65535 : BitVec 16).toNat ∧ dc800.samplesApart 65535 = true ∧
    dc800.inBlock 0x3000 (dstAddr 0x4000 65535 63) = false := by decide

theorem witness_BlockIsUnspecifiedAfterIdct :
    dc800.faulted = false ∧ (Instr.idctAdd 1 8 0x3000 0x4000).wellFormed = true ∧ 1 ≤ (1 : BitVec 7).toNat ∧
    (∃ t, exec (.idctAdd 1 8 0x3000 0x4000) dc800 = .next t) ∧ dc800.inBlock 0x3000 0x307F = true :=
  ⟨by decide, by decide, by decide, ⟨_, rfl⟩, by decide⟩

theorem witness_DcPathsAgree :
    8 ≤ (8 : BitVec 16).toNat ∧ 1 ≤ (64 : BitVec 7).toNat ∧ (64 : BitVec 7).toNat ≤ 64 ∧
    ∀ k, k < 64 → 1 ≤ k → dc800.coef 0x3000 k = 0 := by decide +kernel

end Sys2Proof.Tests
end

section
/-! PROOFS. What no command changes, said once for every meaning, and CONFIG (10_state.md R14, R22, R25). -/

namespace Sys2Proof.Machine

/-! ### The frame of every command -/

/-- What a command leaves alone: the parameters, the words of its packet, the host program with its index, and the data of
the last host read (10_state.md R14, R22, R25). -/
def commandFrame (s t : State) : Prop :=
  t = { t with params := s.params, cmd := s.cmd, argA := s.argA, argB := s.argB, inbox := s.inbox,
               progIndex := s.progIndex, hostData := s.hostData }

theorem commandFrame_trans {s t u : State} (h1 : commandFrame s t) (h2 : commandFrame t u) : commandFrame s u := by
  unfold commandFrame at *
  rw [h1] at h2
  exact h2

theorem commandFrame_params {s t : State} (h : commandFrame s t) : t.params = s.params := by rw [h]

/-- A body that only moves the reader keeps the frame. -/
theorem commandFrame_of_cursorFrame {s t : State} (h : cursorFrame s t) : commandFrame s t := by
  unfold commandFrame
  rw [h]

theorem commandFrame_spoilBlock (s : State) (blk : Word64) : commandFrame s (s.spoilBlock blk) := by
  obtain ⟨hframe, _, _⟩ := s.forgetBytes_spec blk.toNat 128
  unfold State.spoilBlock
  rw [hframe]
  rfl

theorem commandFrame_putSamples (s : State) (dst : Word64) (stride : BitVec 16) (r : List Int) (n : Nat) :
    commandFrame s (s.putSamples dst stride r n) := by
  rw [State.putSamples_frame]
  rfl

theorem commandFrame_addSamples (s : State) (dst : Word64) (stride : BitVec 16) (r : List Int) (n : Nat) :
    commandFrame s (s.addSamples dst stride r n) := by
  rw [State.addSamples_frame]
  rfl

theorem commandFrame_writeAssigned (s : State) (blk : Word64) (out : List (Nat × Int)) (n : Nat) :
    commandFrame s (s.writeAssigned blk out n) := by
  rw [State.writeAssigned_frame]
  rfl

/-! ### Bodies, and how they are put together -/

/-- A body keeps the frame of `s` if it completes. -/
def bodyFrame (s : State) (x : Except Cause Done) : Prop := ∀ d, x = .ok d → commandFrame s d.state

theorem bodyFrame_error (s : State) (c : Cause) : bodyFrame s (.error c) := fun _ h => nomatch h

theorem bodyFrame_ok {s t : State} (v : Word64) (b : Bool) (h : commandFrame s t) : bodyFrame s (.ok ⟨t, v, b⟩) := by
  intro d hd
  cases hd
  exact h

theorem bodyFrame_bind {α : Type} {s : State} {x : Except Cause α} {f : α → Except Cause Done}
    (h : ∀ a, x = .ok a → bodyFrame s (f a)) : bodyFrame s (x >>= f) := by
  intro d hd
  obtain ⟨a, ha, hf⟩ := except_bind_ok.mp hd
  exact h a ha d hf

/-- A step of the reader, then a result. -/
theorem bodyFrame_reader {α : Type} {s : State} {x : Except Cause α} {reader : α → State} {f : α → Done}
    (hx : ∀ a, x = .ok a → cursorFrame s (reader a)) (hf : ∀ a, (f a).state = reader a) :
    bodyFrame s (x >>= fun a => .ok (f a)) :=
  bodyFrame_bind fun a ha d hd => by
    cases hd
    rw [hf]
    exact commandFrame_of_cursorFrame (hx a ha)

theorem commandFrame_runCommand {s : State} (op : BitVec 6) (legal : Bool) {body : State → Except Cause Done}
    (h : bodyFrame s (body s)) : commandFrame s (runCommand op legal body s) := by
  rcases runCommand_cases op legal body s with ⟨_, hr⟩ | ⟨_, _, hr⟩ | ⟨_, _, c, _, hr⟩ | ⟨_, _, d, hd, hr⟩
  · rw [hr]
    rfl
  · rw [hr]
    rfl
  · rw [hr]
    rfl
  · rw [hr]
    exact commandFrame_trans (h d hd) rfl

/-! ### Every command, every packet -/

/-- Every command answers a next state in its frame (60_exceptions.md R143). -/
theorem exec_frame (i : Instr) (s : State) : ∃ t, exec i s = .next t ∧ commandFrame s t := by
  cases i with
  | init buf nbits =>
    refine ⟨_, rfl, commandFrame_runCommand _ _ ?_⟩
    dsimp only
    split
    · exact bodyFrame_ok _ _ rfl
    · have hopen : commandFrame s (s.openReader (BitVec.ofNat 64 (s.wrapAddr buf.toNat)) (countOf nbits)) := rfl
      exact bodyFrame_bind fun t ht =>
        bodyFrame_ok _ _ (commandFrame_trans hopen (commandFrame_of_cursorFrame (cursorFrame_refill64 ht)))
  | readBit =>
    exact ⟨_, rfl, commandFrame_runCommand _ _ (bodyFrame_reader (fun _ => cursorFrame_takeBit) fun _ => rfl)⟩
  | readNz n | readSigned n =>
    exact ⟨_, rfl, commandFrame_runCommand _ _ (bodyFrame_reader (fun _ => cursorFrame_takeBits) fun _ => rfl)⟩
  | read n =>
    refine ⟨_, rfl, commandFrame_runCommand _ _ ?_⟩
    split
    · exact bodyFrame_ok _ _ rfl
    · exact bodyFrame_reader (fun _ => cursorFrame_takeBits) fun _ => rfl
  | read63 n =>
    refine ⟨_, rfl, commandFrame_runCommand _ _ ?_⟩
    split
    · exact bodyFrame_ok _ _ rfl
    · exact bodyFrame_reader (fun _ => cursorFrame_takeWide) fun _ => rfl
  | read64 n =>
    refine ⟨_, rfl, commandFrame_runCommand _ _ ?_⟩
    split
    · exact bodyFrame_ok _ _ rfl
    · split
      · exact bodyFrame_reader (fun _ => cursorFrame_takeWide) fun _ => rfl
      · exact bodyFrame_bind fun _ _ => bodyFrame_bind fun _ hr =>
          bodyFrame_reader (fun _ hb => cursorFrame_trans (cursorFrame_takeWide hr) (cursorFrame_takeBit hb)) fun _ => rfl
  | peek n =>
    refine ⟨_, rfl, commandFrame_runCommand _ _ ?_⟩
    split
    · exact bodyFrame_ok _ _ rfl
    · exact bodyFrame_reader (fun _ => cursorFrame_peekBits) fun _ => rfl
  | peekSigned n =>
    exact ⟨_, rfl, commandFrame_runCommand _ _ (bodyFrame_reader (fun _ => cursorFrame_peekBits) fun _ => rfl)⟩
  | skip n =>
    exact ⟨_, rfl, commandFrame_runCommand _ _ (bodyFrame_reader (fun _ => cursorFrame_skipBits) fun _ => rfl)⟩
  | seek pos =>
    have hrestart : cursorFrame s { s with ptrOff := 0, cache := 0, valid := 0 } := rfl
    exact ⟨_, rfl, commandFrame_runCommand _ _
      (bodyFrame_reader (fun _ ht => cursorFrame_trans hrestart (cursorFrame_skipBits ht)) fun _ => rfl)⟩
  | align =>
    exact ⟨_, rfl, commandFrame_runCommand _ _ (bodyFrame_reader (fun _ => cursorFrame_skipToBoundary) fun _ => rfl)⟩
  | tell | size | left => exact ⟨_, rfl, commandFrame_runCommand _ _ (bodyFrame_ok _ _ rfl)⟩
  | readVlc n d table tlen =>
    refine ⟨_, rfl, commandFrame_runCommand _ _ (bodyFrame_bind fun first hfirst => bodyFrame_bind fun p hp => ?_)⟩
    have hreader : cursorFrame s p.reader := cursorFrame_trans (cursorFrame_vlcLookup hfirst) (cursorFrame_vlcWalk hp)
    split
    · exact bodyFrame_error _ _
    · exact bodyFrame_reader (fun _ _ => cursorFrame_trans hreader (cursorFrame_dropBits _ _)) fun _ => rfl
  | skip1stop8data =>
    refine ⟨_, rfl, commandFrame_runCommand _ _ ?_⟩
    split
    · exact bodyFrame_ok _ _ rfl
    · exact bodyFrame_reader (fun _ => cursorFrame_skipGroups) fun _ => rfl
  | dequant n intra nonlin losslessDc qscale dcScale blk mat =>
    refine ⟨_, rfl, commandFrame_runCommand _ _ ?_⟩
    split
    · exact bodyFrame_ok _ _ rfl
    · refine bodyFrame_bind fun out _ => ?_
      split
      · exact bodyFrame_ok _ _ (commandFrame_writeAssigned s blk out 64)
      · exact bodyFrame_error _ _
  | idctPut stride blk dst =>
    exact ⟨_, rfl, commandFrame_runCommand _ _ (bodyFrame_ok _ _
      (commandFrame_trans (commandFrame_putSamples s dst stride _ 64) (commandFrame_spoilBlock _ blk)))⟩
  | idctAdd n stride blk dst =>
    refine ⟨_, rfl, commandFrame_runCommand _ _ ?_⟩
    split
    · exact bodyFrame_ok _ _ rfl
    · exact bodyFrame_ok _ _
        (commandFrame_trans (commandFrame_addSamples s dst stride _ 64) (commandFrame_spoilBlock _ blk))
  | idctDcAdd stride blk dst =>
    exact ⟨_, rfl, commandFrame_runCommand _ _ (bodyFrame_ok _ _
      (commandFrame_trans (commandFrame_addSamples s dst stride _ 64) (commandFrame_spoilBlock _ blk)))⟩

theorem commandFrame_rejectPacket (s : State) : commandFrame s s.rejectPacket := by
  unfold State.rejectPacket
  split <;> rfl

/-- A packet that is issued, whether it decodes or not, answers a next state in the frame of a command. -/
theorem issue_frame (s : State) : ∃ t, issue s = .next t ∧ commandFrame s t := by
  unfold issue
  split
  · exact exec_frame _ s
  · exact ⟨_, rfl, commandFrame_rejectPacket s⟩

/-! ### No step changes a parameter -/

@[simp] theorem State.portWrite_params (s : State) (addr v : Word64) (width : PortWidth) :
    (s.portWrite addr width v).params = s.params := by
  unfold State.portWrite
  dsimp only
  split <;> simp

@[simp] theorem State.answerRegRead_params (s : State) (addr : Word64) (width : PortWidth) :
    (s.answerRegRead addr width).params = s.params := by
  unfold State.answerRegRead
  split <;> rfl

theorem issue_params {s t : State} (h : issue s = .next t) : t.params = s.params := by
  obtain ⟨u, hu, hframe⟩ := issue_frame s
  rw [h] at hu
  cases hu
  exact commandFrame_params hframe

theorem step_params {s t : State} (h : step s = .next t) : t.params = s.params := by
  cases hin : s.inbox with
  | nil =>
    rw [step, hin] at h
    cases h
    rfl
  | cons input rest =>
    rw [step, hin] at h
    cases input with
    | packet p => simpa using issue_params h
    | regWrite addr width v =>
      dsimp only at h
      split at h
      · simpa using issue_params h
      · cases h
        simp
    | regRead addr width =>
      cases h
      simp
    | memWrite addr b | memRead addr =>
      dsimp only at h
      split at h
      · cases h
        simp
      · cases h
    | reset =>
      cases h
      simp

/-! ### The fields of CONFIG -/

/-- A value joined above the bits of another is a sum. -/
theorem toNat_or_shiftLeft (x y : Word32) (k : Nat) (hx : x.toNat < 2 ^ k) (hy : 2 ^ k * y.toNat < 2 ^ 32) :
    (x ||| y <<< k).toNat = x.toNat + 2 ^ k * y.toNat := by
  rw [BitVec.toNat_or, BitVec.toNat_shiftLeft, Nat.shiftLeft_eq, Nat.mul_comm, Nat.mod_eq_of_lt hy, Nat.or_comm,
    ← Nat.two_pow_add_eq_or_of_lt hx, Nat.add_comm]

/-- A bit read off the value. -/
theorem getLsbD_eq_of_digit {x : Word32} {i : Nat} {b : Bool} (h : x.toNat / 2 ^ i % 2 = b.toNat) : x.getLsbD i = b := by
  rw [← BitVec.testBit_toNat, Nat.testBit_eq_decide_div_mod_eq, h]
  cases b <;> rfl

/-- A field read off the value. -/
theorem toNat_extractLsb'_eq_digits (x : Word32) (start len : Nat) :
    (x.extractLsb' start len).toNat = x.toNat / 2 ^ start % 2 ^ len := by
  rw [BitVec.extractLsb'_toNat, Nat.shiftRight_eq_div_pow]

theorem extractLsb'_eq_zero_of_digits {x : Word32} {start len : Nat} (h : x.toNat / 2 ^ start % 2 ^ len = 0) :
    x.extractLsb' start len = 0 :=
  BitVec.eq_of_toNat_eq ((toNat_extractLsb'_eq_digits x start len).trans h)

/-- CONFIG as a number: each field at its place (10_state.md R25). -/
theorem configWord_toNat (p : Params) (h : p.addrW < 256) :
    (configWord p).toNat =
      (decide (p.endian = .be)).toNat + 2 * p.checked.toNat + 2 ^ 8 * min p.pad 255 + 2 ^ 16 * p.addrW := by
  have hpad : (BitVec.ofNat 32 (min p.pad 255)).toNat = min p.pad 255 := Nat.mod_eq_of_lt (by omega)
  have haddr : ((BitVec.ofNat 8 p.addrW).setWidth 32).toNat = p.addrW := by
    rw [BitVec.toNat_setWidth, BitVec.toNat_ofNat]
    omega
  have hchecked : ((BitVec.ofBool p.checked).setWidth 32).toNat = p.checked.toNat := by cases p.checked <;> rfl
  have hbit : p.checked.toNat ≤ 1 := p.checked.toNat_le
  have hjoin (e : Word32) (he : e.toNat ≤ 1) :
      (e ||| (BitVec.ofBool p.checked).setWidth 32 <<< 1 ||| BitVec.ofNat 32 (min p.pad 255) <<< 8 |||
        (BitVec.ofNat 8 p.addrW).setWidth 32 <<< 16).toNat =
      e.toNat + 2 * p.checked.toNat + 2 ^ 8 * min p.pad 255 + 2 ^ 16 * p.addrW := by
    have h1 := toNat_or_shiftLeft e ((BitVec.ofBool p.checked).setWidth 32) 1 (by omega) (by omega)
    have h2 := toNat_or_shiftLeft _ (BitVec.ofNat 32 (min p.pad 255)) 8 (h1.trans_lt (by omega)) (by omega)
    have h3 := toNat_or_shiftLeft _ ((BitVec.ofNat 8 p.addrW).setWidth 32) 16 (h2.trans_lt (by omega)) (by omega)
    rw [h3, h2, h1, hchecked, hpad, haddr, Nat.pow_one]
  unfold configWord
  cases p.endian with
  | le => exact hjoin 0 (by decide)
  | be => exact hjoin 1 (by decide)

theorem addrW_le_of_ok {p : Params} (h : p.ok = true) : p.addrW ≤ 64 := by
  simp only [Params.ok, Bool.and_eq_true, decide_eq_true_eq] at h
  obtain ⟨⟨⟨⟨⟨⟨_, haddr⟩, _⟩, _⟩, _⟩, _⟩, _⟩ := h
  exact haddr

/-- Settles O16: the fields of CONFIG are digits of its value, and CONFIG is a view of the parameters, which no step changes. -/
theorem configShowsParameters : Obligations.ConfigShowsParameters := by
  unfold Obligations.ConfigShowsParameters
  refine ⟨fun s hok => ?_, fun s t h => congrArg configWord (step_params h)⟩
  have haddr := addrW_le_of_ok hok
  have hword : s.config.toNat = _ := configWord_toNat s.params (by omega)
  have hbe := (decide (s.params.endian = .be)).toNat_le
  have hchecked := s.params.checked.toNat_le
  refine ⟨getLsbD_eq_of_digit (by omega), getLsbD_eq_of_digit (by omega), ?_, ?_,
    extractLsb'_eq_zero_of_digits (by omega), extractLsb'_eq_zero_of_digits (by omega)⟩
  · rw [toNat_extractLsb'_eq_digits]
    omega
  · rw [toNat_extractLsb'_eq_digits]
    omega

end Sys2Proof.Machine
end

section
/-! PROOFS. The pure queries TELL, SIZE and LEFT (40_reader_control.md R84 to R87, R89). -/

namespace Sys2Proof.Machine

/-- What a query with answer `v` leaves: on a faulted block the refusal, else `v` in RES (60_exceptions.md R143). -/
def State.answerQuery (s : State) (v : Word64) : State := if s.faulted then s.refuseFaulted else s.complete v false

theorem State.answerQuery_res {s : State} (h : s.faulted = false) (v : Word64) : (s.answerQuery v).res = v := by
  rw [State.answerQuery, if_neg (by simp [h])]
  rfl

theorem resultFrame_answerQuery (s : State) (v : Word64) : resultFrame s (s.answerQuery v) := by
  unfold State.answerQuery
  split
  · exact ⟨rfl, fun _ => rfl⟩
  · exact ⟨rfl, fun _ => rfl⟩

/-- A query hands the memory on without a look at it: neither the fault check nor either ending reads it. -/
theorem State.answerQuery_mem (s : State) (m : Memory) (v : Word64) :
    ({ s with mem := m } : State).answerQuery v = { s.answerQuery v with mem := m } := by
  have hfaulted : ({ s with mem := m } : State).faulted = s.faulted := rfl
  unfold State.answerQuery
  rw [hfaulted]
  split
  · rfl
  · rfl

/-! ### The three queries -/

theorem exec_tell (s : State) : exec .tell s = .next (s.answerQuery (BitVec.ofInt 64 s.tell)) := rfl

theorem exec_size (s : State) : exec .size s = .next (s.answerQuery (s.size.setWidth 64)) := rfl

theorem exec_left (s : State) : exec .left s = .next (s.answerQuery (BitVec.ofInt 64 s.left)) := rfl

/-- A command that answers a value in which the memory has no part is a pure query. -/
theorem query_pure {i : Instr} {value : State → Word64} (hexec : ∀ s, exec i s = .next (s.answerQuery (value s)))
    (hvalue : ∀ (s : State) (m : Memory), value { s with mem := m } = value s) {s t : State} (h : exec i s = .next t) :
    resultFrame s t ∧ ∀ m, exec i { s with mem := m } = .next { t with mem := m } := by
  rw [hexec] at h
  cases h
  refine ⟨resultFrame_answerQuery s _, fun m => ?_⟩
  rw [hexec, hvalue, State.answerQuery_mem]

/-- Settles O33: each of the three answers the position, SIZE or the bits left, and none of these looks at memory. -/
theorem queriesArePure : Obligations.QueriesArePure := by
  unfold Obligations.QueriesArePure
  rintro i s t (rfl | rfl | rfl) h
  · exact query_pure exec_tell (fun _ _ => rfl) h
  · exact query_pure exec_size (fun _ _ => rfl) h
  · exact query_pure exec_left (fun _ _ => rfl) h

/-! ### TELL + LEFT = SIZE -/

theorem State.tell_add_left (s : State) : s.tell + s.left = (s.size.toNat : Int) := by
  unfold State.left
  omega

/-- The 64-bit words of TELL and LEFT add up to that of SIZE, even where TELL or LEFT wraps (R86, R89). -/
theorem State.tellWord_add_leftWord (s : State) :
    BitVec.ofInt 64 s.tell + BitVec.ofInt 64 s.left = s.size.setWidth 64 := by
  rw [← BitVec.ofInt_add, State.tell_add_left, BitVec.ofInt_natCast, BitVec.ofNat_toNat]

/-- Settles O34: an unfaulted block answers all three queries, and the words of `tellWord_add_leftWord` are the answers;
which command ran before does not matter. -/
theorem tellPlusLeftIsSize : Obligations.TellPlusLeftIsSize := by
  unfold Obligations.TellPlusLeftIsSize
  intro i r s a b c _ hready htell hleft hsize
  rw [exec_tell] at htell
  rw [exec_left] at hleft
  rw [exec_size] at hsize
  cases htell
  cases hleft
  cases hsize
  rw [State.answerQuery_res hready, State.answerQuery_res hready, State.answerQuery_res hready]
  exact s.tellWord_add_leftWord

end Sys2Proof.Machine
end

section
/-! PROOFS. Commands that consume nothing may look ahead in the stream and take nothing from it, and what follows for PEEK
and READ (41_reader_extract.md R92, R93, R96, R102, R103). -/

namespace Sys2Proof.Machine

/-! ### The cache of a reader -/

/-- What the invariant says of the cache and the cursor alone (10_state.md R16 to R18, 20_memory.md R33). -/
structure State.CacheOk (s : State) : Prop where
  valid_le : s.valid.toNat ≤ 64
  valid_le_ptr : s.valid.toNat ≤ 8 * s.ptrOff.toNat
  aligned : s.cacheAligned = true
  in_range : s.params.checked = true ∨ s.tell ≤ (s.size.toNat : Int)

theorem State.cacheOk_of_inv {s : State} (h : s.inv = true) : s.CacheOk := by
  simp only [State.inv, State.readerOk, State.uncheckedOk, Bool.and_eq_true, Bool.or_eq_true, decide_eq_true_eq] at h
  obtain ⟨⟨⟨⟨_, ⟨⟨⟨⟨⟨hvalid, hptr⟩, haligned⟩, _⟩, _⟩, _⟩⟩, hrange⟩, _⟩, _⟩ := h
  exact ⟨hvalid, hptr, haligned, hrange⟩

theorem State.pad_of_inv {s : State} (h : s.inv = true) : 8 ≤ s.params.pad := by
  simp only [State.inv, Params.ok, Bool.and_eq_true, decide_eq_true_eq] at h
  omega

theorem State.CacheOk.tell_nonneg {s : State} (h : s.CacheOk) : 0 ≤ s.tell := by
  have := h.valid_le_ptr
  unfold State.tell
  omega

theorem State.atEnd_eq_false (s : State) :
    s.atEnd = false ↔ s.params.checked = false ∨ s.ptrOff.toNat < s.byteLen.toNat := by
  rw [Bool.eq_false_iff, ne_eq, State.atEnd_iff]
  cases s.params.checked <;> simp

/-- A refill that is not suppressed leaves PTR_OFF far below the end of its register: in checked mode it starts below
BYTE_LEN, in unchecked mode Tell is at most SIZE. -/
theorem State.CacheOk.ptrOff_lt {s : State} (h : s.CacheOk) (hend : s.atEnd = false) : s.ptrOff.toNat < 2 ^ 33 := by
  have hlen := s.byteLen.isLt
  have hsize := s.size.isLt
  have hvalid := h.valid_le
  rcases s.atEnd_eq_false.mp hend with hc | hlt
  · have htell : s.tell ≤ (s.size.toNat : Int) := h.in_range.resolve_left (by simp [hc])
    unfold State.tell at htell
    omega
  · omega

/-! ### Show and Drop, said on the bits of the cache -/

@[simp] theorem State.dropBits_zero (s : State) : s.dropBits 0 = s := by
  unfold State.dropBits
  cases s.params.endian <;> simp

@[simp] theorem State.showBits_zero (s : State) : s.showBits 0 = 0 := rfl

/-- `Show(n)` depends on the bit order and the next `n` bits of the cache alone (20_memory.md R46). -/
theorem State.showBits_congr {s t : State} {n : Nat} (hparams : t.params = s.params) (hn : n ≤ 64)
    (hbits : ∀ i, i < n → t.nextBit i = s.nextBit i) : t.showBits n = s.showBits n := by
  unfold State.nextBit at hbits
  unfold State.showBits
  rw [hparams] at hbits ⊢
  split
  · rfl
  refine BitVec.eq_of_getLsbD_eq fun i hi => ?_
  cases he : s.params.endian with
  | le =>
    simp only [he] at hbits ⊢
    rw [BitVec.getLsbD_and, BitVec.getLsbD_and, mask_getLsbD]
    by_cases h : i < n
    · rw [hbits i h]
    · simp [h]
  | be =>
    simp only [he] at hbits ⊢
    rw [BitVec.getLsbD_ushiftRight, BitVec.getLsbD_ushiftRight]
    by_cases h : i < n
    · have hpos : 64 - n + i = 63 - (n - 1 - i) := by omega
      rw [hpos, hbits (n - 1 - i) (by omega)]
    · rw [BitVec.getLsbD_of_ge _ _ (by omega), BitVec.getLsbD_of_ge _ _ (by omega)]

/-! ### Looking ahead -/

/-- The reader of `t` stands where that of `s` stands and has its cached bits, perhaps with more of the stream behind them;
with no more if the refills of `s` are suppressed. -/
structure LooksAhead (s t : State) : Prop where
  params : t.params = s.params
  byteLen : t.byteLen = s.byteLen
  size : t.size = s.size
  tell : t.tell = s.tell
  valid_mono : s.valid.toNat ≤ t.valid.toNat
  valid_le : t.valid.toNat ≤ 64
  nextBit : ∀ i, i < s.valid.toNat → t.nextBit i = s.nextBit i
  aligned : t.cacheAligned = true
  valid_of_atEnd : s.atEnd = true → t.valid = s.valid

/-- Only the memory and the host registers differ: the reader registers are the same. -/
def sameReader (s t : State) : Prop :=
  t = { s with mem := t.mem, freeCount := t.freeCount, res := t.res, status := t.status, fault := t.fault }

theorem LooksAhead.of_sameReader {s t : State} (hs : s.CacheOk) (h : sameReader s t) : LooksAhead s t := by
  rw [h]
  exact ⟨rfl, rfl, rfl, rfl, Nat.le_refl _, hs.valid_le, fun _ _ => rfl, hs.aligned, fun _ => rfl⟩

theorem LooksAhead.refl {s : State} (hs : s.CacheOk) : LooksAhead s s := LooksAhead.of_sameReader hs rfl

theorem LooksAhead.cacheOk {s t : State} (h : LooksAhead s t) (hs : s.CacheOk) : t.CacheOk where
  valid_le := h.valid_le
  valid_le_ptr := by
    have htell := h.tell
    have := hs.tell_nonneg
    rw [State.tell] at htell
    omega
  aligned := h.aligned
  in_range := by
    rw [h.params, h.tell, h.size]
    exact hs.in_range

/-- A suppressed reader stays suppressed: it cannot move PTR_OFF. -/
theorem LooksAhead.atEnd {s t : State} (h : LooksAhead s t) (hend : s.atEnd = true) : t.atEnd = true := by
  have hvalid := h.valid_of_atEnd hend
  have htell := h.tell
  unfold State.tell at htell
  rw [hvalid] at htell
  obtain ⟨hchecked, hptr⟩ := s.atEnd_iff.mp hend
  rw [State.atEnd_iff, h.params, h.byteLen]
  exact ⟨hchecked, by omega⟩

theorem LooksAhead.trans {s t u : State} (h : LooksAhead s t) (k : LooksAhead t u) : LooksAhead s u where
  params := k.params.trans h.params
  byteLen := k.byteLen.trans h.byteLen
  size := k.size.trans h.size
  tell := k.tell.trans h.tell
  valid_mono := Nat.le_trans h.valid_mono k.valid_mono
  valid_le := k.valid_le
  nextBit i hi := (k.nextBit i (Nat.lt_of_lt_of_le hi h.valid_mono)).trans (h.nextBit i hi)
  aligned := k.aligned
  valid_of_atEnd hend := (k.valid_of_atEnd (h.atEnd hend)).trans (h.valid_of_atEnd hend)

/-- `Show(n)` gives the same before and after looking ahead, where the `n` bits were cached or cannot come any more. -/
theorem LooksAhead.showBits {s t : State} {n : Nat} (h : LooksAhead s t) (hs : s.CacheOk) (hn : n ≤ 64)
    (hcached : n ≤ s.valid.toNat ∨ s.atEnd = true) : t.showBits n = s.showBits n := by
  refine State.showBits_congr h.params hn fun i hi => ?_
  by_cases hlt : i < s.valid.toNat
  · exact h.nextBit i hlt
  · have hvalid := h.valid_of_atEnd (hcached.resolve_left (by omega))
    rw [State.nextBit_beyond hs.valid_le hs.aligned (by omega) (by omega),
      State.nextBit_beyond h.valid_le h.aligned (by rw [hvalid]; omega) (by omega)]

/-! ### Refills look ahead -/

theorem LooksAhead.of_refilled32 {s : State} (hs : s.CacheOk) (hv : s.valid.toNat ≤ 32) (hend : s.atEnd = false) :
    LooksAhead s s.refilled32 := by
  have hframe := cursorFrame_refilled32 s
  have hptr := hs.ptrOff_lt hend
  exact {
    params := cursorFrame_params hframe
    byteLen := cursorFrame_byteLen hframe
    size := cursorFrame_size hframe
    tell := s.refilled32_tell hv (by omega)
    valid_mono := by rw [State.refilled32_valid s hv]; omega
    valid_le := by rw [State.refilled32_valid s hv]; omega
    nextBit := fun i hi => by rw [State.refilled32_nextBit s hv i (by omega) (by omega), if_pos hi]
    aligned := State.refilled32_cacheAligned hv hs.aligned
    valid_of_atEnd := by simp [hend] }

theorem LooksAhead.of_refilled64 {s : State} (hs : s.CacheOk) (hv : s.valid.toNat = 0) (hend : s.atEnd = false) :
    LooksAhead s s.refilled64 := by
  have hframe := cursorFrame_refilled64 s
  have hptr := hs.ptrOff_lt hend
  exact {
    params := cursorFrame_params hframe
    byteLen := cursorFrame_byteLen hframe
    size := cursorFrame_size hframe
    tell := by rw [State.refilled64_tell s (by omega), State.tell]; omega
    valid_mono := by omega
    valid_le := Nat.le_of_eq s.refilled64_valid
    nextBit := by omega
    aligned := s.refilled64_cacheAligned
    valid_of_atEnd := by simp [hend] }

theorem LooksAhead.of_refill64 {s t : State} (hs : s.CacheOk) (hv : s.valid.toNat = 0) (h : s.refill64 = .ok t) :
    LooksAhead s t := by
  rcases State.refill64_eq.mp h with ⟨_, rfl⟩ | ⟨hend, _, rfl⟩
  · exact LooksAhead.refl hs
  · exact LooksAhead.of_refilled64 hs hv hend

/-- After the refill a peek of `n` bits makes, they are cached, or that refill was suppressed. -/
theorem LooksAhead.of_refillFor {s t : State} {n : Nat} (hs : s.CacheOk) (hn : n ≤ 32) (h : s.refillFor n = .ok t) :
    LooksAhead s t ∧ (n ≤ t.valid.toNat ∨ s.atEnd = true) := by
  rw [State.refillFor_eq] at h
  split at h
  case isTrue hlt =>
    rcases State.refill32_eq.mp h with ⟨hend, rfl⟩ | ⟨hend, _, rfl⟩
    · exact ⟨LooksAhead.refl hs, .inr hend⟩
    · refine ⟨LooksAhead.of_refilled32 hs (by omega) hend, .inl ?_⟩
      rw [State.refilled32_valid s (by omega)]
      omega
  case isFalse hge =>
    cases h
    exact ⟨LooksAhead.refl hs, .inl (Nat.not_lt.mp hge)⟩

/-- SKIP of no bit drops nothing; with an empty cache it refills (41_reader_extract.md R99; log entry 24). -/
theorem LooksAhead.of_skipBits_zero {s t : State} (hs : s.CacheOk) (h : s.skipBits 0 = .ok t) : LooksAhead s t := by
  obtain ⟨_, ⟨_, rfl⟩ | ⟨_, hfar, _⟩ | ⟨hvalid, _, u, hu, rfl⟩⟩ := State.skipBits_ok.mp h
  · rw [State.dropBits_zero]
    exact LooksAhead.refl hs
  · omega
  · have hv : s.valid.toNat = 0 := by omega
    have hdrained : LooksAhead s s.emptyCache := {
      params := rfl
      byteLen := rfl
      size := rfl
      tell := by simp [State.tell, hv]
      valid_mono := by omega
      valid_le := by simp
      nextBit := by omega
      aligned := by cases he : s.params.endian <;> simp [State.cacheAligned, he]
      valid_of_atEnd := fun _ => (BitVec.eq_of_toNat_eq hv).symm }
    rw [hv]
    exact hdrained.trans (LooksAhead.of_refill64 (hdrained.cacheOk hs) rfl hu)

/-! ### The idct_2d commands leave the reader alone -/

theorem sameReader_spoilBlock {s t : State} (blk : Word64) (h : t = { s with mem := t.mem }) :
    sameReader s (t.spoilBlock blk) := by
  obtain ⟨hspoil, _, _⟩ := t.forgetBytes_spec blk.toNat 128
  unfold sameReader State.spoilBlock
  rw [hspoil, h]

theorem sameReader_putBlock (s : State) (blk dst : Word64) (stride : BitVec 16) (r : List Int) :
    sameReader s ((s.putSamples dst stride r 64).spoilBlock blk) :=
  sameReader_spoilBlock blk (s.putSamples_frame dst stride r 64)

theorem sameReader_addBlock (s : State) (blk dst : Word64) (stride : BitVec 16) (r : List Int) :
    sameReader s ((s.addSamples dst stride r 64).spoilBlock blk) :=
  sameReader_spoilBlock blk (s.addSamples_frame dst stride r 64)

theorem sameReader_writeAssigned (s : State) (blk : Word64) (out : List (Nat × Int)) (n : Nat) :
    sameReader s (s.writeAssigned blk out n) := by
  unfold sameReader
  rw [State.writeAssigned_frame]

/-! ### Every command that consumes nothing looks ahead at most -/

theorem LooksAhead.of_ok {s t : State} {v : Word64} {b : Bool} {d : Done} (h : LooksAhead s t)
    (hd : Except.ok (ε := Cause) (Done.mk t v b) = .ok d) : LooksAhead s d.state := by
  cases hd
  exact h

/-- However a command ends, its reader is the one it found or the one its body leaves (60_exceptions.md R143, R146). -/
theorem LooksAhead.of_runCommand {s : State} (op : BitVec 6) {legal : Bool} {body : State → Except Cause Done}
    (hs : s.CacheOk) (h : legal = true → ∀ d, body s = .ok d → LooksAhead s d.state) :
    LooksAhead s (runCommand op legal body s) := by
  rcases runCommand_cases op legal body s with ⟨_, hr⟩ | ⟨_, _, hr⟩ | ⟨_, _, c, _, hr⟩ | ⟨_, hlegal, d, hd, hr⟩
  · rw [hr]
    exact LooksAhead.of_sameReader hs rfl
  · rw [hr]
    exact LooksAhead.of_sameReader hs rfl
  · rw [hr]
    exact LooksAhead.of_sameReader hs rfl
  · rw [hr]
    have hd := h hlegal d hd
    exact hd.trans (LooksAhead.of_sameReader (hd.cacheOk hs) rfl)

theorem LooksAhead.of_peekBits {s : State} {n : Nat} {r : Word64 × State} (hs : s.CacheOk) (hn : n ≤ 32)
    (h : s.peekBits n = .ok r) : LooksAhead s r.2 := by
  obtain ⟨_, t, ht, rfl⟩ := State.peekBits_ok.mp h
  obtain ⟨hahead, _⟩ := LooksAhead.of_refillFor hs hn ht
  exact hahead

/-- A command that consumes nothing at most refills the cache behind the bits it holds; the idct_2d commands do not touch
the reader, even where they write over the stream (43_reconstruction.md R121). -/
theorem LooksAhead.of_exec {i : Instr} {s t : State} (hs : s.CacheOk) (hi : consumesNothing i = true)
    (h : exec i s = .next t) : LooksAhead s t := by
  have hself := LooksAhead.refl hs
  cases i with
  | init | readBit | readNz | readSigned | seek | align | readVlc | skip1stop8data => cases hi
  | tell | size | left =>
    cases h
    exact LooksAhead.of_runCommand _ hs fun _ _ => LooksAhead.of_ok hself
  | read n | read63 n | read64 n =>
    cases h
    refine LooksAhead.of_runCommand _ hs fun _ d hd => ?_
    rw [if_pos (of_decide_eq_true hi)] at hd
    exact LooksAhead.of_ok hself hd
  | peek n =>
    cases h
    refine LooksAhead.of_runCommand _ hs fun hlegal d hd => ?_
    rw [widthOk_zero, decide_eq_true_eq] at hlegal
    split at hd
    · exact LooksAhead.of_ok hself hd
    · obtain ⟨r, hr, hd⟩ := except_bind_ok.mp hd
      exact LooksAhead.of_ok (LooksAhead.of_peekBits hs hlegal hr) hd
  | peekSigned n =>
    cases h
    refine LooksAhead.of_runCommand _ hs fun hlegal d hd => ?_
    rw [widthOk, Bool.and_eq_true, decide_eq_true_eq, decide_eq_true_eq] at hlegal
    obtain ⟨_, hle⟩ := hlegal
    obtain ⟨r, hr, hd⟩ := except_bind_ok.mp hd
    exact LooksAhead.of_ok (LooksAhead.of_peekBits hs hle hr) hd
  | skip n =>
    cases h
    refine LooksAhead.of_runCommand _ hs fun _ d hd => ?_
    obtain ⟨r, hr, hd⟩ := except_bind_ok.mp hd
    have hcount : countOf n = 0 := by rw [countOf, of_decide_eq_true hi, Nat.zero_mod]
    rw [hcount] at hr
    exact LooksAhead.of_ok (LooksAhead.of_skipBits_zero hs hr) hd
  | dequant n intra nonlin losslessDc qscale dcScale blk mat =>
    cases h
    refine LooksAhead.of_runCommand _ hs fun _ d hd => ?_
    split at hd
    · exact LooksAhead.of_ok hself hd
    · obtain ⟨out, _, hd⟩ := except_bind_ok.mp hd
      split at hd
      · exact LooksAhead.of_ok (LooksAhead.of_sameReader hs (sameReader_writeAssigned s blk out 64)) hd
      · cases hd
  | idctPut stride blk dst =>
    cases h
    exact LooksAhead.of_runCommand _ hs fun _ _ =>
      LooksAhead.of_ok (LooksAhead.of_sameReader hs (sameReader_putBlock s blk dst stride _))
  | idctAdd n stride blk dst =>
    cases h
    refine LooksAhead.of_runCommand _ hs fun _ d hd => ?_
    split at hd
    · exact LooksAhead.of_ok hself hd
    · exact LooksAhead.of_ok (LooksAhead.of_sameReader hs (sameReader_addBlock s blk dst stride _)) hd
  | idctDcAdd stride blk dst =>
    cases h
    exact LooksAhead.of_runCommand _ hs fun _ _ =>
      LooksAhead.of_ok (LooksAhead.of_sameReader hs (sameReader_addBlock s blk dst stride _))

/-! ### Runs of commands -/

/-- What a command that leads to `some u` in a run does first. -/
theorem execAll_cons_some {i : Instr} {is : List Instr} {s u : State} :
    execAll (i :: is) s = some u ↔ ∃ t, exec i s = .next t ∧ execAll is t = some u := by
  obtain ⟨t, ht, _⟩ := exec_frame i s
  rw [execAll, ht]
  constructor
  · intro h
    exact ⟨t, rfl, h⟩
  · rintro ⟨t', h, h'⟩
    cases h
    exact h'

theorem LooksAhead.of_execAll {js : List Instr} {s u : State} (hs : s.CacheOk) (hjs : js.all consumesNothing = true)
    (h : execAll js s = some u) : LooksAhead s u := by
  induction js generalizing s with
  | nil =>
    cases h
    exact LooksAhead.refl hs
  | cons j js ih =>
    obtain ⟨t, ht, h⟩ := execAll_cons_some.mp h
    rw [List.all_cons, Bool.and_eq_true] at hjs
    obtain ⟨hj, hjs⟩ := hjs
    have hahead := LooksAhead.of_exec hs hj ht
    exact hahead.trans (ih (hahead.cacheOk hs) hjs h)

/-- A fault is sticky: a command that leaves the block unfaulted found it so (60_exceptions.md R143). -/
theorem unfaulted_of_exec {i : Instr} {s t : State} (h : exec i s = .next t) (ht : t.faulted = false) :
    s.faulted = false := by
  obtain ⟨body, hbody⟩ := exec_runs i s
  rw [hbody] at h
  cases h
  by_contra hs
  rw [Bool.not_eq_false] at hs
  rw [runCommand_faulted hs, State.refuseFaulted_faulted, hs] at ht
  cases ht

theorem unfaulted_of_execAll {js : List Instr} {s u : State} (h : execAll js s = some u) (hu : u.faulted = false) :
    s.faulted = false := by
  induction js generalizing s with
  | nil =>
    cases h
    exact hu
  | cons j js ih =>
    obtain ⟨t, ht, h⟩ := execAll_cons_some.mp h
    exact unfaulted_of_exec ht (ih h)

/-! ### Commands that leave the block unfaulted -/

theorem State.takeFault_faulted (s : State) (op : BitVec 6) (c : Cause) : (s.takeFault op c).faulted = true := by
  have hlow : (faultWord op c).extractLsb' 0 8 = c.code := by
    refine BitVec.eq_of_getLsbD_eq fun i hi => ?_
    simp [faultWord, hi, show i < 32 by omega]
  unfold State.faulted State.faultCause
  rw [State.takeFault_fault, hlow]
  cases c <;> rfl

/-- A command that leaves the block unfaulted was legal and completed its body. -/
theorem runCommand_completed {op : BitVec 6} {legal : Bool} {body : State → Except Cause Done} {s : State}
    (h : (runCommand op legal body s).faulted = false) :
    legal = true ∧ ∃ d, body s = .ok d ∧ runCommand op legal body s = d.state.complete d.value d.invalid := by
  rcases runCommand_cases op legal body s with ⟨hs, hr⟩ | ⟨_, _, hr⟩ | ⟨_, _, c, _, hr⟩ | ⟨_, hlegal, hd⟩
  · rw [hr, State.refuseFaulted_faulted, hs] at h
    cases h
  · rw [hr, State.takeFault_faulted] at h
    cases h
  · rw [hr, State.takeFault_faulted] at h
    cases h
  · exact ⟨hlegal, hd⟩

/-- PEEK without a fault: the refill for its width, and `Show` of it; a peek of no bit is no exception. -/
theorem exec_peek_completed {n : BitVec 7} {s t : State} (h : exec (.peek n) s = .next t) (ht : t.faulted = false) :
    n.toNat ≤ 32 ∧ ∃ r, s.refillFor n.toNat = .ok r ∧ t = r.complete (r.showBits n.toNat) false := by
  cases h
  obtain ⟨hlegal, d, hd, hr⟩ := runCommand_completed ht
  rw [widthOk_zero, decide_eq_true_eq] at hlegal
  refine ⟨hlegal, ?_⟩
  rw [hr]
  split at hd
  case isTrue hzero =>
    cases hd
    rw [hzero]
    exact ⟨s, rfl, rfl⟩
  case isFalse =>
    obtain ⟨r, hpeek, hd⟩ := except_bind_ok.mp hd
    obtain ⟨_, u, hu, rfl⟩ := State.peekBits_ok.mp hpeek
    cases hd
    exact ⟨u, hu, rfl⟩

/-- READ without a fault: what PEEK does, and `Drop` of the width. -/
theorem exec_read_completed {n : BitVec 7} {s t : State} (h : exec (.read n) s = .next t) (ht : t.faulted = false) :
    n.toNat ≤ 32 ∧
      ∃ r, s.refillFor n.toNat = .ok r ∧ t = (r.dropBits n.toNat).complete (r.showBits n.toNat) false := by
  cases h
  obtain ⟨hlegal, d, hd, hr⟩ := runCommand_completed ht
  rw [widthOk_zero, decide_eq_true_eq] at hlegal
  refine ⟨hlegal, ?_⟩
  rw [hr]
  split at hd
  case isTrue hzero =>
    cases hd
    rw [hzero]
    exact ⟨s, rfl, by rw [State.dropBits_zero, State.showBits_zero]⟩
  case isFalse =>
    obtain ⟨r, htake, hd⟩ := except_bind_ok.mp hd
    obtain ⟨_, u, hu, rfl⟩ := State.takeBits_ok.mp htake
    cases hd
    exact ⟨u, hu, rfl⟩

/-! ### PEEK and PEEK, PEEK and READ -/

/-- After a PEEK without a fault its bits are cached, or its refill was suppressed. -/
theorem cached_of_exec_peek {n : BitVec 7} {s t : State} (hs : s.CacheOk) (h : exec (.peek n) s = .next t)
    (ht : t.faulted = false) : n.toNat ≤ t.valid.toNat ∨ s.atEnd = true := by
  obtain ⟨hn, r, hr, rfl⟩ := exec_peek_completed h ht
  obtain ⟨_, hcached⟩ := LooksAhead.of_refillFor hs hn hr
  exact hcached

/-- What a PEEK without a fault showed is what any reader that looks further ahead still shows. -/
theorem showBits_of_exec_peek {n : BitVec 7} {s t u : State} (hs : s.CacheOk) (h : exec (.peek n) s = .next t)
    (ht : t.faulted = false) (hu : LooksAhead t u) : u.showBits n.toNat = t.res := by
  have hst := LooksAhead.of_exec hs rfl h
  have hcached := (cached_of_exec_peek hs h ht).imp_right hst.atEnd
  obtain ⟨hn, r, _, rfl⟩ := exec_peek_completed h ht
  exact hu.showBits (hst.cacheOk hs) (by omega) hcached

/-- Settles O45: the commands between the two PEEKs only look ahead, so that the second one shows what the first showed. -/
theorem peekIsIdempotent : Obligations.PeekIsIdempotent := by
  unfold Obligations.PeekIsIdempotent
  intro n js s t u v hinv hjs ht hu hv hfault
  have hs := State.cacheOk_of_inv hinv
  have hufault := unfaulted_of_exec hv hfault
  have htfault := unfaulted_of_execAll hu hufault
  have hst := LooksAhead.of_exec hs rfl ht
  have htu := LooksAhead.of_execAll (hst.cacheOk hs) hjs hu
  have huok := htu.cacheOk (hst.cacheOk hs)
  have huv := LooksAhead.of_exec huok rfl hv
  refine ⟨?_, hst.tell, huv.tell, (hst.trans (htu.trans huv)).tell⟩
  rw [← showBits_of_exec_peek huok hv hfault (LooksAhead.refl (huv.cacheOk huok))]
  exact showBits_of_exec_peek hs ht htfault (htu.trans huv)

/-- A checked reader whose refills are suppressed supplies cached bits alone (20_memory.md R44, R45). -/
theorem State.le_valid_of_supplies {s : State} {n : Nat} (hsup : s.supplies n = true) (hend : s.atEnd = true) :
    n ≤ s.valid.toNat := by
  obtain ⟨hchecked, hptr⟩ := s.atEnd_iff.mp hend
  rw [State.supplies, if_pos hchecked, Bool.or_eq_true, decide_eq_true_eq, decide_eq_true_eq] at hsup
  omega

/-- Settles O46: READ shows what PEEK left in the cache, and drops it. -/
theorem peekThenReadAgree : Obligations.PeekThenReadAgree := by
  unfold Obligations.PeekThenReadAgree
  intro n s t u hinv ht hu hfault
  have hs := State.cacheOk_of_inv hinv
  have htfault := unfaulted_of_exec hu hfault
  have hst := LooksAhead.of_exec hs rfl ht
  obtain ⟨hn, r, hr, rfl⟩ := exec_read_completed hu hfault
  obtain ⟨htr, _⟩ := LooksAhead.of_refillFor (hst.cacheOk hs) hn hr
  refine ⟨showBits_of_exec_peek hs ht htfault htr, fun hsup => ?_⟩
  have hcached : n.toNat ≤ t.valid.toNat := by
    rcases cached_of_exec_peek hs ht htfault with hcached | hend
    · exact hcached
    · exact Nat.le_trans (State.le_valid_of_supplies hsup hend) hst.valid_mono
  rw [State.complete_tell, State.dropBits_tell, htr.tell, hst.tell, Nat.min_eq_left (Nat.le_trans hcached htr.valid_mono)]

end Sys2Proof.Machine
end

section
/-! PROOFS. READ_63 gives the field of its bits on the stream, and is the two reads of its parts (41_reader_extract.md R94,
R104). -/

namespace Sys2Proof.Machine

/-! ### The value of a wide read -/

/-- Two parts that are stream fields, one after the other, join to the field of both (20_memory.md R52). -/
theorem State.joinParts_streamField {s : State} {p q : Word64} {k a b : Nat} (hab : a + b ≤ 64)
    (hp : p.toNat = s.streamField k a) (hq : q.toNat = s.streamField (k + a) b) :
    (s.joinParts p a q b).toNat = s.streamField k (a + b) := by
  have hpbit : ∀ i, p.getLsbD i = (s.streamField k a).testBit i := fun i => by rw [← hp]; rfl
  have hqbit : ∀ i, q.getLsbD i = (s.streamField (k + a) b).testBit i := fun i => by rw [← hq]; rfl
  unfold State.streamField at hpbit hqbit ⊢
  unfold State.joinParts
  refine Nat.eq_of_testBit_eq fun i => ?_
  rw [BitVec.testBit_toNat]
  cases he : s.params.endian with
  | le =>
    simp only [he] at hpbit hqbit ⊢
    rw [BitVec.getLsbD_or, BitVec.getLsbD_shiftLeft, hpbit, hqbit, State.fieldLe_testBit, State.fieldLe_testBit,
      State.fieldLe_testBit]
    by_cases ha : i < a
    · simp [ha, show i < a + b by omega]
    · have hpos : k + a + (i - a) = k + i := by omega
      by_cases hb : i < a + b
      · simp [ha, hb, hpos, show i < 64 by omega, show i - a < b by omega]
      · simp [ha, hb, show ¬ i - a < b by omega]
  | be =>
    simp only [he] at hpbit hqbit ⊢
    rw [BitVec.getLsbD_or, BitVec.getLsbD_shiftLeft, hpbit, hqbit, State.fieldBe_testBit, State.fieldBe_testBit,
      State.fieldBe_testBit]
    by_cases hb : i < b
    · have hpos : k + a + (b - 1 - i) = k + (a + b - 1 - i) := by omega
      simp [hb, hpos, show i < a + b by omega]
    · have hpos : a - 1 - (i - b) = a + b - 1 - i := by omega
      by_cases ha : i < a + b
      · simp [hb, ha, hpos, show i < 64 by omega, show i - b < a by omega]
      · simp [hb, ha, show ¬ i - b < a by omega]

/-- What READ_63's body does, with the drain of an empty cache as no exception (41_reader_extract.md R94). -/
theorem State.takeWide_drains {s t : State} {n : Nat} (hrange : s.checkRange n = .ok ()) (hn : s.valid.toNat < n)
    (ht : (s.dropBits s.valid.toNat).refill64 = .ok t) :
    s.takeWide n = .ok (s.joinParts (s.showBits s.valid.toNat) s.valid.toNat
      (t.showBits (n - s.valid.toNat)) (n - s.valid.toNat), t.dropBits (n - s.valid.toNat)) := by
  refine State.takeWide_ok.mpr ⟨hrange, .inr ⟨hn, t, ?_, ?_⟩⟩
  · split
    · exact ht
    · rw [show s.valid.toNat = 0 by omega, State.dropBits_zero] at ht
      exact ht
  · split
    · rfl
    · rw [show s.valid.toNat = 0 by omega, State.showBits_zero]

/-- A reader that holds the stream in order, with the padding its refills rely on (20_memory.md R33, R52). -/
structure State.Streams (s : State) : Prop where
  cacheOk : s.CacheOk
  ordered : s.streamOrdered = true
  pad_ge : 8 ≤ s.params.pad

theorem State.streams_of_ready {s : State} (h : s.ready = true) : s.Streams := by
  rw [State.ready, Bool.and_eq_true, Bool.and_eq_true] at h
  obtain ⟨⟨hinv, hordered⟩, _⟩ := h
  exact ⟨State.cacheOk_of_inv hinv, hordered, State.pad_of_inv hinv⟩

theorem State.Streams.complete {s : State} (h : s.Streams) (v : Word64) (b : Bool) : (s.complete v b).Streams :=
  ⟨⟨h.cacheOk.valid_le, h.cacheOk.valid_le_ptr, h.cacheOk.aligned, h.cacheOk.in_range⟩, h.ordered, h.pad_ge⟩

/-- `Drop` of cached bits leaves a reader that holds the stream in order, where the position stays in range. -/
theorem State.Streams.dropBits {s : State} (h : s.Streams) {n : Nat} (hn : n ≤ s.valid.toNat)
    (hrange : s.params.checked = true ∨ s.tell + (n : Int) ≤ (s.size.toNat : Int)) : (s.dropBits n).Streams where
  cacheOk := {
    valid_le := by have := h.cacheOk.valid_le; rw [State.dropBits_bitCount]; omega
    valid_le_ptr := by
      have := h.cacheOk.valid_le_ptr
      rw [State.dropBits_bitCount, State.dropBits_ptrOff]
      omega
    aligned := State.dropBits_cacheAligned h.cacheOk.valid_le h.cacheOk.aligned n
    in_range := by rwa [State.dropBits_params, State.dropBits_tell, State.dropBits_size, Nat.min_eq_left hn] }
  ordered := State.dropBits_streamOrdered h.cacheOk.valid_le h.cacheOk.tell_nonneg h.ordered n
  pad_ge := h.pad_ge

/-- A `Refill64` of a drained reader below the end of the buffer succeeds and holds the next 64 bits in order. -/
theorem State.Streams.refill64 {s : State} (h : s.Streams) (hv : s.valid.toNat = 0)
    (hptr : s.ptrOff.toNat < s.byteLen.toNat) : s.refill64 = .ok s.refilled64 ∧ s.refilled64.Streams := by
  have hend : s.atEnd = false := s.atEnd_eq_false.mpr (.inr hptr)
  have hlen := s.byteLen.isLt
  have hpad := h.pad_ge
  refine ⟨State.refill64_eq.mpr (.inr ⟨hend, by omega, rfl⟩), ?_⟩
  have hahead := LooksAhead.of_refilled64 h.cacheOk hv hend
  exact ⟨hahead.cacheOk h.cacheOk, s.refilled64_streamOrdered (by omega), by rwa [hahead.params]⟩

theorem State.Streams.showBits {s : State} (h : s.Streams) {n : Nat} (hn : n ≤ s.valid.toNat) :
    (s.showBits n).toNat = s.streamField s.tell.toNat n :=
  s.showBits_eq_streamField n h.ordered hn h.cacheOk.valid_le

/-- What a read of `n` bits answers: their stream field, and a reader with Tell past them that goes on in order. -/
def State.yieldsField (s : State) (n : Nat) (r : Word64 × State) : Prop :=
  r.1.toNat = s.streamField s.tell.toNat n ∧ r.2.tell = s.tell + (n : Int) ∧ r.2.Streams

/-- READ_63 of cached bits takes them from the cache. -/
theorem State.Streams.takeWide_cached {s : State} (h : s.Streams) {n : Nat} (hn : n ≤ s.valid.toNat)
    (hrange : s.checkRange n = .ok ()) : ∃ r, s.takeWide n = .ok r ∧ s.yieldsField n r := by
  have hvalid := h.cacheOk.valid_le
  refine ⟨_, State.takeWide_ok.mpr ⟨hrange, .inl ⟨hn, rfl⟩⟩, ?_, ?_, h.dropBits hn (State.checkRange_ok.mp hrange)⟩
  · have hnone : (0 : Word64).toNat = s.streamField s.tell.toNat 0 := by
      rw [State.streamField_zero]
      rfl
    have hjoin := State.joinParts_streamField (by omega) hnone (h.showBits hn)
    rwa [Nat.zero_add] at hjoin
  · rw [State.dropBits_tell, Nat.min_eq_left hn]

/-- READ_63 of more bits than are cached drains the cache, refills it and joins the two parts. -/
theorem State.Streams.takeWide_refilled {s : State} (h : s.Streams) {n : Nat} (hn : n ≤ 64) (hv : s.valid.toNat < n)
    (hlen : s.tell + (n : Int) ≤ 8 * (s.byteLen.toNat : Int)) (hrange : s.checkRange n = .ok ()) :
    ∃ r, s.takeWide n = .ok r ∧ s.yieldsField n r := by
  have hin := State.checkRange_ok.mp hrange
  have hnonneg := h.cacheOk.tell_nonneg
  have hbytes := s.byteLen.isLt
  have hptr : s.tell + (s.valid.toNat : Int) = 8 * (s.ptrOff.toNat : Int) := by
    unfold State.tell
    omega
  have hdrained := h.dropBits (Nat.le_refl _) (hin.imp_right fun hle => by omega)
  have hempty : (s.dropBits s.valid.toNat).valid.toNat = 0 := by rw [State.dropBits_bitCount, Nat.sub_self]
  obtain ⟨hrefill, hfull⟩ := hdrained.refill64 hempty (by rw [State.dropBits_ptrOff, State.dropBits_byteLen]; omega)
  have htell : (s.dropBits s.valid.toNat).refilled64.tell = s.tell + (s.valid.toNat : Int) := by
    rw [State.refilled64_tell _ (by rw [State.dropBits_ptrOff]; omega), State.dropBits_ptrOff, hptr]
  have hframe := cursorFrame_trans (cursorFrame_dropBits s s.valid.toNat) (cursorFrame_refilled64 _)
  have hvalid := (s.dropBits s.valid.toNat).refilled64_valid
  generalize (s.dropBits s.valid.toNat).refilled64 = t at hrefill hfull htell hframe hvalid
  have hrest : n - s.valid.toNat ≤ t.valid.toNat := by omega
  refine ⟨_, State.takeWide_drains hrange hv hrefill, ?_, ?_, hfull.dropBits hrest ?_⟩
  · have hlast : (t.showBits (n - s.valid.toNat)).toNat =
        s.streamField (s.tell.toNat + s.valid.toNat) (n - s.valid.toNat) := by
      rw [hfull.showBits hrest, cursorFrame_streamField hframe, htell]
      congr 1
      omega
    have hjoin := State.joinParts_streamField (by omega) (h.showBits (Nat.le_refl _)) hlast
    rwa [Nat.add_sub_cancel' (Nat.le_of_lt hv)] at hjoin
  · rw [State.dropBits_tell, htell, Nat.min_eq_left hrest]
    omega
  · rw [cursorFrame_params hframe, cursorFrame_size hframe, htell]
    exact hin.imp_right fun hle => by omega

/-- The body of READ_63 on bits below the end of the buffer yields their stream field (41_reader_extract.md R94). -/
theorem State.Streams.takeWide {s : State} (h : s.Streams) {n : Nat} (hn : n ≤ 64)
    (hlen : s.tell + (n : Int) ≤ 8 * (s.byteLen.toNat : Int)) (hrange : s.checkRange n = .ok ()) :
    ∃ r, s.takeWide n = .ok r ∧ s.yieldsField n r := by
  by_cases hcached : n ≤ s.valid.toNat
  · exact h.takeWide_cached hcached hrange
  · exact h.takeWide_refilled hn (Nat.lt_of_not_le hcached) hlen hrange

/-! ### READ_63 -/

/-- The block of `t` reads the same stream as that of `s`, within the same bounds, and is faulted if that is. -/
structure SameStream (s t : State) : Prop where
  params : t.params = s.params
  byteLen : t.byteLen = s.byteLen
  size : t.size = s.size
  faulted : t.faulted = s.faulted
  streamField : ∀ k n, t.streamField k n = s.streamField k n

theorem State.complete_fieldLe (s : State) (v : Word64) (b : Bool) (k n : Nat) :
    (s.complete v b).fieldLe k n = s.fieldLe k n := by
  induction n with
  | zero => rfl
  | succ n ih => rw [State.fieldLe, State.fieldLe, ih, State.complete_streamBit]

theorem State.complete_fieldBe (s : State) (v : Word64) (b : Bool) (k n : Nat) :
    (s.complete v b).fieldBe k n = s.fieldBe k n := by
  induction n with
  | zero => rfl
  | succ n ih => rw [State.fieldBe, State.fieldBe, ih, State.complete_streamBit]

theorem State.complete_streamField (s : State) (v : Word64) (b : Bool) (k n : Nat) :
    (s.complete v b).streamField k n = s.streamField k n := by
  unfold State.streamField
  rw [State.complete_params, State.complete_fieldLe, State.complete_fieldBe]

/-- A command whose body only moves the cursor reads the same stream on. -/
theorem SameStream.of_complete {s r : State} (h : cursorFrame s r) (v : Word64) (b : Bool) :
    SameStream s (r.complete v b) where
  params := (State.complete_params r v b).trans (cursorFrame_params h)
  byteLen := (State.complete_byteLen r v b).trans (cursorFrame_byteLen h)
  size := (State.complete_size r v b).trans (cursorFrame_size h)
  faulted := by rw [State.complete_faulted, State.faulted, State.faultCause, cursorFrame_fault h]; rfl
  streamField k n := by rw [State.complete_streamField, cursorFrame_streamField h]

theorem toNat_ofNat_width {n : Nat} (hn : n ≤ 63) : (BitVec.ofNat 7 n).toNat = n := Nat.mod_eq_of_lt (by omega)

/-- READ_63 without a fault passed CheckRange for its width. -/
theorem checkRange_of_exec_read63 {n : Nat} {s t : State} (hpos : 1 ≤ n) (hn : n ≤ 63)
    (h : exec (.read63 (BitVec.ofNat 7 n)) s = .next t) (ht : t.faulted = false) : s.checkRange n = .ok () := by
  cases h
  obtain ⟨_, d, hd, _⟩ := runCommand_completed ht
  rw [toNat_ofNat_width hn, if_neg (by omega)] at hd
  obtain ⟨r, hr, _⟩ := except_bind_ok.mp hd
  obtain ⟨hrange, _⟩ := State.takeWide_ok.mp hr
  exact hrange

/-- READ_63 of bits below the end of the buffer yields their stream field (41_reader_extract.md R94). -/
theorem exec_read63_yieldsField {n : Nat} {s t : State} (hs : s.Streams) (hfault : s.faulted = false) (hpos : 1 ≤ n)
    (hn : n ≤ 63) (hlen : s.tell + (n : Int) ≤ 8 * (s.byteLen.toNat : Int)) (hrange : s.checkRange n = .ok ())
    (h : exec (.read63 (BitVec.ofNat 7 n)) s = .next t) : s.yieldsField n (t.res, t) ∧ SameStream s t := by
  obtain ⟨⟨v, r⟩, htake, hv, htell, hstreams⟩ := hs.takeWide (by omega) hlen hrange
  have ht : t = r.complete v false := by
    cases h
    rw [widthOk_zero, toNat_ofNat_width hn, decide_eq_true hn]
    refine runCommand_ok (d := ⟨r, v, false⟩) hfault ?_
    rw [if_neg (by omega), htake]
    rfl
  subst ht
  exact ⟨⟨hv, htell, hstreams.complete v false⟩, SameStream.of_complete (cursorFrame_takeWide htake) v false⟩

/-- Settles O47: the two reads give the fields of the two parts, and `joinParts` joins fields that follow each other. -/
theorem readsConcatenate : Obligations.ReadsConcatenate := by
  unfold Obligations.ReadsConcatenate
  intro a b s u v w hready ha hb hab hlen hw hwfault hu hv
  have hs := State.streams_of_ready hready
  have hnonneg := hs.cacheOk.tell_nonneg
  have hfault := unfaulted_of_exec hw hwfault
  have hrange := checkRange_of_exec_read63 (by omega) hab hw hwfault
  have hin := State.checkRange_ok.mp hrange
  have hranges : s.checkRange a = .ok () := State.checkRange_ok.mpr (hin.imp_right fun hle => by omega)
  obtain ⟨⟨hwres, _⟩, _⟩ := exec_read63_yieldsField hs hfault (by omega) hab hlen hrange hw
  obtain ⟨⟨hures, hutell, hustreams⟩, hsame⟩ := exec_read63_yieldsField hs hfault ha (by omega) (by omega) hranges hu
  have hurange : u.checkRange b = .ok () := by
    rw [State.checkRange_ok, hsame.params, hsame.size, hutell]
    exact hin.imp_right fun hle => by omega
  obtain ⟨⟨hvres, _⟩, _⟩ := exec_read63_yieldsField hustreams (hsame.faulted.trans hfault) hb (by omega)
    (by rw [hutell, hsame.byteLen]; omega) hurange hv
  rw [hsame.streamField, hutell, show (s.tell + (a : Int)).toNat = s.tell.toNat + a by omega] at hvres
  have hjoin : w.res = s.joinParts u.res a v.res b :=
    BitVec.eq_of_toNat_eq (hwres.trans (State.joinParts_streamField (by omega) hures hvres).symm)
  rw [hjoin]
  unfold State.joinParts
  constructor
  · intro he
    simp only [he]
    exact BitVec.or_comm _ _
  · intro he
    simp only [he]
    exact BitVec.or_comm _ _

end Sys2Proof.Machine
end

section
/-! PROOFS. Faults and refusals are precise (60_exceptions.md R146). -/

namespace Sys2Proof.Machine

/-- FAULTED is not among the codes of a completed command (60_exceptions.md R141, R143). -/
theorem State.complete_status_ne_faulted (s : State) (v : Word64) (b : Bool) : (s.complete v b).status ≠ statusFaulted := by
  cases b with
  | false => exact (by decide : statusOk ≠ statusFaulted)
  | true => exact (by decide : statusInvalidData ≠ statusFaulted)

/-- A run that ends FAULTED was refused or took a fault, so nothing its body did is committed. -/
theorem runCommand_precise {op : BitVec 6} {legal : Bool} {body : State → Except Cause Done} {s : State}
    (h : (runCommand op legal body s).status = statusFaulted) :
    ∃ f, runCommand op legal body s = { s with fault := f, status := statusFaulted } := by
  rcases runCommand_cases op legal body s with ⟨_, hr⟩ | ⟨_, _, hr⟩ | ⟨_, _, c, _, hr⟩ | ⟨_, _, d, _, hr⟩
  · exact ⟨s.fault, hr⟩
  · exact ⟨faultWord op .illegalCommand, hr⟩
  · exact ⟨faultWord op c, hr⟩
  · rw [hr] at h
    exact absurd h (d.state.complete_status_ne_faulted d.value d.invalid)

/-- Settles O12: every meaning is a `runCommand`, which commits its body's copy only with STATUS 0 or 1. -/
theorem faultsArePrecise : Obligations.FaultsArePrecise := by
  unfold Obligations.FaultsArePrecise
  intro i s t h hstatus
  obtain ⟨body, hbody⟩ := exec_runs i s
  rw [hbody] at h
  cases h
  obtain ⟨f, hprecise⟩ := runCommand_precise hstatus
  rw [hprecise]
  exact ⟨rfl, fun _ => rfl⟩

end Sys2Proof.Machine
end

section
/-! PROOFS. Reset clears a fault, and no other input does (60_exceptions.md R143, 70_reset_and_hazards.md R166). -/

namespace Sys2Proof.Machine

/-! ### What the host port leaves in FAULT -/

@[simp] theorem State.portWrite_fault (s : State) (addr v : Word64) (width : PortWidth) :
    (s.portWrite addr width v).fault = s.fault := by
  unfold State.portWrite
  dsimp only
  split <;> simp

@[simp] theorem State.portWrite_faulted (s : State) (addr v : Word64) (width : PortWidth) :
    (s.portWrite addr width v).faulted = s.faulted := by
  unfold State.faulted State.faultCause
  rw [State.portWrite_fault]

@[simp] theorem State.answerRegRead_fault (s : State) (addr : Word64) (width : PortWidth) :
    (s.answerRegRead addr width).fault = s.fault := by
  unfold State.answerRegRead
  split <;> rfl

/-! ### A faulted block refuses every packet -/

theorem exec_of_faulted (i : Instr) {s : State} (h : s.faulted = true) : exec i s = .next s.refuseFaulted := by
  obtain ⟨body, hbody⟩ := exec_runs i s
  rw [hbody, runCommand_faulted h]

theorem State.rejectPacket_of_faulted {s : State} (h : s.faulted = true) : s.rejectPacket = s.refuseFaulted := by
  rw [State.rejectPacket, if_pos h]

/-- The sticky refusal comes before decoding counts for anything: it is the same for a packet that matches no row. -/
theorem issue_of_faulted {s : State} (h : s.faulted = true) : issue s = .next s.refuseFaulted := by
  unfold issue
  split
  · exact exec_of_faulted _ h
  · rw [State.rejectPacket_of_faulted h]

theorem issue_fault_of_faulted {s t : State} (hs : s.faulted = true) (h : issue s = .next t) : t.fault = s.fault := by
  rw [issue_of_faulted hs] at h
  cases h
  exact s.refuseFaulted_fault

/-! ### The step -/

theorem step_of_reset {s : State} {rest : List HostInput} (h : s.inbox = .reset :: rest) :
    step s = .next s.popInput.assertReset := by
  rw [step, h]

/-- Packets are refused, and every other input but reset does not reach FAULT. -/
theorem step_fault_of_faulted {s t : State} (hs : s.faulted = true) (hreset : ∀ rest, s.inbox ≠ .reset :: rest)
    (h : step s = .next t) : t.fault = s.fault := by
  cases hin : s.inbox with
  | nil =>
    rw [step, hin] at h
    cases h
    rfl
  | cons input rest =>
    rw [step, hin] at h
    cases input with
    | packet p => simpa using issue_fault_of_faulted (by simpa using hs) h
    | regWrite addr width v =>
      dsimp only at h
      split at h
      · simpa using issue_fault_of_faulted (by simpa using hs) h
      · cases h
        simp
    | regRead addr width =>
      cases h
      simp
    | memWrite addr b | memRead addr =>
      dsimp only at h
      split at h
      · cases h
        simp
      · cases h
    | reset => exact absurd hin (hreset rest)

/-- Settles O13: reset is one update that zeroes the registers, and every other input refuses or misses FAULT. -/
theorem resetAloneClearsFault : Obligations.ResetAloneClearsFault := by
  unfold Obligations.ResetAloneClearsFault
  refine ⟨fun s rest hin => ⟨s.popInput.assertReset, step_of_reset hin, ?_⟩, fun s t => step_fault_of_faulted⟩
  simp [State.config]

end Sys2Proof.Machine
end

section
/-! PROOFS. The opcode map: a command word is its fields side by side, each row's mask covers the bits its format fixes, and OP
alone names the row (30_encoding.md R62 to R69, R72). -/

namespace Sys2Proof

/-! ### Fields of the command word -/

/-- Bit `i` of a field placed at `s`. -/
theorem fieldAt_getLsbD (s i : Nat) {w : Nat} (v : BitVec w) :
    (fieldAt s v).getLsbD i = (decide (i < 32) && decide (s ≤ i) && v.getLsbD (i - s)) := by
  unfold fieldAt
  rw [BitVec.getLsbD_shiftLeft, BitVec.getLsbD_setWidth]
  by_cases h32 : i < 32
  · by_cases hs : s ≤ i
    · simp [h32, hs, show i - s < 32 by omega, show ¬ i < s by omega]
    · simp [h32, hs, show i < s by omega]
  · simp [h32]

/-- A field read where it was placed. -/
theorem extractLsb'_fieldAt_same (s : Nat) {w : Nat} (v : BitVec w) (h : s + w ≤ 32) : (fieldAt s v).extractLsb' s w = v := by
  refine BitVec.eq_of_getLsbD_eq fun i hi => ?_
  rw [BitVec.getLsbD_extractLsb', fieldAt_getLsbD]
  simp [hi, show s + i < 32 by omega]

/-- A field read where another one was placed. -/
theorem extractLsb'_fieldAt_apart (s start len : Nat) {w : Nat} (v : BitVec w) (h : start + len ≤ s ∨ s + w ≤ start) :
    (fieldAt s v).extractLsb' start len = 0#len := by
  refine BitVec.eq_of_getLsbD_eq fun i hi => ?_
  rw [BitVec.getLsbD_extractLsb', fieldAt_getLsbD, BitVec.getLsbD_zero]
  rcases h with h | h
  · simp [show ¬ s ≤ start + i by omega]
  · simp [BitVec.getLsbD_of_ge v (start + i - s) (by omega)]

/-- The mask of the `w` bits from `s` on. -/
def maskAt (s w : Nat) : Word32 := fieldAt s (BitVec.allOnes w)

theorem maskAt_getLsbD (s w i : Nat) : (maskAt s w).getLsbD i = (decide (i < 32) && decide (s ≤ i) && decide (i - s < w)) := by
  rw [maskAt, fieldAt_getLsbD, BitVec.getLsbD_allOnes]

/-- A field taken out of a word and put back is the word under the field's mask. -/
theorem fieldAt_extractLsb' (s w : Nat) (x : Word32) : fieldAt s (x.extractLsb' s w) = x &&& maskAt s w := by
  refine BitVec.eq_of_getLsbD_eq fun i hi => ?_
  rw [BitVec.getLsbD_and, maskAt_getLsbD, fieldAt_getLsbD, BitVec.getLsbD_extractLsb']
  by_cases hs : s ≤ i
  · simp [hi, hs, Bool.and_comm]
  · simp [hs]

theorem flagAt_getLsbD (s : Nat) (x : Word32) : flagAt s (x.getLsbD s) = x &&& maskAt s 1 := by
  rw [← fieldAt_extractLsb', flagAt]
  congr 1
  refine BitVec.eq_of_getLsbD_eq fun i hi => ?_
  rw [BitVec.getLsbD_extractLsb', BitVec.getLsbD_ofBool]
  simp [show i = 0 by omega]

/-- A field does not show under a mask that is 0 at its place. -/
theorem fieldAt_and_of_apart {s w : Nat} {mask : Word32} (v : BitVec w) (h : maskAt s w &&& mask = 0) :
    fieldAt s v &&& mask = 0#32 := by
  refine BitVec.eq_of_getLsbD_eq fun i hi => ?_
  have hbit := congrArg (fun x : Word32 => x.getLsbD i) h
  simp only [BitVec.getLsbD_and, maskAt_getLsbD, hi] at hbit
  rw [BitVec.getLsbD_and, fieldAt_getLsbD]
  by_cases hw : i - s < w
  · by_cases hs : s ≤ i
    · simp_all
    · simp [hs]
  · simp [BitVec.getLsbD_of_ge v (i - s) (by omega)]

/-! ### Rows of the opcode map -/

theorem opField_encode (i : Instr) : opField (encode i).cmd = i.opcode := by
  cases i with
  | init buf nbits => exact Laws.OpcodeField.init buf nbits
  | readBit => exact Laws.OpcodeField.readBit
  | read n => exact Laws.OpcodeField.read n
  | readNz n => exact Laws.OpcodeField.readNz n
  | read63 n => exact Laws.OpcodeField.read63 n
  | read64 n => exact Laws.OpcodeField.read64 n
  | readSigned n => exact Laws.OpcodeField.readSigned n
  | peek n => exact Laws.OpcodeField.peek n
  | peekSigned n => exact Laws.OpcodeField.peekSigned n
  | skip n => exact Laws.OpcodeField.skip n
  | seek pos => exact Laws.OpcodeField.seek pos
  | align => exact Laws.OpcodeField.align
  | tell => exact Laws.OpcodeField.tell
  | size => exact Laws.OpcodeField.size
  | left => exact Laws.OpcodeField.left
  | readVlc n d table tlen => exact Laws.OpcodeField.readVlc n d table tlen
  | skip1stop8data => exact Laws.OpcodeField.skip1stop8data
  | dequant n intra nonlin losslessDc qscale dcScale blk mat =>
    exact Laws.OpcodeField.dequant n intra nonlin losslessDc qscale dcScale blk mat
  | idctPut stride blk dst => exact Laws.OpcodeField.idctPut stride blk dst
  | idctAdd n stride blk dst => exact Laws.OpcodeField.idctAdd n stride blk dst
  | idctDcAdd stride blk dst => exact Laws.OpcodeField.idctDcAdd stride blk dst

theorem matchRow_ok {p : Packet} {mask pattern : Word32} {i j : Instr} :
    matchRow p mask pattern i = .ok j ↔ p.cmd &&& mask = pattern ∧ i = j := by
  unfold matchRow
  split
  · rename_i h
    exact ⟨fun hij => ⟨h, Except.ok.inj hij⟩, fun ⟨_, hij⟩ => congrArg _ hij⟩
  · rename_i h
    exact ⟨fun hij => (nomatch hij), fun ⟨hp, _⟩ => absurd hp h⟩

/-- The word of a row of the formats without fields, under the row's mask (30_encoding.md R63, R65). -/
theorem opWord_row (op : BitVec 6) : fieldAt 0 op &&& 0xFFFFFFFF = fieldAt 0 op := BitVec.and_allOnes

/-- The word of a row of format N, under the row's mask, and its field (30_encoding.md R64). -/
theorem widthWord_fields (op : BitVec 6) (n : BitVec 7) :
    (fieldAt 0 op ||| fieldAt 6 n) &&& 0xFFFFE03F = fieldAt 0 op ∧ nField (fieldAt 0 op ||| fieldAt 6 n) = n := by
  constructor
  · rw [BitVec.and_or_distrib_right, fieldAt_and_of_apart n (by decide), BitVec.or_zero]
    revert op
    decide
  · simp [nField, BitVec.extractLsb'_or, extractLsb'_fieldAt_same, extractLsb'_fieldAt_apart]

/-- The word of READ_VLC, under its row's mask, and its fields (30_encoding.md R66). -/
theorem vlcWord_fields (n : BitVec 7) (d : BitVec 2) :
    (fieldAt 0 (0x10 : BitVec 6) ||| fieldAt 6 n ||| fieldAt 13 d) &&& 0xFFFF803F = 0x10 ∧
      nField (fieldAt 0 (0x10 : BitVec 6) ||| fieldAt 6 n ||| fieldAt 13 d) = n ∧
      dField (fieldAt 0 (0x10 : BitVec 6) ||| fieldAt 6 n ||| fieldAt 13 d) = d := by
  refine ⟨?_, ?_, ?_⟩
  · rw [BitVec.and_or_distrib_right, BitVec.and_or_distrib_right, fieldAt_and_of_apart n (by decide),
      fieldAt_and_of_apart d (by decide)]
    decide
  · simp [nField, BitVec.extractLsb'_or, extractLsb'_fieldAt_same, extractLsb'_fieldAt_apart]
  · simp [dField, BitVec.extractLsb'_or, extractLsb'_fieldAt_same, extractLsb'_fieldAt_apart]

/-- The word of IDCT_PUT and IDCT_DC_ADD, under their rows' mask, and its field (30_encoding.md R68). -/
theorem strideWord_fields (op : BitVec 6) (stride : BitVec 16) :
    (fieldAt 0 op ||| fieldAt 16 stride) &&& 0x0000FFFF = fieldAt 0 op ∧
      strideField (fieldAt 0 op ||| fieldAt 16 stride) = stride := by
  constructor
  · rw [BitVec.and_or_distrib_right, fieldAt_and_of_apart stride (by decide), BitVec.or_zero]
    revert op
    decide
  · simp [strideField, BitVec.extractLsb'_or, extractLsb'_fieldAt_same, extractLsb'_fieldAt_apart]

/-- The word of IDCT_ADD, under its row's mask, and its fields (30_encoding.md R68). -/
theorem addWord_fields (n : BitVec 7) (stride : BitVec 16) :
    (fieldAt 0 (0x22 : BitVec 6) ||| fieldAt 6 n ||| fieldAt 16 stride) &&& 0x0000E03F = 0x22 ∧
      nField (fieldAt 0 (0x22 : BitVec 6) ||| fieldAt 6 n ||| fieldAt 16 stride) = n ∧
      strideField (fieldAt 0 (0x22 : BitVec 6) ||| fieldAt 6 n ||| fieldAt 16 stride) = stride := by
  refine ⟨?_, ?_, ?_⟩
  · rw [BitVec.and_or_distrib_right, BitVec.and_or_distrib_right, fieldAt_and_of_apart n (by decide),
      fieldAt_and_of_apart stride (by decide)]
    decide
  · simp [nField, BitVec.extractLsb'_or, extractLsb'_fieldAt_same, extractLsb'_fieldAt_apart]
  · simp [strideField, BitVec.extractLsb'_or, extractLsb'_fieldAt_same, extractLsb'_fieldAt_apart]

section Dequant

variable (n : BitVec 7) (intra nonlin losslessDc : Bool) (qscale : BitVec 5) (dcScale : BitVec 8)

/-- The word of DEQUANT (30_encoding.md R67, R72). -/
def dequantWord : Word32 :=
  fieldAt 0 (0x20 : BitVec 6) ||| fieldAt 6 n ||| flagAt 13 intra ||| flagAt 14 nonlin ||| flagAt 15 losslessDc |||
    fieldAt 16 qscale ||| fieldAt 21 dcScale

theorem dequantWord_row : dequantWord n intra nonlin losslessDc qscale dcScale &&& 0xE000003F = 0x20 := by
  unfold dequantWord flagAt
  simp only [BitVec.and_or_distrib_right]
  rw [fieldAt_and_of_apart n (by decide), fieldAt_and_of_apart (BitVec.ofBool intra) (by decide),
    fieldAt_and_of_apart (BitVec.ofBool nonlin) (by decide), fieldAt_and_of_apart (BitVec.ofBool losslessDc) (by decide),
    fieldAt_and_of_apart qscale (by decide), fieldAt_and_of_apart dcScale (by decide)]
  decide

theorem dequantWord_n : nField (dequantWord n intra nonlin losslessDc qscale dcScale) = n := by
  simp [dequantWord, flagAt, nField, BitVec.extractLsb'_or, extractLsb'_fieldAt_same, extractLsb'_fieldAt_apart]

theorem dequantWord_qscale : qscaleField (dequantWord n intra nonlin losslessDc qscale dcScale) = qscale := by
  simp [dequantWord, flagAt, qscaleField, BitVec.extractLsb'_or, extractLsb'_fieldAt_same, extractLsb'_fieldAt_apart]

theorem dequantWord_dcScale : dcScaleField (dequantWord n intra nonlin losslessDc qscale dcScale) = dcScale := by
  simp [dequantWord, flagAt, dcScaleField, BitVec.extractLsb'_or, extractLsb'_fieldAt_same, extractLsb'_fieldAt_apart]

theorem dequantWord_flags :
    (dequantWord n intra nonlin losslessDc qscale dcScale).getLsbD 13 = intra ∧
      (dequantWord n intra nonlin losslessDc qscale dcScale).getLsbD 14 = nonlin ∧
      (dequantWord n intra nonlin losslessDc qscale dcScale).getLsbD 15 = losslessDc := by
  simp only [dequantWord, flagAt, BitVec.getLsbD_or, fieldAt_getLsbD]
  simp

end Dequant

/-! ### Encoding, then decoding -/

/-- Settles O1: OP selects the command's own row, whose mask hides the operand fields, and each field comes back from its
place. -/
theorem decodeOfEncode : Obligations.DecodeOfEncode := by
  unfold Obligations.DecodeOfEncode
  intro i
  rw [decode, congrArg BitVec.toNat (opField_encode i)]
  cases i with
  | init | readBit | skip | seek | align | tell | size | left | skip1stop8data =>
    exact matchRow_ok.mpr ⟨opWord_row _, rfl⟩
  | read n | readNz n | read63 n | read64 n | readSigned n | peek n | peekSigned n =>
    obtain ⟨hrow, hn⟩ := widthWord_fields _ n
    exact matchRow_ok.mpr ⟨hrow, congrArg _ hn⟩
  | readVlc n d table tlen =>
    obtain ⟨hrow, hn, hd⟩ := vlcWord_fields n d
    exact matchRow_ok.mpr ⟨hrow, congrArg₂ (fun n d => Instr.readVlc n d table tlen) hn hd⟩
  | dequant n intra nonlin losslessDc qscale dcScale blk mat =>
    obtain ⟨hintra, hnonlin, hlossless⟩ := dequantWord_flags n intra nonlin losslessDc qscale dcScale
    refine matchRow_ok.mpr ⟨dequantWord_row n intra nonlin losslessDc qscale dcScale, ?_⟩
    show Instr.dequant (nField (dequantWord n intra nonlin losslessDc qscale dcScale)) _ _ _ _ _ blk mat = _
    congr
    · exact dequantWord_n ..
    · exact dequantWord_qscale ..
    · exact dequantWord_dcScale ..
  | idctPut stride blk dst =>
    obtain ⟨hrow, hstride⟩ := strideWord_fields 0x21 stride
    exact matchRow_ok.mpr ⟨hrow, congrArg (fun stride => Instr.idctPut stride blk dst) hstride⟩
  | idctDcAdd stride blk dst =>
    obtain ⟨hrow, hstride⟩ := strideWord_fields 0x23 stride
    exact matchRow_ok.mpr ⟨hrow, congrArg (fun stride => Instr.idctDcAdd stride blk dst) hstride⟩
  | idctAdd n stride blk dst =>
    obtain ⟨hrow, hn, hstride⟩ := addWord_fields n stride
    exact matchRow_ok.mpr ⟨hrow, congrArg₂ (fun n stride => Instr.idctAdd n stride blk dst) hn hstride⟩

/-! ### Decoding, then encoding -/

/-- A word is the pattern of its row joined with its bits under a mask of all the operand fields. -/
theorem pattern_or_fields {x mask pattern fields : Word32} (h : x &&& mask = pattern)
    (hall : mask ||| fields = BitVec.allOnes 32) : pattern ||| (x &&& fields) = x := by
  rw [← h, ← BitVec.and_or_distrib_left, hall, BitVec.and_allOnes]

theorem opWord_eq {op : BitVec 6} {x : Word32} (h : x &&& 0xFFFFFFFF = fieldAt 0 op) : fieldAt 0 op = x :=
  h.symm.trans BitVec.and_allOnes

theorem widthWord_eq {op : BitVec 6} {x : Word32} (h : x &&& 0xFFFFE03F = fieldAt 0 op) :
    fieldAt 0 op ||| fieldAt 6 (nField x) = x := by
  rw [nField, fieldAt_extractLsb']
  exact pattern_or_fields h (by decide)

theorem vlcWord_eq {op : BitVec 6} {x : Word32} (h : x &&& 0xFFFF803F = fieldAt 0 op) :
    fieldAt 0 op ||| fieldAt 6 (nField x) ||| fieldAt 13 (dField x) = x := by
  rw [nField, dField, fieldAt_extractLsb', fieldAt_extractLsb', BitVec.or_assoc, ← BitVec.and_or_distrib_left]
  exact pattern_or_fields h (by decide)

theorem strideWord_eq {op : BitVec 6} {x : Word32} (h : x &&& 0x0000FFFF = fieldAt 0 op) :
    fieldAt 0 op ||| fieldAt 16 (strideField x) = x := by
  rw [strideField, fieldAt_extractLsb']
  exact pattern_or_fields h (by decide)

theorem addWord_eq {op : BitVec 6} {x : Word32} (h : x &&& 0x0000E03F = fieldAt 0 op) :
    fieldAt 0 op ||| fieldAt 6 (nField x) ||| fieldAt 16 (strideField x) = x := by
  rw [nField, strideField, fieldAt_extractLsb', fieldAt_extractLsb', BitVec.or_assoc, ← BitVec.and_or_distrib_left]
  exact pattern_or_fields h (by decide)

theorem dequantWord_eq {x : Word32} (h : x &&& 0xE000003F = 0x20) :
    dequantWord (nField x) (x.getLsbD 13) (x.getLsbD 14) (x.getLsbD 15) (qscaleField x) (dcScaleField x) = x := by
  unfold dequantWord nField qscaleField dcScaleField
  simp only [fieldAt_extractLsb', flagAt_getLsbD, BitVec.or_assoc, ← BitVec.and_or_distrib_left]
  exact pattern_or_fields h (by decide)

/-- The command word a command is decoded from is the one the encoder writes for it. -/
theorem encodeCmd_of_decode {p : Packet} {i : Instr} (h : decode p = .ok i) : encodeCmd i = p.cmd := by
  unfold decode at h
  split at h
  case h_22 => cases h
  all_goals obtain ⟨hrow, rfl⟩ := matchRow_ok.mp h
  case h_1 | h_2 | h_10 | h_11 | h_12 | h_13 | h_14 | h_15 | h_17 => exact opWord_eq hrow
  case h_3 | h_4 | h_5 | h_6 | h_7 | h_8 | h_9 => exact widthWord_eq hrow
  case h_16 => exact vlcWord_eq hrow
  case h_18 => exact dequantWord_eq hrow
  case h_19 | h_21 => exact strideWord_eq hrow
  case h_20 => exact addWord_eq hrow

/-- A command with other argument words; a command without an argument keeps its operands (30_encoding.md R62). -/
def Instr.withArgs (a b : Word64) : Instr → Instr
  | .init _ _ => .init a b
  | .skip _ => .skip a
  | .seek _ => .seek a
  | .readVlc n d _ _ => .readVlc n d a b
  | .dequant n intra nonlin losslessDc qscale dcScale _ _ => .dequant n intra nonlin losslessDc qscale dcScale a b
  | .idctPut stride _ _ => .idctPut stride a b
  | .idctAdd n stride _ _ => .idctAdd n stride a b
  | .idctDcAdd stride _ _ => .idctDcAdd stride a b
  | i => i

/-- The argument words reach the decoded command and decide nothing else. -/
theorem decode_withArgs {p : Packet} {i : Instr} (h : decode p = .ok i) (a b : Word64) :
    decode ⟨p.cmd, a, b⟩ = .ok (i.withArgs a b) := by
  unfold decode at h
  split at h
  case h_22 => cases h
  all_goals
    rename_i hop
    obtain ⟨hrow, rfl⟩ := matchRow_ok.mp h
    simp only [decode, hop]
    exact matchRow_ok.mpr ⟨hrow, rfl⟩

theorem Instr.withArgs_congr {i : Instr} {a b a' b' : Word64} (ha : Machine.usesArgA i = true → a = a')
    (hb : Machine.usesArgB i = true → b = b') : i.withArgs a b = i.withArgs a' b' := by
  cases i with
  | readBit | read | readNz | read63 | read64 | readSigned | peek | peekSigned | align | tell | size | left
  | skip1stop8data => rfl
  | skip | seek => rw [withArgs, withArgs, ha rfl]
  | init | readVlc | dequant | idctPut | idctAdd | idctDcAdd => rw [withArgs, withArgs, ha rfl, hb rfl]

/-- Settles O2: the row and the operand fields make up the command word, and an argument word that does not reach the command
does not decide anything. -/
theorem encodeOfDecode : Obligations.EncodeOfDecode := by
  unfold Obligations.EncodeOfDecode
  intro p i h
  refine ⟨encodeCmd_of_decode h, fun a b ha hb => ?_⟩
  have hself : i.withArgs p.argA p.argB = i := Except.ok.inj ((decode_withArgs h p.argA p.argB).symm.trans h)
  rw [decode_withArgs h, Instr.withArgs_congr ha hb, hself]

/-! ### One row for each opcode -/

/-- The match and mask columns of the opcode map (30_encoding.md R69). -/
def opcodeRows : List (Word32 × Word32) :=
  [(0x00000001, 0xFFFFFFFF), (0x00000002, 0xFFFFFFFF), (0x00000003, 0xFFFFE03F), (0x00000004, 0xFFFFE03F),
   (0x00000005, 0xFFFFE03F), (0x00000006, 0xFFFFE03F), (0x00000007, 0xFFFFE03F), (0x00000008, 0xFFFFE03F),
   (0x00000009, 0xFFFFE03F), (0x0000000A, 0xFFFFFFFF), (0x0000000B, 0xFFFFFFFF), (0x0000000C, 0xFFFFFFFF),
   (0x0000000D, 0xFFFFFFFF), (0x0000000E, 0xFFFFFFFF), (0x0000000F, 0xFFFFFFFF), (0x00000010, 0xFFFF803F),
   (0x00000011, 0xFFFFFFFF), (0x00000020, 0xE000003F), (0x00000021, 0x0000FFFF), (0x00000022, 0x0000E03F),
   (0x00000023, 0x0000FFFF)]

/-- OP belongs to every row's mask, so a word that matches a row has the row's opcode. -/
theorem opField_of_row {r : Word32 × Word32} (hr : r ∈ opcodeRows) {cmd : Word32} (h : cmd &&& r.2 = r.1) :
    opField cmd = opField r.1 := by
  have hmask : opcodeRows.all (fun r => decide (opField r.2 = BitVec.allOnes 6)) = true := by decide
  have hop : opField (cmd &&& r.2) = opField cmd &&& opField r.2 := BitVec.extractLsb'_and
  rw [← h, hop, of_decide_eq_true (List.all_eq_true.mp hmask r hr), BitVec.and_allOnes]

/-- A packet decodes exactly when its command word matches some row. -/
theorem decodes_iff_matches (p : Packet) : (∃ i, decode p = .ok i) ↔ ∃ r ∈ opcodeRows, p.cmd &&& r.2 = r.1 := by
  constructor
  · rintro ⟨i, h⟩
    unfold decode at h
    split at h
    case h_22 => cases h
    all_goals
      obtain ⟨hrow, _⟩ := matchRow_ok.mp h
      exact ⟨(_, _), by decide, hrow⟩
  · rintro ⟨r, hr, hrow⟩
    have hop := opField_of_row hr hrow
    simp only [opcodeRows, List.mem_cons, List.not_mem_nil, or_false] at hr
    rcases hr with rfl | rfl | rfl | rfl | rfl | rfl | rfl | rfl | rfl | rfl | rfl | rfl | rfl | rfl | rfl | rfl | rfl | rfl |
      rfl | rfl | rfl
    all_goals exact ⟨_, by rw [decode, hop]; exact matchRow_ok.mpr ⟨hrow, rfl⟩⟩

/-- No two rows have one opcode, so at most one row matches. -/
theorem matching_rows_length_le (cmd : Word32) : (opcodeRows.filter (fun r => decide (cmd &&& r.2 = r.1))).length ≤ 1 := by
  have hops : ((opcodeRows.filter (fun r => decide (cmd &&& r.2 = r.1))).map (fun r => opField r.1)).Nodup :=
    List.Nodup.sublist (List.filter_sublist.map _) (by decide : (opcodeRows.map (fun r => opField r.1)).Nodup)
  have hsame : ∀ op ∈ (opcodeRows.filter (fun r => decide (cmd &&& r.2 = r.1))).map (fun r => opField r.1),
      op = opField cmd := by
    intro op hop
    obtain ⟨r, hr, rfl⟩ := List.mem_map.mp hop
    obtain ⟨hmem, hrow⟩ := List.mem_filter.mp hr
    exact (opField_of_row hmem (of_decide_eq_true hrow)).symm
  rw [List.eq_replicate_of_mem hsame, List.nodup_replicate, List.length_map] at hops
  exact hops

/-- Settles O3: a packet decodes when some row matches, and the opcodes tell the rows apart. -/
theorem decodesExactlyOneRow : Obligations.DecodesExactlyOneRow := by
  unfold Obligations.DecodesExactlyOneRow
  intro p
  have hle := matching_rows_length_le p.cmd
  have hpos : 0 < (opcodeRows.filter (fun r => decide (p.cmd &&& r.2 = r.1))).length ↔
      ∃ r ∈ opcodeRows, p.cmd &&& r.2 = r.1 := by
    rw [List.length_pos_iff_exists_mem]
    simp only [List.mem_filter, decide_eq_true_eq]
  rw [decodes_iff_matches, ← hpos]
  show _ ↔ (opcodeRows.filter (fun r => decide (p.cmd &&& r.2 = r.1))).length = 1
  omega

/-- Settles O4: the five words are the encoder's for their commands; READ and PEEK ignore both argument words. -/
theorem exampleWordsDecode : Obligations.ExampleWordsDecode :=
  ⟨fun a b => decode_withArgs (decodeOfEncode (.read 5)) a b, fun a b => decodeOfEncode (.readVlc 9 2 a b),
    fun a b => decode_withArgs (decodeOfEncode (.peek 32)) a b, fun a b => decodeOfEncode (.idctDcAdd 16 a b),
    fun a b => decodeOfEncode (.dequant 1 true false false 2 8 a b)⟩

end Sys2Proof
end

section
/-! PROOFS. How every command ends: the bodies of the commands by name, the causes they raise, and what they leave alone
(60_exceptions.md R143, R144, R157; 10_state.md R26). -/

namespace Sys2Proof.Machine

/-! ### The body of every command -/

/-- What a command does on the copy of the state, once it is legal (60_exceptions.md R143): the body its meaning hands to
`runCommand`. -/
def body : Instr → State → Except Cause Done
  | .init buf nbits, s =>
    if countOf nbits > Config.sizeMax ∨ s.wrapAddr buf.toNat = 0 then .ok ⟨s.inertReader, 0, true⟩
    else do
      let t ← (s.openReader (BitVec.ofNat 64 (s.wrapAddr buf.toNat)) (countOf nbits)).refill64
      return ⟨t, 0, false⟩
  | .readBit, s => do
    let r ← s.takeBit
    return ⟨r.2, r.1, false⟩
  | .read n, s =>
    if n.toNat = 0 then .ok ⟨s, 0, false⟩
    else do
      let r ← s.takeBits n.toNat
      return ⟨r.2, r.1, false⟩
  | .readNz n, s => do
    let r ← s.takeBits n.toNat
    return ⟨r.2, r.1, false⟩
  | .read63 n, s =>
    if n.toNat = 0 then .ok ⟨s, 0, false⟩
    else do
      let r ← s.takeWide n.toNat
      return ⟨r.2, r.1, false⟩
  | .read64 n, s =>
    if n.toNat = 0 then .ok ⟨s, 0, false⟩
    else if n.toNat < 64 then do
      let r ← s.takeWide n.toNat
      return ⟨r.2, r.1, false⟩
    else do
      s.checkRange 64
      let r ← s.takeWide 63
      let b ← r.2.takeBit
      return ⟨b.2, s.joinParts r.1 63 b.1 1, false⟩
  | .readSigned n, s => do
    let r ← s.takeBits n.toNat
    return ⟨r.2, signedResult n.toNat r.1, false⟩
  | .peek n, s =>
    if n.toNat = 0 then .ok ⟨s, 0, false⟩
    else do
      let r ← s.peekBits n.toNat
      return ⟨r.2, r.1, false⟩
  | .peekSigned n, s => do
    let r ← s.peekBits n.toNat
    return ⟨r.2, signedResult n.toNat r.1, false⟩
  | .skip n, s => do
    let t ← s.skipBits (countOf n)
    return ⟨t, 0, false⟩
  | .seek pos, s => do
    let t ← ({ s with ptrOff := 0, cache := 0, valid := 0 } : State).skipBits (countOf pos)
    return ⟨t, 0, false⟩
  | .align, s => do
    let t ← s.skipToBoundary
    return ⟨t, t.byteAddr, false⟩
  | .tell, s => .ok ⟨s, BitVec.ofInt 64 s.tell, false⟩
  | .size, s => .ok ⟨s, s.size.setWidth 64, false⟩
  | .left, s => .ok ⟨s, BitVec.ofInt 64 s.left, false⟩
  | .readVlc n d table tlen, s => do
    let first ← s.vlcLookup table tlen.toNat n.toNat 0
    let p ← vlcWalk table tlen.toNat (d.toNat - 1) first
    if p.entry.len < 0 ∨ p.entry.len > (p.width : Int) then .error .vlcTable
    else
      p.reader.checkRange p.entry.len.toNat
      return ⟨p.reader.dropBits p.entry.len.toNat, BitVec.ofInt 64 p.entry.sym, false⟩
  | .skip1stop8data, s =>
    if s.left ≤ 0 then .ok ⟨s, 0, true⟩
    else do
      let r ← s.skipGroups (s.size.toNat + 1)
      return ⟨r.2, 0, !r.1⟩
  | .dequant n intra nonlin losslessDc qscale dcScale blk mat, s =>
    if lastOf n < 0 then .ok ⟨s, 0, false⟩
    else do
      let out ← s.dequantScan blk mat (if intra then s.params.acIntra else s.params.acInter)
        (mappedScale s.params nonlin qscale) (scanPositions s.params (if intra then 1 else 0) n.toNat)
        (if intra && !losslessDc then [(0, s.coef blk 0 * (dcScale.toNat : Int))] else [])
      if out.all (fun e => fitsInt16 e.2) then return ⟨s.writeAssigned blk out 64, 0, false⟩
      else .error .coefRange
  | .idctPut stride blk dst, s =>
    .ok ⟨(s.putSamples dst stride (idct8 s.params.kernel (s.coefs blk)) 64).spoilBlock blk, 0, false⟩
  | .idctAdd n stride blk dst, s =>
    if lastOf n < 0 then .ok ⟨s, 0, false⟩
    else
      .ok ⟨(s.addSamples dst stride
        (if lastOf n = 0 then List.replicate 64 (dcResidual (s.coef blk 0)) else idct8 s.params.kernel (s.coefs blk))
        64).spoilBlock blk, 0, false⟩
  | .idctDcAdd stride blk dst, s =>
    .ok ⟨(s.addSamples dst stride (List.replicate 64 (dcResidual (s.coef blk 0))) 64).spoilBlock blk, 0, false⟩

/-- Every meaning is `runCommand` at the command's opcode, well-formedness and body. -/
theorem exec_eq (i : Instr) (s : State) : exec i s = .next (runCommand i.opcode i.wellFormed (body i) s) := by
  have hv : ∀ d : BitVec 2, widthOk 1 3 d = decide (1 ≤ d.toNat) := by decide
  have hq : ∀ q : BitVec 5, widthOk 1 31 q = decide (1 ≤ q.toNat) := by decide
  cases i with
  | init | skip | seek =>
    rw [Instr.wellFormed, ← countOk_eq]
    rfl
  | read | read63 | read64 | peek | idctAdd =>
    rw [Instr.wellFormed, ← widthOk_zero]
    rfl
  | readVlc =>
    rw [Instr.wellFormed, ← hv]
    rfl
  | dequant =>
    rw [Instr.wellFormed, ← hq, ← widthOk_zero]
    rfl
  | readBit | readNz | readSigned | peekSigned | align | tell | size | left | skip1stop8data | idctPut | idctDcAdd => rfl

theorem exec_of_ok {i : Instr} {s : State} {d : Done} (hs : s.faulted = false) (hi : i.wellFormed = true)
    (h : body i s = .ok d) : exec i s = .next (d.state.complete d.value d.invalid) := by
  rw [exec_eq, hi, runCommand_ok hs h]

theorem exec_of_error {i : Instr} {s : State} {c : Cause} (hs : s.faulted = false) (hi : i.wellFormed = true)
    (h : body i s = .error c) : exec i s = .next (s.takeFault i.opcode c) := by
  rw [exec_eq, hi, runCommand_error hs h]

/-- The four ways a command ends (60_exceptions.md R143, R144). -/
inductive Ends (i : Instr) (s : State) : State → Prop
  | refused (hs : s.faulted = true) : Ends i s s.refuseFaulted
  | illegal (hs : s.faulted = false) (hi : i.wellFormed = false) : Ends i s (s.takeFault i.opcode .illegalCommand)
  | faulted (hs : s.faulted = false) (hi : i.wellFormed = true) (c : Cause) (h : body i s = .error c) :
    Ends i s (s.takeFault i.opcode c)
  | completed (hs : s.faulted = false) (hi : i.wellFormed = true) (d : Done) (h : body i s = .ok d) :
    Ends i s (d.state.complete d.value d.invalid)

theorem ends_of_exec {i : Instr} {s t : State} (h : exec i s = .next t) : Ends i s t := by
  rw [exec_eq] at h
  cases h
  rcases runCommand_cases i.opcode i.wellFormed (body i) s with
    ⟨hs, hr⟩ | ⟨hs, hi, hr⟩ | ⟨hs, hi, c, hc, hr⟩ | ⟨hs, hi, d, hd, hr⟩
  · exact hr ▸ .refused hs
  · exact hr ▸ .illegal hs hi
  · exact hr ▸ .faulted hs hi c hc
  · exact hr ▸ .completed hs hi d hd

/-- Settles O22: every meaning ends in `runCommand`, which answers a state. -/
theorem everyCommandAnswers : Obligations.EveryCommandAnswers := fun i s => ⟨_, exec_eq i s⟩

/-- Settles O11: the sticky check is `runCommand`'s first. -/
theorem faultIsSticky : Obligations.FaultIsSticky := fun i _ hs => exec_of_faulted i hs

/-! ### The word a fault leaves -/

/-- FAULT as a number: CAUSE below OPC (10_state.md R24). -/
theorem faultWord_toNat (op : BitVec 6) (c : Cause) : (faultWord op c).toNat = c.code.toNat + 256 * op.toNat := by
  have hop := op.isLt
  have hc := c.code.isLt
  have hcode : (c.code.setWidth 32).toNat = c.code.toNat := by
    rw [BitVec.toNat_setWidth]
    omega
  have hwide : (op.setWidth 32).toNat = op.toNat := by
    rw [BitVec.toNat_setWidth]
    omega
  rw [faultWord, toNat_or_shiftLeft _ _ 8 (by omega) (by omega), hcode, hwide]
  rfl

theorem faultWord_eq (op : BitVec 6) (c : Cause) : faultWord op c = BitVec.ofNat 32 (c.code.toNat + 256 * op.toNat) := by
  refine BitVec.eq_of_toNat_eq ?_
  have hop := op.isLt
  have hc := c.code.isLt
  rw [faultWord_toNat, BitVec.toNat_ofNat]
  omega

theorem State.takeFault_faultCause (s : State) (op : BitVec 6) (c : Cause) : (s.takeFault op c).faultCause = c.code := by
  refine BitVec.eq_of_toNat_eq ?_
  have hc := c.code.isLt
  rw [State.faultCause, State.takeFault_fault, toNat_extractLsb'_eq_digits, faultWord_toNat]
  omega

theorem State.faultCause_of_unfaulted {s : State} (h : s.faulted = false) : s.faultCause = 0 := by
  by_contra hne
  rw [State.faulted, decide_eq_true hne] at h
  cases h

/-! ### The causes a body raises -/

/-- A step that faults raises one of some causes. -/
def raises {α : Type} (cs : List Cause) (x : Except Cause α) : Prop := ∀ c, x = .error c → c ∈ cs

theorem raises_ok {α : Type} (cs : List Cause) (a : α) : raises cs (.ok a) := fun _ h => nomatch h

theorem raises_error {α : Type} {cs : List Cause} {c : Cause} (h : c ∈ cs) : raises cs (.error c : Except Cause α) := by
  intro c' hc'
  cases hc'
  exact h

theorem raises_bind {α β : Type} {cs : List Cause} {x : Except Cause α} {f : α → Except Cause β} (hx : raises cs x)
    (hf : ∀ a, raises cs (f a)) : raises cs (x >>= f) := by
  intro c h
  rcases except_bind_error.mp h with h | ⟨a, _, h⟩
  · exact hx c h
  · exact hf a c h

theorem raises_mono {α : Type} {cs ds : List Cause} {x : Except Cause α} (h : cs ⊆ ds) (hx : raises cs x) : raises ds x :=
  fun c hc => h (hx c hc)

/-- The causes the reader raises (20_memory.md R33, R50). -/
def readerCauses : List Cause := [.bufferOverread, .uncheckedOverrun]

theorem raises_checkRange (s : State) (n : Nat) : raises readerCauses (s.checkRange n) := by
  intro c h
  obtain ⟨_, rfl⟩ := State.checkRange_error.mp h
  decide

theorem raises_refill64 (s : State) : raises [.bufferOverread] s.refill64 := by
  intro c h
  obtain ⟨_, _, rfl⟩ := State.refill64_error h
  decide

theorem raises_refill32 (s : State) : raises [.bufferOverread] s.refill32 := by
  intro c h
  obtain ⟨_, _, rfl⟩ := State.refill32_error h
  decide

theorem raises_refillFor (s : State) (n : Nat) : raises readerCauses (s.refillFor n) := by
  rw [State.refillFor_eq]
  split
  · exact raises_mono (by decide) (raises_refill32 s)
  · exact raises_ok _ _

theorem raises_reader_refill64 (s : State) : raises readerCauses s.refill64 := raises_mono (by decide) (raises_refill64 s)

theorem raises_takeBits (s : State) (n : Nat) : raises readerCauses (s.takeBits n) :=
  raises_bind (raises_checkRange s n) fun _ => raises_bind (raises_refillFor s n) fun _ => raises_ok _ _

theorem raises_peekBits (s : State) (n : Nat) : raises readerCauses (s.peekBits n) :=
  raises_bind (raises_checkRange s n) fun _ => raises_bind (raises_refillFor s n) fun _ => raises_ok _ _

theorem raises_takeBit (s : State) : raises readerCauses s.takeBit := by
  refine raises_bind (raises_checkRange s 1) fun _ => raises_bind ?_ fun _ => raises_ok _ _
  unfold State.refillIfEmpty
  split
  · exact raises_reader_refill64 s
  · exact raises_ok _ _

theorem raises_takeWide (s : State) (n : Nat) : raises readerCauses (s.takeWide n) := by
  refine raises_bind (raises_checkRange s n) fun _ => ?_
  split
  · exact raises_bind (raises_reader_refill64 _) fun _ => raises_ok _ _
  · exact raises_ok _ _

theorem raises_skipBits (s : State) (n : Nat) : raises readerCauses (s.skipBits n) := by
  refine raises_bind (raises_checkRange s n) fun _ => ?_
  split
  · exact raises_ok _ _
  · dsimp only
    split
    · exact raises_bind (raises_reader_refill64 _) fun _ => raises_ok _ _
    · exact raises_bind (raises_reader_refill64 _) fun _ => raises_ok _ _

theorem raises_skipToBoundary (s : State) : raises readerCauses s.skipToBoundary := by
  unfold State.skipToBoundary
  split
  · exact raises_skipBits s _
  · exact raises_ok _ _

theorem raises_skipGroups (s : State) (passes : Nat) : raises readerCauses (s.skipGroups passes) := by
  induction passes generalizing s with
  | zero => exact raises_ok _ _
  | succ passes ih =>
    refine raises_bind (raises_takeBit s) fun r => ?_
    split
    · exact raises_ok _ _
    · refine raises_bind (raises_skipBits _ 8) fun t => ?_
      split
      · exact raises_ok _ _
      · exact ih t

/-- The causes READ_VLC raises (42_vlc.md R111). -/
def vlcCauses : List Cause := [.bufferOverread, .uncheckedOverrun, .vlcTable]

theorem raises_vlcLookup (s : State) (table : Word64) (tlen nb : Nat) (base : Int) :
    raises vlcCauses (s.vlcLookup table tlen nb base) := by
  refine raises_bind (raises_mono (by decide) (raises_refillFor s nb)) fun t => raises_bind ?_ fun _ => raises_ok _ _
  intro c h
  obtain ⟨_, rfl⟩ := State.vlcEntry_error.mp h
  decide

theorem raises_vlcWalk (table : Word64) (tlen more : Nat) (p : VlcPoint) : raises vlcCauses (vlcWalk table tlen more p) := by
  induction more generalizing p with
  | zero => exact raises_ok _ _
  | succ more ih =>
    rw [vlcWalk]
    split
    · refine raises_bind (raises_mono (by decide) (raises_checkRange _ _)) fun _ => ?_
      split
      · exact raises_error (by decide)
      · exact raises_bind (raises_vlcLookup _ table tlen _ _) ih
    · exact raises_ok _ _

theorem raises_dequantScan (s : State) (blk mat : Word64) (f : AcQuant) (q : Nat) (ks : List Nat) (out : List (Nat × Int)) :
    raises [.coefRange, .paramRange] (s.dequantScan blk mat f q ks out) := by
  intro c h
  obtain ⟨_, rfl⟩ := State.dequantScan_error.mp h
  decide

/-- A body raises only the causes 60_exceptions.md R157 lists for its command, and leaves the range check to `runCommand`. -/
theorem raises_body (i : Instr) (s : State) : raises (causesOf i).tail (body i s) := by
  cases i with
  | init =>
    dsimp only [body]
    split
    · exact raises_ok _ _
    · exact raises_bind (raises_refill64 _) fun _ => raises_ok _ _
  | readBit => exact raises_bind (raises_takeBit s) fun _ => raises_ok _ _
  | readNz n | readSigned n => exact raises_bind (raises_takeBits s _) fun _ => raises_ok _ _
  | read n =>
    dsimp only [body]
    split
    · exact raises_ok _ _
    · exact raises_bind (raises_takeBits s _) fun _ => raises_ok _ _
  | read63 n =>
    dsimp only [body]
    split
    · exact raises_ok _ _
    · exact raises_bind (raises_takeWide s _) fun _ => raises_ok _ _
  | read64 n =>
    dsimp only [body]
    split
    · exact raises_ok _ _
    · split
      · exact raises_bind (raises_takeWide s _) fun _ => raises_ok _ _
      · exact raises_bind (raises_checkRange s 64) fun _ => raises_bind (raises_takeWide s 63) fun r =>
          raises_bind (raises_takeBit r.2) fun _ => raises_ok _ _
  | peek n =>
    dsimp only [body]
    split
    · exact raises_ok _ _
    · exact raises_bind (raises_peekBits s _) fun _ => raises_ok _ _
  | peekSigned n => exact raises_bind (raises_peekBits s _) fun _ => raises_ok _ _
  | skip n | seek n => exact raises_bind (raises_skipBits _ _) fun _ => raises_ok _ _
  | align => exact raises_bind (raises_skipToBoundary s) fun _ => raises_ok _ _
  | tell | size | left | idctPut | idctDcAdd => exact raises_ok _ _
  | readVlc n d table tlen =>
    refine raises_bind (raises_vlcLookup s table _ _ 0) fun first => raises_bind (raises_vlcWalk table _ _ first) fun p => ?_
    split
    · exact raises_error (cs := vlcCauses) (by decide)
    · exact raises_bind (raises_mono (ds := vlcCauses) (by decide) (raises_checkRange _ _)) fun _ => raises_ok _ _
  | skip1stop8data =>
    dsimp only [body]
    split
    · exact raises_ok _ _
    · exact raises_bind (raises_skipGroups s _) fun _ => raises_ok _ _
  | dequant =>
    dsimp only [body]
    split
    · exact raises_ok _ _
    · refine raises_bind (raises_dequantScan s _ _ _ _ _ _) fun out => ?_
      split
      · exact raises_ok _ _
      · exact raises_error (cs := [.coefRange, .paramRange]) (by decide)
  | idctAdd =>
    dsimp only [body]
    split
    · exact raises_ok _ _
    · exact raises_ok _ _

/-- Every command can be illegal, and the other causes it has are its body's. -/
theorem causesOf_eq (i : Instr) : causesOf i = .illegalCommand :: (causesOf i).tail ∧ .illegalCommand ∉ (causesOf i).tail := by
  cases i <;> simp [causesOf]

theorem body_error_listed {i : Instr} {s : State} {c : Cause} (h : body i s = .error c) :
    c ∈ causesOf i ∧ c ≠ .illegalCommand := by
  obtain ⟨_, hlegal⟩ := causesOf_eq i
  have hmem := raises_body i s c h
  exact ⟨List.mem_of_mem_tail hmem, fun heq => hlegal (heq ▸ hmem)⟩

theorem illegalCommand_mem_causesOf (i : Instr) : .illegalCommand ∈ causesOf i := by
  rw [(causesOf_eq i).1]
  exact List.mem_cons_self

theorem Cause.code_eq_one {c : Cause} : c.code = 1 ↔ c = .illegalCommand := by cases c <;> decide

/-! ### What a body leaves alone -/

/-- Only the reader registers and the count of free values differ. -/
def windowFrame (s t : State) : Prop :=
  t = { s with
    buf := t.buf, byteLen := t.byteLen, ptrOff := t.ptrOff, cache := t.cache, valid := t.valid, size := t.size
    freeCount := t.freeCount }

/-- Only the memory and the count of free values differ. -/
def outputFrame (s t : State) : Prop := t = { s with mem := t.mem, freeCount := t.freeCount }

theorem windowFrame_of_cursorFrame {s t : State} (h : cursorFrame s t) : windowFrame s t := by
  unfold windowFrame
  rw [h]

theorem windowFrame_readByte {s t : State} (h : windowFrame s t) (a : Nat) : t.readByte a = s.readByte a := by
  rw [h]
  rfl

theorem outputFrame_spoilBlock {s t : State} (blk : Word64) (h : t = { s with mem := t.mem }) :
    outputFrame s (t.spoilBlock blk) := by
  obtain ⟨hspoil, _, _⟩ := t.forgetBytes_spec blk.toNat 128
  unfold outputFrame State.spoilBlock
  rw [hspoil, h]

/-- The commands that return no value (10_state.md R26). -/
def returnsNothing (i : Instr) : Prop :=
  isReader i = false ∨ (∃ b n, i = .init b n) ∨ (∃ n, i = .skip n) ∨ (∃ n, i = .seek n) ∨ i = .skip1stop8data

/-- What a completed body leaves: the memory, if it is a reader's, and the reader, if it is not (20_memory.md R32,
43_reconstruction.md R121); no value, if the command returns none; INVALID_DATA from two commands alone (60_exceptions.md
R141). -/
structure Leaves (i : Instr) (s : State) (d : Done) : Prop where
  window : isReader i = true → windowFrame s d.state
  output : isReader i = false → outputFrame s d.state
  value : returnsNothing i → d.value = 0
  invalid : d.invalid = true → (∃ b n, i = .init b n) ∨ i = .skip1stop8data

/-- A step of the reader, then a result of a command that returns a value. -/
theorem leaves_of_reader {i : Instr} {s : State} {d : Done} (hi : isReader i = true) (hvalue : ¬ returnsNothing i)
    (hd : cursorFrame s d.state) (hvalid : d.invalid = false) : Leaves i s d where
  window _ := windowFrame_of_cursorFrame hd
  output h := by simp [hi] at h
  value h := absurd h hvalue
  invalid h := by simp [hvalid] at h

/-- A step of the reader, then no result. -/
theorem leaves_of_move {i : Instr} {s : State} {d : Done} (hi : isReader i = true) (hd : windowFrame s d.state)
    (hvalue : d.value = 0) (hvalid : d.invalid = true → (∃ b n, i = .init b n) ∨ i = .skip1stop8data) : Leaves i s d where
  window _ := hd
  output h := by simp [hi] at h
  value _ := hvalue
  invalid := hvalid

theorem leaves_of_output {i : Instr} {s t : State} (hi : isReader i = false) (ht : outputFrame s t) :
    Leaves i s ⟨t, 0, false⟩ where
  window h := by simp [hi] at h
  output _ := ht
  value _ := rfl
  invalid h := nomatch h

theorem leaves_of_body {i : Instr} {s : State} {d : Done} (h : body i s = .ok d) : Leaves i s d := by
  cases i with
  | init buf nbits =>
    dsimp only [body] at h
    split at h
    · cases h
      exact leaves_of_move rfl rfl rfl fun _ => .inl ⟨_, _, rfl⟩
    · obtain ⟨t, ht, h⟩ := except_bind_ok.mp h
      cases h
      refine leaves_of_move rfl ?_ rfl (fun h => nomatch h)
      unfold windowFrame
      rw [cursorFrame_refill64 ht]
      rfl
  | readBit =>
    obtain ⟨r, hr, h⟩ := except_bind_ok.mp h
    cases h
    exact leaves_of_reader rfl (by simp [returnsNothing, isReader]) (cursorFrame_takeBit hr) rfl
  | readNz n | readSigned n =>
    obtain ⟨r, hr, h⟩ := except_bind_ok.mp h
    cases h
    exact leaves_of_reader rfl (by simp [returnsNothing, isReader]) (cursorFrame_takeBits hr) rfl
  | read n =>
    dsimp only [body] at h
    split at h
    · cases h
      exact leaves_of_reader rfl (by simp [returnsNothing, isReader]) rfl rfl
    · obtain ⟨r, hr, h⟩ := except_bind_ok.mp h
      cases h
      exact leaves_of_reader rfl (by simp [returnsNothing, isReader]) (cursorFrame_takeBits hr) rfl
  | read63 n =>
    dsimp only [body] at h
    split at h
    · cases h
      exact leaves_of_reader rfl (by simp [returnsNothing, isReader]) rfl rfl
    · obtain ⟨r, hr, h⟩ := except_bind_ok.mp h
      cases h
      exact leaves_of_reader rfl (by simp [returnsNothing, isReader]) (cursorFrame_takeWide hr) rfl
  | read64 n =>
    dsimp only [body] at h
    split at h
    · cases h
      exact leaves_of_reader rfl (by simp [returnsNothing, isReader]) rfl rfl
    · split at h
      · obtain ⟨r, hr, h⟩ := except_bind_ok.mp h
        cases h
        exact leaves_of_reader rfl (by simp [returnsNothing, isReader]) (cursorFrame_takeWide hr) rfl
      · obtain ⟨_, _, h⟩ := except_bind_ok.mp h
        obtain ⟨r, hr, h⟩ := except_bind_ok.mp h
        obtain ⟨b, hb, h⟩ := except_bind_ok.mp h
        cases h
        exact leaves_of_reader rfl (by simp [returnsNothing, isReader])
          (cursorFrame_trans (cursorFrame_takeWide hr) (cursorFrame_takeBit hb)) rfl
  | peek n =>
    dsimp only [body] at h
    split at h
    · cases h
      exact leaves_of_reader rfl (by simp [returnsNothing, isReader]) rfl rfl
    · obtain ⟨r, hr, h⟩ := except_bind_ok.mp h
      cases h
      exact leaves_of_reader rfl (by simp [returnsNothing, isReader]) (cursorFrame_peekBits hr) rfl
  | peekSigned n =>
    obtain ⟨r, hr, h⟩ := except_bind_ok.mp h
    cases h
    exact leaves_of_reader rfl (by simp [returnsNothing, isReader]) (cursorFrame_peekBits hr) rfl
  | skip n =>
    obtain ⟨t, ht, h⟩ := except_bind_ok.mp h
    cases h
    exact leaves_of_move rfl (windowFrame_of_cursorFrame (cursorFrame_skipBits ht)) rfl (fun h => nomatch h)
  | seek pos =>
    have hrestart : cursorFrame s { s with ptrOff := 0, cache := 0, valid := 0 } := rfl
    obtain ⟨t, ht, h⟩ := except_bind_ok.mp h
    cases h
    exact leaves_of_move rfl (windowFrame_of_cursorFrame (cursorFrame_trans hrestart (cursorFrame_skipBits ht))) rfl
      (fun h => nomatch h)
  | align =>
    obtain ⟨t, ht, h⟩ := except_bind_ok.mp h
    cases h
    exact leaves_of_reader rfl (by simp [returnsNothing, isReader]) (cursorFrame_skipToBoundary ht) rfl
  | tell | size | left =>
    cases h
    exact leaves_of_reader rfl (by simp [returnsNothing, isReader]) rfl rfl
  | readVlc n d table tlen =>
    obtain ⟨first, hfirst, h⟩ := except_bind_ok.mp h
    obtain ⟨p, hp, h⟩ := except_bind_ok.mp h
    split at h
    · cases h
    · obtain ⟨_, _, h⟩ := except_bind_ok.mp h
      cases h
      exact leaves_of_reader rfl (by simp [returnsNothing, isReader])
        (cursorFrame_trans (cursorFrame_trans (cursorFrame_vlcLookup hfirst) (cursorFrame_vlcWalk hp))
          (cursorFrame_dropBits _ _)) rfl
  | skip1stop8data =>
    dsimp only [body] at h
    split at h
    · cases h
      exact leaves_of_move rfl rfl rfl fun _ => .inr rfl
    · obtain ⟨r, hr, h⟩ := except_bind_ok.mp h
      cases h
      exact leaves_of_move rfl (windowFrame_of_cursorFrame (cursorFrame_skipGroups hr)) rfl fun _ => .inr rfl
  | dequant n intra nonlin losslessDc qscale dcScale blk mat =>
    dsimp only [body] at h
    split at h
    · cases h
      exact leaves_of_output rfl rfl
    · obtain ⟨out, _, h⟩ := except_bind_ok.mp h
      split at h
      · cases h
        refine leaves_of_output rfl ?_
        unfold outputFrame
        rw [State.writeAssigned_frame]
      · cases h
  | idctPut stride blk dst =>
    obtain rfl := Except.ok.inj h
    exact leaves_of_output rfl (outputFrame_spoilBlock blk (s.putSamples_frame dst stride _ 64))
  | idctAdd n stride blk dst =>
    dsimp only [body] at h
    split at h
    · cases h
      exact leaves_of_output rfl rfl
    · obtain rfl := Except.ok.inj h
      exact leaves_of_output rfl (outputFrame_spoilBlock blk (s.addSamples_frame dst stride _ 64))
  | idctDcAdd stride blk dst =>
    obtain rfl := Except.ok.inj h
    exact leaves_of_output rfl (outputFrame_spoilBlock blk (s.addSamples_frame dst stride _ 64))

/-- No body writes FAULT: taking a fault is `runCommand`'s. -/
theorem Leaves.fault {i : Instr} {s : State} {d : Done} (h : Leaves i s d) : d.state.fault = s.fault := by
  cases hi : isReader i with
  | true => rw [h.window hi]
  | false => rw [h.output hi]

/-! ### Outcomes -/

/-- Settles O8: the range check alone raises ILLEGAL_COMMAND, before the body. -/
theorem illegalExactlyWhenOutOfRange : Obligations.IllegalExactlyWhenOutOfRange := by
  unfold Obligations.IllegalExactlyWhenOutOfRange
  intro i s t hs h
  cases ends_of_exec h with
  | refused hfault => simp [hs] at hfault
  | illegal _ hi =>
    rw [State.takeFault_faultCause]
    exact ⟨⟨fun _ => hi, fun _ => rfl⟩, fun _ => by rw [State.takeFault, faultWord_eq]; rfl⟩
  | faulted _ hi c hc =>
    obtain ⟨_, hlegal⟩ := body_error_listed hc
    rw [State.takeFault_faultCause, hi]
    exact ⟨⟨fun h => absurd (Cause.code_eq_one.mp h) hlegal, nofun⟩, nofun⟩
  | completed _ hi d hd =>
    have hfault : (d.state.complete d.value d.invalid).faultCause = 0 := by
      rw [State.faultCause, State.complete_fault, (leaves_of_body hd).fault]
      exact State.faultCause_of_unfaulted hs
    rw [hfault, hi]
    exact ⟨⟨nofun, nofun⟩, nofun⟩

/-- Settles O23: a body completes with the flag it returns, and raises a listed cause. -/
theorem outcomesAreListed : Obligations.OutcomesAreListed := by
  unfold Obligations.OutcomesAreListed
  intro i s t hs h
  cases ends_of_exec h with
  | refused hfault => simp [hs] at hfault
  | illegal => exact .inr (.inr ⟨rfl, _, illegalCommand_mem_causesOf i, rfl⟩)
  | faulted _ _ c hc => exact .inr (.inr ⟨rfl, c, (body_error_listed hc).1, rfl⟩)
  | completed _ _ d hd =>
    have hleaves := leaves_of_body hd
    rw [State.complete_status, State.complete_fault, State.complete_res, hleaves.fault]
    cases hinvalid : d.invalid with
    | false => exact .inl ⟨rfl, rfl⟩
    | true =>
      have hi := hleaves.invalid hinvalid
      exact .inr (.inl ⟨rfl, rfl, hleaves.value (hi.elim (fun h => .inr (.inl h)) fun h => .inr (.inr (.inr (.inr h)))), hi⟩)

/-- Settles O24: RES is written by `complete` alone, with 0 from a body that returns no value. -/
theorem resultRegisterRule : Obligations.ResultRegisterRule := by
  unfold Obligations.ResultRegisterRule
  intro i s t h
  cases ends_of_exec h with
  | refused => exact ⟨fun _ => rfl, fun hstatus => absurd rfl hstatus⟩
  | illegal => exact ⟨fun _ => rfl, fun hstatus => absurd rfl hstatus⟩
  | faulted => exact ⟨fun _ => rfl, fun hstatus => absurd rfl hstatus⟩
  | completed _ _ d hd =>
    exact ⟨fun hstatus => absurd hstatus (d.state.complete_status_ne_faulted d.value d.invalid),
      fun _ hi => (leaves_of_body hd).value hi⟩

/-- Settles O25: a reader's body leaves everything but the reader registers, and the other endings write STATUS and FAULT. -/
theorem readerWritesNoMemory : Obligations.ReaderWritesNoMemory := by
  unfold Obligations.ReaderWritesNoMemory
  intro i s t hi h
  cases ends_of_exec h with
  | refused => exact ⟨rfl, fun _ => rfl⟩
  | illegal => exact ⟨rfl, fun _ => rfl⟩
  | faulted => exact ⟨rfl, fun _ => rfl⟩
  | completed _ _ d hd =>
    have hwindow := (leaves_of_body hd).window hi
    refine ⟨?_, fun a => (State.complete_readByte ..).trans (windowFrame_readByte hwindow a)⟩
    rw [hwindow]
    rfl

/-! ### Endings that a single rule gives -/

/-- Settles O28: the body leaves the inert reader with INVALID_DATA. -/
theorem initRejectsBadStream : Obligations.InitRejectsBadStream := by
  unfold Obligations.InitRejectsBadStream
  intro s buf nbits hs hn hbad
  have hbody : body (.init buf nbits) s = .ok ⟨s.inertReader, 0, true⟩ := by
    dsimp only [body]
    rw [if_pos]
    rw [countOf_eq hn]
    exact hbad
  exact exec_of_ok (i := .init buf nbits) hs (decide_eq_true hn) hbody

/-- Settles O32: the three answers of `answerQuery` on an unfaulted block. -/
theorem queriesReturnPosition : Obligations.QueriesReturnPosition := by
  unfold Obligations.QueriesReturnPosition
  intro s hs
  rw [exec_tell, exec_size, exec_left, State.answerQuery, State.answerQuery, State.answerQuery, if_neg (by simp [hs]),
    if_neg (by simp [hs]), if_neg (by simp [hs])]
  refine ⟨rfl, ?_, rfl⟩
  rw [BitVec.ofNat_toNat]
  rfl

/-- Settles O53: with LAST negative both bodies complete at once. -/
theorem zeroBlockTouchesNothing : Obligations.ZeroBlockTouchesNothing := by
  unfold Obligations.ZeroBlockTouchesNothing
  intro s intra nonlin losslessDc qscale dcScale stride blk mat dst hs
  refine ⟨fun hi => exec_of_ok hs hi rfl, fun hstride => exec_of_ok (i := .idctAdd 0 stride blk dst) hs ?_ rfl⟩
  rw [Instr.wellFormed, decide_eq_true hstride]
  rfl

end Sys2Proof.Machine
end

section
/-! PROOFS. One step of the host port: packets, register accesses of any width, and single bytes of memory (10_state.md R14,
R22; 20_memory.md R53; 30_encoding.md R61). -/

namespace Sys2Proof.Machine

/-! ### Packets -/

theorem issue_of_ok {s : State} {i : Instr} (h : decode s.packet = .ok i) : issue s = exec i s := by
  rw [issue, h]

theorem issue_of_error {s : State} {e : DecodeError} (h : decode s.packet = .error e) : issue s = .next s.rejectPacket := by
  rw [issue, h]

/-- A step on a packet issues it from the registers, with the packet counted (30_encoding.md R61, 10_state.md R14). -/
theorem step_of_packet {s : State} {p : Packet} {rest : List HostInput} (h : s.inbox = .packet p :: rest) :
    step s =
      issue { s with inbox := rest, argA := p.argA, argB := p.argB, cmd := p.cmd, progIndex := s.progIndex + 1 } := by
  rw [step, h]
  dsimp only
  rw [State.popInput, h]
  rfl

/-- Settles O5: the latched packet is the input's. -/
theorem stepRunsDecodedPacket : Obligations.StepRunsDecodedPacket := by
  unfold Obligations.StepRunsDecodedPacket
  intro s p rest i hin hdec
  rw [step_of_packet hin]
  exact issue_of_ok hdec

/-- Settles O9: the idle case of `step`. -/
theorem idleBlockKeepsState : Obligations.IdleBlockKeepsState := by
  unfold Obligations.IdleBlockKeepsState
  intro s h
  rw [step, h]

/-! ### Register writes -/

/-- The state in which a register write leaves the block, before a packet is issued. -/
def State.written (s : State) (rest : List HostInput) (cmd : Word32) (argA argB : Word64) : State :=
  { s with inbox := rest, cmd := cmd, argA := argA, argB := argB }

/-- A write changes CMD, ARG_A and ARG_B to the words whose bytes it leaves. -/
theorem State.portWriteBytes_eq {s : State} {input : HostInput} {rest : List HostInput} (hin : s.inbox = input :: rest)
    (addr v : Word64) (n : Nat) {cmd : Word32} {argA argB : Word64}
    (hcmd : ∀ j, j < 4 → byteOf cmd j = byteOf (s.popInput.portWriteBytes addr v n).cmd j)
    (hargA : ∀ j, j < 8 → byteOf argA j = byteOf (s.popInput.portWriteBytes addr v n).argA j)
    (hargB : ∀ j, j < 8 → byteOf argB j = byteOf (s.popInput.portWriteBytes addr v n).argB j) :
    s.popInput.portWriteBytes addr v n = s.written rest cmd argA argB := by
  rw [eq_of_byteOf_eq (n := 4) hcmd, eq_of_byteOf_eq (n := 8) hargA, eq_of_byteOf_eq (n := 8) hargB,
    State.portWriteBytes_frame, State.written, State.popInput, hin]
  rfl

/-- A write that starts in CMD issues the packet whose CMD and ARG_A have the bytes it covers from the value (10_state.md R22). -/
theorem step_of_cmdWrite {s : State} {off : Nat} {width : PortWidth} {v : Word64} {rest : List HostInput} {cmd : Word32}
    {argA : Word64} (hoff : off < 4) (hin : s.inbox = .regWrite (s.params.bsrBase + BitVec.ofNat 64 off) width v :: rest)
    (hcmd : ∀ j, j < 4 → byteOf cmd j = if off ≤ j ∧ j < off + width.bytes then byteOf v (j - off) else byteOf s.cmd j)
    (hargA : ∀ j, j < 8 →
      byteOf argA j = if 0x08 + j < off + width.bytes then byteOf v (0x08 + j - off) else byteOf s.argA j) :
    step s = issue { s with inbox := rest, cmd := cmd, argA := argA, progIndex := s.progIndex + 1 } := by
  have hw := width.bytes_le
  have hissues : s.issues (s.params.bsrBase + BitVec.ofNat 64 off) width = true := by
    rw [State.issues, State.portReaches_base _ _ _ _ (by omega), decide_eq_true hoff]
  obtain ⟨hc, ha, hb⟩ := s.popInput.portWriteBytes_spec off v width.bytes (by omega)
  rw [State.popInput_params] at hc ha hb
  have hwritten := State.portWriteBytes_eq hin _ v width.bytes (argB := s.argB)
    (fun j hj => (hcmd j hj).trans (hc j hj).symm)
    (fun j hj => by rw [hargA j hj, ha j hj]; exact if_congr (by omega) rfl rfl)
    (fun j hj => by rw [hb j hj, if_neg (by omega)]; rfl)
  rw [step, hin]
  dsimp only
  rw [if_pos hissues, State.portWrite, hwritten]
  have hissues' : s.popInput.issues (s.params.bsrBase + BitVec.ofNat 64 off) width = true := hissues
  rw [if_pos hissues']
  rfl

/-- The bytes of a word's low half are the word's. -/
theorem byteOf_setWidth (v : Word64) (j : Nat) (hj : j < 4) : byteOf (v.setWidth 32) j = byteOf v j := by
  refine BitVec.eq_of_getLsbD_eq fun i hi => ?_
  rw [byteOf_getLsbD, byteOf_getLsbD, BitVec.getLsbD_setWidth, decide_eq_true (show 8 * j + i < 32 by omega), Bool.true_and]

/-- A 32-bit write of CMD issues the word with ARG_A and ARG_B as they are. -/
theorem step_of_cmdWrite_w32 {s : State} {v : Word64} {rest : List HostInput}
    (hin : s.inbox = .regWrite s.params.bsrBase .w32 v :: rest) :
    step s = issue { s with inbox := rest, cmd := v.setWidth 32, progIndex := s.progIndex + 1 } := by
  refine step_of_cmdWrite (off := 0) (width := .w32) (by decide) (v := v) (by rw [hin, BitVec.add_zero])
    (fun j hj => ?_) fun j hj => ?_
  · rw [if_pos (show 0 ≤ j ∧ j < 0 + PortWidth.w32.bytes from ⟨Nat.zero_le j, hj⟩)]
    exact byteOf_setWidth v j hj
  · exact (if_neg (show ¬ 0x08 + j < 0 + 4 by omega)).symm

/-- Settles O6: the registers after the write hold the packet. -/
theorem cmdWriteIssuesPacket : Obligations.CmdWriteIssuesPacket := by
  unfold Obligations.CmdWriteIssuesPacket
  refine ⟨fun s off width v rest p i hoff hin hcmd hargA hargB hdec => ?_, fun s v rest i hin hdec => ?_⟩
  · rw [step_of_cmdWrite hoff hin hcmd hargA]
    refine issue_of_ok ?_
    rw [State.packet, ← hargB]
    exact hdec
  · rw [step_of_cmdWrite_w32 hin]
    exact issue_of_ok hdec

/-- Settles O7: both ways to issue a packet leave the registers that `issue` rejects. -/
theorem unmatchedPacketFaults : Obligations.UnmatchedPacketFaults := by
  unfold Obligations.UnmatchedPacketFaults
  intro s l rest e hissued hdec
  have hstep : step s = .next l.rejectPacket := by
    rcases hissued with ⟨p, hin, rfl⟩ | ⟨v, hin, rfl⟩
    · rw [step_of_packet hin]
      exact issue_of_error hdec
    · rw [step_of_cmdWrite_w32 hin]
      exact issue_of_error hdec
  have hfault : l.faulted = s.faulted := by
    rcases hissued with ⟨p, _, rfl⟩ | ⟨v, _, rfl⟩
    · rfl
    · rfl
  have hop : (l.cmd.extractLsb' 0 6).toNat = l.cmd.toNat % 64 := by
    rw [toNat_extractLsb'_eq_digits, Nat.pow_zero, Nat.div_one]
    rfl
  rw [hstep]
  refine ⟨fun hs => ?_, fun hs => ?_⟩
  · rw [State.rejectPacket, if_neg (by simp [hfault, hs]), State.takeFault, faultWord_eq, hop]
    rfl
  · rw [State.rejectPacket_of_faulted (hfault.trans hs)]
    rfl

/-- Settles O14: a write from 0x04 on issues nothing, and its bytes are those of ARG_A and ARG_B it covers. -/
theorem portWritesReachArguments : Obligations.PortWritesReachArguments := by
  unfold Obligations.PortWritesReachArguments
  intro s off width v rest hlow hhigh hin
  have hw := width.bytes_le
  have hw64 : PortWidth.w64.bytes = 8 := rfl
  have hissues : s.issues (s.params.bsrBase + BitVec.ofNat 64 off) width = false := by
    rw [State.issues, State.portReaches_base _ _ _ _ (by omega), decide_eq_false (by omega)]
  have hissues' : s.popInput.issues (s.params.bsrBase + BitVec.ofNat 64 off) width = false := hissues
  obtain ⟨hc, ha, hb⟩ := s.popInput.portWriteBytes_spec off v width.bytes (by omega)
  rw [State.popInput_params] at hc ha hb
  have hwritten := State.portWriteBytes_eq hin (s.params.bsrBase + BitVec.ofNat 64 off) v width.bytes (cmd := s.cmd)
    (fun j hj => by rw [hc j hj, if_neg (by omega)]; rfl) (fun _ _ => rfl) (fun _ _ => rfl)
  refine ⟨s.popInput.portWriteBytes (s.params.bsrBase + BitVec.ofNat 64 off) v width.bytes, ?_, hwritten, ha, hb, ?_, ?_⟩
  · rw [step, hin]
    dsimp only
    rw [if_neg (by simp [hissues]), State.portWrite]
    rw [if_neg (by simp [hissues'])]
  · rintro rfl rfl
    refine ⟨eq_of_byteOf_eq (n := 8) fun j hj => ?_, eq_of_byteOf_eq (n := 8) fun j hj => ?_⟩
    · rw [ha j hj, if_pos (by omega), Nat.add_sub_cancel_left]
    · rw [hb j hj, if_neg (by omega)]
      rfl
  · rintro rfl rfl
    refine ⟨eq_of_byteOf_eq (n := 8) fun j hj => ?_, eq_of_byteOf_eq (n := 8) fun j hj => ?_⟩
    · rw [ha j hj, if_neg (by omega)]
      rfl
    · rw [hb j hj, if_pos (by omega), Nat.add_sub_cancel_left]

/-! ### The program index -/

theorem State.portWrite_progIndex (s : State) (addr v : Word64) (width : PortWidth) :
    (s.portWrite addr width v).progIndex = s.progIndex + if s.issues addr width then 1 else 0 := by
  unfold State.portWrite
  dsimp only
  split
  · rw [State.countPacket_progIndex, State.portWriteBytes_progIndex]
  · exact State.portWriteBytes_progIndex ..

theorem issue_progIndex {s t : State} (h : issue s = .next t) : t.progIndex = s.progIndex := by
  obtain ⟨u, hu, hframe⟩ := issue_frame s
  rw [h] at hu
  cases hu
  rw [hframe]

theorem State.answerRegRead_progIndex (s : State) (addr : Word64) (width : PortWidth) :
    (s.answerRegRead addr width).progIndex = s.progIndex := by
  unfold State.answerRegRead
  split <;> rfl

/-- Settles O10: latching a packet and a write that reaches CMD count it, and no command and no other input does. -/
theorem programIndexCountsPackets : Obligations.ProgramIndexCountsPackets := by
  unfold Obligations.ProgramIndexCountsPackets
  intro s t h
  cases hin : s.inbox with
  | nil =>
    rw [step, hin] at h
    cases h
    simp [State.packetNext, hin]
  | cons input rest =>
    rw [step, hin] at h
    rw [State.packetNext, hin]
    cases input with
    | packet p => exact issue_progIndex h
    | regWrite addr width v =>
      have hissues : s.popInput.issues addr width = s.issues addr width := rfl
      dsimp only at h ⊢
      split at h
      · rw [issue_progIndex h, State.portWrite_progIndex, hissues]
        rfl
      · cases h
        rw [State.portWrite_progIndex, hissues]
        rfl
    | regRead addr width =>
      cases h
      exact State.answerRegRead_progIndex ..
    | memWrite addr b | memRead addr =>
      dsimp only at h
      split at h
      · cases h
        rfl
      · cases h
    | reset =>
      cases h
      rfl

/-! ### Register reads -/

/-- The registers a host can read: offset, number of bytes, and value as a 64-bit word (10_state.md R22). -/
def State.registers (s : State) : List (Nat × Nat × Word64) :=
  [(0x08, 8, s.argA), (0x10, 8, s.argB), (0x18, 8, s.res), (0x20, 4, s.status.setWidth 64), (0x24, 4, s.fault.setWidth 64),
   (0x28, 4, s.config.setWidth 64)]

/-- The bytes of a 32-bit register as a 64-bit word. -/
theorem byteOf_widened (v : Word32) (k : Nat) : byteOf (v.setWidth 64) k = if k < 4 then byteOf v k else 0 := by
  refine BitVec.eq_of_getLsbD_eq fun i hi => ?_
  rw [byteOf_getLsbD, BitVec.getLsbD_setWidth]
  split
  · rw [byteOf_getLsbD, decide_eq_true (show 8 * k + i < 64 by omega), Bool.true_and]
  · simp [BitVec.getLsbD_of_ge v (8 * k + i) (by omega)]

/-- Every byte of a register stands at the register's offset plus its number, and a register has no bytes above its width. -/
theorem State.portByte_register {s : State} {r : Nat × Nat × Word64} (hr : r ∈ s.registers) :
    (∀ k, k < r.2.1 → s.portByte (r.1 + k) = byteOf r.2.2 k) ∧ ∀ k, r.2.1 ≤ k → k < 8 → byteOf r.2.2 k = 0 := by
  simp only [State.registers, List.mem_cons, List.not_mem_nil, or_false] at hr
  rcases hr with rfl | rfl | rfl | rfl | rfl | rfl
  case inl | inr.inl | inr.inr.inl =>
    refine ⟨fun k hk => ?_, fun k hk hk8 => absurd hk (Nat.not_le.mpr hk8)⟩
    dsimp only at hk ⊢
    simp (disch := omega) only [State.portByte, if_pos, if_neg, Nat.add_sub_cancel_left]
  all_goals
    refine ⟨fun k hk => ?_, fun k hk _ => by rw [byteOf_widened, if_neg (Nat.not_lt.mpr hk)]⟩
    dsimp only at hk ⊢
    rw [byteOf_widened, if_pos hk]
    simp (disch := omega) only [State.portByte, if_pos, if_neg, Nat.add_sub_cancel_left]

/-- CMD and the reserved bytes read 0. -/
theorem State.portByte_reserved (s : State) (o : Nat) (h : o < 0x08 ∨ 0x2C ≤ o) : s.portByte o = 0 := by
  simp (disch := omega) only [State.portByte, if_neg]

theorem step_of_regRead {s : State} {addr : Word64} {width : PortWidth} {rest : List HostInput}
    (hin : s.inbox = .regRead addr width :: rest) (hreach : s.portReaches 0x40 addr width = true) :
    step s = .next { s with inbox := rest, hostData := s.portRead addr width } := by
  have hreach' : s.popInput.portReaches 0x40 addr width = true := hreach
  rw [step, hin]
  dsimp only
  rw [State.answerRegRead, if_pos hreach', State.answerHost, State.popInput, hin]
  rfl

theorem State.portRead_toNat_lt (s : State) (addr : Word64) (width : PortWidth) :
    (s.portRead addr width).toNat < 2 ^ (8 * width.bytes) := by
  have h := leWord_toNat_lt ((List.range width.bytes).map (fun j => s.portByte (s.portLane addr j)))
  rwa [List.length_map, List.length_range] at h

/-- Settles O15: a read shows the bytes of the registers it covers, and each register's bytes stand from its offset on. -/
theorem portReadsRegisters : Obligations.PortReadsRegisters := by
  unfold Obligations.PortReadsRegisters
  intro s off width rest hoff hin
  have hw := width.bytes_le
  have hpos := width.bytes_pos
  have hreach : s.portReaches 0x40 (s.params.bsrBase + BitVec.ofNat 64 off) width = true := by
    rw [State.portReaches_base _ _ _ _ (by omega), decide_eq_true (by omega)]
  have hread := s.portRead_spec off width (by omega)
  refine ⟨_, step_of_regRead hin hreach, s.portRead_toNat_lt _ width, fun r hr => ?_, fun j hj hreserved => ?_⟩
  · obtain ⟨hbyte, hhigh⟩ := State.portByte_register (s := s) hr
    have hcover : ∀ j k, j < width.bytes → k < r.2.1 → off + j = r.1 + k →
        byteOf (s.portRead (s.params.bsrBase + BitVec.ofNat 64 off) width) j = byteOf r.2.2 k := fun j k hj hk hjk => by
      rw [hread j (by omega), if_pos hj, hjk, hbyte k hk]
    refine ⟨hcover, fun hstart hwidth => eq_of_byteOf_eq (n := 8) fun j hj => ?_⟩
    by_cases hin : j < width.bytes
    · exact hcover j j hin (hwidth ▸ hin) (by rw [hstart])
    · rw [hread j hj, if_neg hin, hhigh j (by omega) hj]
  · exact (hread j (by omega)).trans ((if_pos hj).trans (s.portByte_reserved _ hreserved))

/-! ### Single bytes of memory -/

/-- Settles O17: below 2^ADDR_W an address is its own reduction, and `step` stops at every other. -/
theorem hostReachesMemory : Obligations.HostReachesMemory := by
  unfold Obligations.HostReachesMemory
  intro s a rest
  refine ⟨fun hlt => ?_, fun hge => ?_⟩
  · have haddr : s.hasAddr a = true := decide_eq_true hlt
    have hwrap : s.wrapAddr a.toNat = a.toNat := Nat.mod_eq_of_lt hlt
    refine ⟨fun b hin => ⟨s.popInput.writeByte a.toNat b, ?_, ?_, ?_, fun a' ha' => ?_⟩, fun hin => ?_⟩
    · rw [step, hin]
      exact if_pos haddr
    · rw [State.writeByte, State.popInput, hin]
      rfl
    · rw [State.readByte_writeByte, if_pos rfl]
    · rw [State.readByte_writeByte, State.popInput_wrapAddr, State.popInput_wrapAddr, hwrap, if_neg ha',
        State.popInput_readByte]
    · rw [step, hin]
      dsimp only
      rw [if_pos haddr, State.answerHost, State.popInput, hin]
      rfl
  · have haddr : s.hasAddr a = false := decide_eq_false (Nat.not_lt.mpr hge)
    refine ⟨fun b hin => ?_, fun hin => ?_⟩
    · rw [step, hin]
      exact if_neg (by simp [haddr])
    · rw [step, hin]
      exact if_neg (by simp [haddr])

end Sys2Proof.Machine
end

section
/-! PROOFS. The steps of a sound reader: no refill reads past the padding, so every primitive answers what its pseudocode says,
and the reader goes on in order (20_memory.md R33, R44 to R52; 10_state.md R16 to R18). -/

namespace Sys2Proof.Machine

/-! ### Sound readers -/

/-- What the invariant says of the reader registers, as far as the reader's steps need it. -/
structure State.Sound (s : State) : Prop where
  cacheOk : s.CacheOk
  pad_ge : 8 ≤ s.params.pad
  byteLen_eq : s.byteLen.toNat = (s.size.toNat + 7) / 8

theorem State.sound_of_inv {s : State} (h : s.inv = true) : s.Sound := by
  refine ⟨State.cacheOk_of_inv h, State.pad_of_inv h, ?_⟩
  simp only [State.inv, State.readerOk, Bool.and_eq_true, decide_eq_true_eq] at h
  obtain ⟨⟨⟨⟨_, ⟨⟨_, hlen⟩, _⟩⟩, _⟩, _⟩, _⟩ := h
  exact hlen

/-- The position, in terms of the pointer (20_memory.md R51). -/
theorem State.tell_add_valid (s : State) : s.tell + (s.valid.toNat : Int) = 8 * (s.ptrOff.toNat : Int) := by
  unfold State.tell
  omega

/-- The reader of `t` goes on from that of `s`: it is sound, and holds the stream in order if that does. -/
structure Keeps (s t : State) : Prop where
  frame : cursorFrame s t
  sound : t.Sound
  ordered : s.streamOrdered = true → t.streamOrdered = true

/-- The reader of `t` goes on from that of `s`, forward, and takes no free value. -/
structure Advances (s t : State) : Prop extends Keeps s t where
  freeCount : t.freeCount = s.freeCount
  ptr_le : s.ptrOff.toNat ≤ t.ptrOff.toNat
  tell_le : s.tell ≤ t.tell

theorem Keeps.refl {s : State} (hs : s.Sound) : Keeps s s := ⟨rfl, hs, id⟩

theorem Keeps.trans {s t u : State} (h : Keeps s t) (k : Keeps t u) : Keeps s u :=
  ⟨cursorFrame_trans h.frame k.frame, k.sound, fun ho => k.ordered (h.ordered ho)⟩

theorem Advances.refl {s : State} (hs : s.Sound) : Advances s s := ⟨Keeps.refl hs, rfl, Nat.le_refl _, Int.le_refl _⟩

theorem Advances.trans {s t u : State} (h : Advances s t) (k : Advances t u) : Advances s u :=
  ⟨h.toKeeps.trans k.toKeeps, k.freeCount.trans h.freeCount, Nat.le_trans h.ptr_le k.ptr_le, Int.le_trans h.tell_le k.tell_le⟩

/-- A frame and the registers a sound reader is about: the rest of soundness is the stream's. -/
theorem State.Sound.of_frame {s t : State} (hs : s.Sound) (hf : cursorFrame s t) (hc : t.CacheOk) : t.Sound where
  cacheOk := hc
  pad_ge := by rw [cursorFrame_params hf]; exact hs.pad_ge
  byteLen_eq := by rw [cursorFrame_byteLen hf, cursorFrame_size hf]; exact hs.byteLen_eq

/-- The frame of a command whose body only moves the reader. -/
theorem readerFrame_of_cursorFrame {s t : State} (hf : cursorFrame s t) (hc : t.freeCount = s.freeCount) (v : Word64) (b : Bool) :
    readerFrame s (t.complete v b) := by
  refine ⟨?_, fun a => (State.complete_readByte ..).trans (cursorFrame_readByte hf a)⟩
  unfold cursorFrame at hf
  rw [hc] at hf
  rw [hf]
  rfl

theorem Advances.readerFrame {s t : State} (h : Advances s t) (v : Word64) (b : Bool) : readerFrame s (t.complete v b) :=
  readerFrame_of_cursorFrame h.frame h.freeCount v b

/-! ### Drop -/

theorem Advances.dropBits {s : State} (hs : s.Sound) {n : Nat}
    (hrange : s.params.checked = true ∨ s.tell + (n : Int) ≤ (s.size.toNat : Int)) : Advances s (s.dropBits n) where
  frame := cursorFrame_dropBits s n
  sound := hs.of_frame (cursorFrame_dropBits s n) {
    valid_le := by have := hs.cacheOk.valid_le; rw [State.dropBits_bitCount]; omega
    valid_le_ptr := by have := hs.cacheOk.valid_le_ptr; rw [State.dropBits_bitCount, State.dropBits_ptrOff]; omega
    aligned := State.dropBits_cacheAligned hs.cacheOk.valid_le hs.cacheOk.aligned n
    in_range := by
      rw [State.dropBits_params, State.dropBits_tell, State.dropBits_size]
      exact hrange.imp_right fun h => by omega }
  ordered ho := State.dropBits_streamOrdered hs.cacheOk.valid_le hs.cacheOk.tell_nonneg ho n
  freeCount := rfl
  ptr_le := Nat.le_refl _
  tell_le := by rw [State.dropBits_tell]; omega

/-! ### Refills -/

/-- The reader after `Refill64`, which a checked reader at its end suppresses (20_memory.md R44). -/
def State.filled64 (s : State) : State := if s.atEnd then s else s.refilled64

/-- The reader after `Refill32`, which a checked reader at its end suppresses (20_memory.md R45). -/
def State.filled32 (s : State) : State := if s.atEnd then s else s.refilled32

/-- The reader after the refill a peek of `n` bits makes (41_reader_extract.md R92, R96). -/
def State.filledFor (s : State) (n : Nat) : State := if s.valid.toNat < n then s.filled32 else s

/-- In unchecked mode Tell is at most SIZE, so the bytes up to PTR_OFF lie before the padding, but for the cached bits. -/
theorem State.Sound.ptr_le_of_unchecked {s : State} (hs : s.Sound) (hc : s.params.checked = false) :
    8 * s.ptrOff.toNat ≤ 8 * s.byteLen.toNat + s.valid.toNat := by
  have htell := hs.cacheOk.in_range.resolve_left (by simp [hc])
  have := hs.byteLen_eq
  have := s.tell_add_valid
  omega

theorem State.Sound.refill64 {s : State} (hs : s.Sound) (hv : s.valid.toNat = 0) : s.refill64 = .ok s.filled64 := by
  have hpad := hs.pad_ge
  refine State.refill64_eq.mpr ?_
  unfold State.filled64
  cases hend : s.atEnd with
  | true => exact .inl ⟨rfl, rfl⟩
  | false =>
    refine .inr ⟨rfl, ?_, rfl⟩
    rcases s.atEnd_eq_false.mp hend with hc | hlt
    · have := hs.ptr_le_of_unchecked hc
      omega
    · omega

theorem State.Sound.refill32 {s : State} (hs : s.Sound) (hv : s.valid.toNat < 32) : s.refill32 = .ok s.filled32 := by
  have hpad := hs.pad_ge
  refine State.refill32_eq.mpr ?_
  unfold State.filled32
  cases hend : s.atEnd with
  | true => exact .inl ⟨rfl, rfl⟩
  | false =>
    refine .inr ⟨rfl, ?_, rfl⟩
    rcases s.atEnd_eq_false.mp hend with hc | hlt
    · have := hs.ptr_le_of_unchecked hc
      omega
    · omega

theorem State.Sound.refillFor {s : State} (hs : s.Sound) {n : Nat} (hn : n ≤ 32) : s.refillFor n = .ok (s.filledFor n) := by
  rw [State.refillFor_eq, State.filledFor]
  split
  · exact hs.refill32 (by omega)
  · rfl

theorem State.filled64_of_atEnd {s : State} (h : s.atEnd = true) : s.filled64 = s := if_pos h

theorem State.filled64_of_not_atEnd {s : State} (h : s.atEnd = false) : s.filled64 = s.refilled64 := if_neg (by simp [h])

theorem State.filled32_of_atEnd {s : State} (h : s.atEnd = true) : s.filled32 = s := if_pos h

theorem State.filled32_of_not_atEnd {s : State} (h : s.atEnd = false) : s.filled32 = s.refilled32 := if_neg (by simp [h])

theorem State.advancePtr_freeCount {s : State} {k : Nat} (h : s.ptrOff.toNat + k < 2 ^ 64) :
    (s.advancePtr k).freeCount = s.freeCount := by
  rw [State.advancePtr_fits h]

theorem Advances.filled64 {s : State} (hs : s.Sound) (hv : s.valid.toNat = 0) :
    Advances s s.filled64 ∧ s.filled64.tell = s.tell := by
  cases hend : s.atEnd with
  | true => exact (State.filled64_of_atEnd hend).symm ▸ ⟨Advances.refl hs, rfl⟩
  | false =>
    rw [State.filled64_of_not_atEnd hend]
    have hptr := hs.cacheOk.ptrOff_lt hend
    have hfits : s.ptrOff.toNat + 8 < 2 ^ 64 := by omega
    have hahead := LooksAhead.of_refilled64 hs.cacheOk hv hend
    refine ⟨⟨⟨cursorFrame_refilled64 s, hs.of_frame (cursorFrame_refilled64 s) (hahead.cacheOk hs.cacheOk),
      fun _ => s.refilled64_streamOrdered hfits⟩, ?_, ?_, Int.le_of_eq hahead.tell.symm⟩, hahead.tell⟩
    · exact State.advancePtr_freeCount hfits
    · rw [State.refilled64_ptrOff s hfits]
      omega

theorem Advances.filled32 {s : State} (hs : s.Sound) (hv : s.valid.toNat ≤ 32) :
    Advances s s.filled32 ∧ s.filled32.tell = s.tell := by
  cases hend : s.atEnd with
  | true => exact (State.filled32_of_atEnd hend).symm ▸ ⟨Advances.refl hs, rfl⟩
  | false =>
    rw [State.filled32_of_not_atEnd hend]
    have hptr := hs.cacheOk.ptrOff_lt hend
    have hfits : s.ptrOff.toNat + 4 < 2 ^ 64 := by omega
    have hahead := LooksAhead.of_refilled32 hs.cacheOk hv hend
    refine ⟨⟨⟨cursorFrame_refilled32 s, hs.of_frame (cursorFrame_refilled32 s) (hahead.cacheOk hs.cacheOk),
      fun ho => State.refilled32_streamOrdered hv hs.cacheOk.valid_le_ptr hfits hs.cacheOk.aligned ho⟩, ?_, ?_,
      Int.le_of_eq hahead.tell.symm⟩, hahead.tell⟩
    · exact State.advancePtr_freeCount hfits
    · rw [State.refilled32_ptrOff s hfits]
      omega

theorem Advances.filledFor {s : State} (hs : s.Sound) {n : Nat} (hn : n ≤ 32) :
    Advances s (s.filledFor n) ∧ (s.filledFor n).tell = s.tell := by
  unfold State.filledFor
  split
  · exact Advances.filled32 hs (by omega)
  · exact ⟨Advances.refl hs, rfl⟩

/-! ### What the reader can supply -/

theorem State.atEnd_of_checked {s : State} (hc : s.params.checked = true) : s.atEnd = decide (s.byteLen.toNat ≤ s.ptrOff.toNat) := by
  rw [State.atEnd, hc, Bool.true_and]

/-- CheckRange passes, and the reader supplies the bits, or its refills are suppressed and the cache is short of them. -/
theorem State.supplies_cases {s : State} {n : Nat} (hrange : s.checkRange n = .ok ()) :
    (s.supplies n = true ∧ (n ≤ s.valid.toNat ∨ s.atEnd = false)) ∨
      (s.supplies n = false ∧ s.atEnd = true ∧ s.valid.toNat < n) := by
  unfold State.supplies
  cases hc : s.params.checked with
  | true =>
    rw [State.atEnd_of_checked hc]
    by_cases hv : n ≤ s.valid.toNat
    · exact .inl ⟨by simp [hv], .inl hv⟩
    · by_cases hp : s.ptrOff.toNat < s.byteLen.toNat
      · exact .inl ⟨by simp [hp], .inr (by simpa using hp)⟩
      · exact .inr ⟨by simp [hv, hp], by simpa using hp, by omega⟩
  | false =>
    have hle := (State.checkRange_ok.mp hrange).resolve_left (by simp [hc])
    exact .inl ⟨by simp [hle], .inr (by simp [State.atEnd, hc])⟩

/-- A reader that supplies bits passes CheckRange for them. -/
theorem State.checkRange_of_supplies {s : State} {n : Nat} (h : s.params.checked = true ∨ s.supplies n = true) :
    s.checkRange n = .ok () := by
  refine State.checkRange_ok.mpr ?_
  cases hc : s.params.checked with
  | true => exact .inl rfl
  | false =>
    have hsup := h.resolve_left (by simp [hc])
    rw [State.supplies, if_neg (by simp [hc]), decide_eq_true_eq] at hsup
    exact .inr hsup

theorem State.Sound.supplies_zero {s : State} (hs : s.Sound) : s.supplies 0 = true := by
  have htell := hs.cacheOk.in_range
  unfold State.supplies
  cases hc : s.params.checked with
  | true => simp
  | false => simpa [hc] using htell

/-! ### Values by their bits -/

/-- `v` is the value of `n` bits in stream order, `bit 0` the first of them (10_state.md R18, 20_memory.md R52). -/
def isField (e : Endian) (n : Nat) (bit : Nat → Bool) (v : Nat) : Prop :=
  ∀ i, v.testBit i = (decide (i < n) && bit (match e with | .le => i | .be => n - 1 - i))

theorem isField_unique {e : Endian} {n v w : Nat} {f g : Nat → Bool} (hv : isField e n f v) (hw : isField e n g w)
    (h : ∀ i, i < n → f i = g i) : v = w := by
  refine Nat.eq_of_testBit_eq fun i => ?_
  rw [hv i, hw i]
  by_cases hi : i < n
  · cases e with
    | le => rw [h i hi]
    | be => rw [h (n - 1 - i) (by omega)]
  · simp [hi]

theorem isField_streamField (s : State) (k n : Nat) :
    isField s.params.endian n (fun i => s.streamBit (k + i)) (s.streamField k n) := by
  intro i
  unfold State.streamField
  cases s.params.endian with
  | le => exact s.fieldLe_testBit k n i
  | be => exact s.fieldBe_testBit k n i

/-- The bits of a field with zero bits behind it. -/
theorem isField_zeroExtended (s : State) (k m z : Nat) :
    isField s.params.endian (m + z) (fun i => decide (i < m) && s.streamBit (k + i)) (s.zeroExtended (s.streamField k m) z) := by
  intro i
  have hfield := isField_streamField s k m
  unfold State.zeroExtended
  unfold isField at hfield
  cases he : s.params.endian with
  | le =>
    simp only [he] at hfield ⊢
    rw [hfield i]
    by_cases hi : i < m
    · simp [hi, show i < m + z by omega]
    · simp [hi]
  | be =>
    simp only [he] at hfield ⊢
    rw [Nat.testBit_mul_two_pow, hfield (i - z)]
    by_cases hz : z ≤ i
    · by_cases hi : i < m + z
      · have hpos : m - 1 - (i - z) = m + z - 1 - i := by omega
        simp [hz, hi, hpos, show i - z < m by omega, show m + z - 1 - i < m by omega]
      · simp [hi, show ¬ i - z < m by omega]
    · simp [hz, show ¬ m + z - 1 - i < m by omega]

/-- `Show(n)` is the value of the next `n` bits of the cache (20_memory.md R46). -/
theorem isField_showBits (s : State) {n : Nat} (hn : n ≤ 64) : isField s.params.endian n s.nextBit (s.showBits n).toNat := by
  intro i
  rw [BitVec.testBit_toNat]
  unfold State.showBits State.nextBit
  by_cases h0 : n = 0
  · simp [h0]
  rw [if_neg h0]
  cases s.params.endian with
  | le =>
    dsimp only
    rw [BitVec.getLsbD_and, mask_getLsbD]
    by_cases hi : i < n
    · simp [hi, show i < 64 by omega]
    · simp [hi]
  | be =>
    dsimp only
    rw [BitVec.getLsbD_ushiftRight]
    by_cases hi : i < n
    · simp [hi, show 63 - (n - 1 - i) = 64 - n + i by omega]
    · simp [hi, BitVec.getLsbD_of_ge s.cache (64 - n + i) (by omega)]

/-- Joined parts hold the bits of the first part, then those of the second (41_reader_extract.md R94). -/
theorem isField_joinParts (s : State) {p q : Word64} {a b : Nat} {f g : Nat → Bool} (hab : a + b ≤ 64)
    (hp : isField s.params.endian a f p.toNat) (hq : isField s.params.endian b g q.toNat) :
    isField s.params.endian (a + b) (fun i => if i < a then f i else g (i - a)) (s.joinParts p a q b).toNat := by
  intro i
  rw [BitVec.testBit_toNat]
  unfold isField at hp hq
  simp only [BitVec.testBit_toNat] at hp hq
  unfold State.joinParts
  cases he : s.params.endian with
  | le =>
    simp only [he] at hp hq ⊢
    rw [BitVec.getLsbD_or, BitVec.getLsbD_shiftLeft, hp, hq]
    by_cases ha : i < a
    · simp [ha, show i < a + b by omega]
    · by_cases hb : i < a + b
      · simp [ha, hb, show i < 64 by omega, show i - a < b by omega]
      · simp [ha, hb, show ¬ i - a < b by omega]
  | be =>
    simp only [he] at hp hq ⊢
    rw [BitVec.getLsbD_or, BitVec.getLsbD_shiftLeft, hp, hq]
    by_cases hb : i < b
    · have hpos : a + b - 1 - i - a = b - 1 - i := by omega
      simp [hb, hpos, show i < a + b by omega, show ¬ a + b - 1 - i < a by omega]
    · by_cases ha : i < a + b
      · have hpos : a - 1 - (i - b) = a + b - 1 - i := by omega
        simp [hb, ha, hpos, show i < 64 by omega, show i - b < a by omega, show a + b - 1 - i < a by omega]
      · simp [hb, ha, show ¬ i - b < a by omega]

/-- The cache of a reader in order: the stream from Tell on, then zero bits. -/
theorem State.Sound.nextBit_eq {s : State} (hs : s.Sound) (ho : s.streamOrdered = true) {i : Nat} (hi : i < 64) :
    s.nextBit i = (decide (i < s.valid.toNat) && s.streamBit (s.tell.toNat + i)) := by
  by_cases hv : i < s.valid.toNat
  · rw [s.nextBit_eq_streamBit ho i hv, decide_eq_true hv, Bool.true_and]
  · rw [State.nextBit_beyond hs.cacheOk.valid_le hs.cacheOk.aligned (Nat.not_lt.mp hv) hi, decide_eq_false hv, Bool.false_and]

/-- The bits of the next value: stream bits, as far as the reader has them (20_memory.md R49, R52). -/
theorem isField_nextValue {s : State} {n : Nat} (hrange : s.checkRange n = .ok ()) :
    isField s.params.endian n
      (fun i => (s.supplies n || decide (i < s.valid.toNat)) && s.streamBit (s.tell.toNat + i)) (s.nextValue n) := by
  unfold State.nextValue
  rcases State.supplies_cases hrange with ⟨hsup, _⟩ | ⟨hsup, _, hv⟩
  · rw [if_pos hsup]
    simp only [hsup, Bool.true_or, Bool.true_and]
    exact isField_streamField s _ n
  · rw [if_neg (by simp [hsup])]
    simp only [hsup, Bool.false_or]
    have h := isField_zeroExtended s s.tell.toNat s.valid.toNat (n - s.valid.toNat)
    rwa [Nat.add_sub_cancel' (Nat.le_of_lt hv)] at h

end Sys2Proof.Machine
end

section
/-! PROOFS. What a read or a peek of `n` bits gives: the next value of the stream, and a reader that goes on past the bits it
could supply (20_memory.md R48 to R50; 41_reader_extract.md R91 to R97). -/

namespace Sys2Proof.Machine

/-- `r` is what a read of `n` bits leaves: their value, and the reader behind the bits it supplied, or at its end. -/
structure Takes (s : State) (n : Nat) (r : Word64 × State) : Prop where
  advances : Advances s r.2
  value : s.streamOrdered = true → r.1.toNat = s.nextValue n
  tell : r.2.tell = if s.supplies n then s.tell + (n : Int) else 8 * (s.ptrOff.toNat : Int)
  at_end : s.atEnd = true → r.2.ptrOff = s.ptrOff

/-- `r` is what a peek of `n` bits leaves: their value, and the reader where it was. -/
structure Shows (s : State) (n : Nat) (r : Word64 × State) : Prop where
  advances : Advances s r.2
  value : s.streamOrdered = true → r.1.toNat = s.nextValue n
  tell : r.2.tell = s.tell

/-- A reader filled for `n` bits: it stands where it stood, and has the bits, or is at its end and short of them. -/
structure FilledFor (s : State) (n : Nat) (t : State) : Prop where
  advances : Advances s t
  tell : t.tell = s.tell
  enough : s.supplies n = true → n ≤ t.valid.toNat
  at_end : s.atEnd = true → t = s

theorem FilledFor.showBits {s t : State} {n : Nat} (h : FilledFor s n t) (hn : n ≤ 64) (hrange : s.checkRange n = .ok ())
    (ho : s.streamOrdered = true) : (t.showBits n).toNat = s.nextValue n := by
  have hshow := isField_showBits t hn
  have hparams := cursorFrame_params h.advances.frame
  rw [hparams] at hshow
  refine isField_unique hshow (isField_nextValue hrange) fun i hi => ?_
  rw [h.advances.sound.nextBit_eq (h.advances.ordered ho) (by omega), cursorFrame_streamBit h.advances.frame, h.tell]
  rcases State.supplies_cases hrange with ⟨hsup, _⟩ | ⟨hsup, hend, _⟩
  · have henough := h.enough hsup
    simp [hsup, show i < t.valid.toNat by omega]
  · rw [h.at_end hend, hsup, Bool.false_or]

theorem FilledFor.shows {s t : State} {n : Nat} (h : FilledFor s n t) (hn : n ≤ 64) (hrange : s.checkRange n = .ok ()) :
    Shows s n (t.showBits n, t) := ⟨h.advances, h.showBits hn hrange, h.tell⟩

/-- Dropping the bits a filled reader was filled for. -/
theorem FilledFor.dropBits {s t : State} {n : Nat} (h : FilledFor s n t) (hrange : s.checkRange n = .ok ()) :
    Advances s (t.dropBits n) ∧
      (t.dropBits n).tell = (if s.supplies n then s.tell + (n : Int) else 8 * (s.ptrOff.toNat : Int)) ∧
      (s.atEnd = true → (t.dropBits n).ptrOff = s.ptrOff) := by
  have hin : t.params.checked = true ∨ t.tell + (n : Int) ≤ (t.size.toNat : Int) := by
    rw [cursorFrame_params h.advances.frame, cursorFrame_size h.advances.frame, h.tell]
    exact State.checkRange_ok.mp hrange
  refine ⟨h.advances.trans (Advances.dropBits h.advances.sound hin), ?_, fun hend => by rw [h.at_end hend]; rfl⟩
  rw [State.dropBits_tell]
  rcases State.supplies_cases hrange with ⟨hsup, _⟩ | ⟨hsup, hend, hv⟩
  · have := h.enough hsup
    rw [if_pos hsup, h.tell, Nat.min_eq_left this]
  · have := s.tell_add_valid
    rw [if_neg (by simp [hsup]), h.at_end hend, Nat.min_eq_right (by omega)]
    exact this

theorem FilledFor.takes {s t : State} {n : Nat} (h : FilledFor s n t) (hn : n ≤ 64) (hrange : s.checkRange n = .ok ()) :
    Takes s n (t.showBits n, t.dropBits n) := by
  obtain ⟨hadv, htell, hend⟩ := h.dropBits hrange
  exact ⟨hadv, h.showBits hn hrange, htell, hend⟩

/-! ### READ_NZ, PEEK and READ_BIT -/

theorem State.Sound.filledFor {s : State} (hs : s.Sound) {n : Nat} (hn : n ≤ 32) (hrange : s.checkRange n = .ok ()) :
    FilledFor s n (s.filledFor n) := by
  obtain ⟨hadv, htell⟩ := Advances.filledFor hs hn
  refine ⟨hadv, htell, fun hsup => ?_, fun hend => ?_⟩
  · rcases State.supplies_cases hrange with ⟨_, hcase⟩ | ⟨hsup', _⟩
    · unfold State.filledFor
      split
      case isTrue hlt =>
        rw [State.filled32_of_not_atEnd (hcase.resolve_left (by omega)), State.refilled32_valid s (by omega)]
        omega
      case isFalse hge => omega
    · simp [hsup] at hsup'
  · unfold State.filledFor
    rw [State.filled32_of_atEnd hend, ite_self]

/-- READ_NZ's body on a sound reader (41_reader_extract.md R92). -/
theorem State.Sound.takeBits {s : State} (hs : s.Sound) {n : Nat} (hn : n ≤ 32) (hrange : s.checkRange n = .ok ()) :
    ∃ r, s.takeBits n = .ok r ∧ Takes s n r :=
  ⟨_, State.takeBits_ok.mpr ⟨hrange, _, hs.refillFor hn, rfl⟩, (hs.filledFor hn hrange).takes (by omega) hrange⟩

/-- PEEK's body on a sound reader (41_reader_extract.md R96). -/
theorem State.Sound.peekBits {s : State} (hs : s.Sound) {n : Nat} (hn : n ≤ 32) (hrange : s.checkRange n = .ok ()) :
    ∃ r, s.peekBits n = .ok r ∧ Shows s n r :=
  ⟨_, State.peekBits_ok.mpr ⟨hrange, _, hs.refillFor hn, rfl⟩, (hs.filledFor hn hrange).shows (by omega) hrange⟩

theorem State.Sound.refillIfEmpty {s : State} (hs : s.Sound) (hrange : s.checkRange 1 = .ok ()) :
    ∃ t, s.refillIfEmpty = .ok t ∧ FilledFor s 1 t := by
  unfold State.refillIfEmpty
  split
  case isTrue hv =>
    obtain ⟨hadv, htell⟩ := Advances.filled64 hs hv
    refine ⟨_, hs.refill64 hv, hadv, htell, fun hsup => ?_, State.filled64_of_atEnd⟩
    rcases State.supplies_cases hrange with ⟨_, hcase⟩ | ⟨hsup', _⟩
    · rw [State.filled64_of_not_atEnd (hcase.resolve_left (by omega)), State.refilled64_valid]
      decide
    · simp [hsup] at hsup'
  case isFalse hv => exact ⟨s, rfl, Advances.refl hs, rfl, fun _ => by omega, fun _ => rfl⟩

/-- READ_BIT's body on a sound reader (41_reader_extract.md R91). -/
theorem State.Sound.takeBit {s : State} (hs : s.Sound) (hrange : s.checkRange 1 = .ok ()) :
    ∃ r, s.takeBit = .ok r ∧ Takes s 1 r := by
  obtain ⟨t, ht, hfilled⟩ := hs.refillIfEmpty hrange
  exact ⟨_, State.takeBit_ok.mpr ⟨hrange, t, ht, rfl⟩, hfilled.takes (by decide) hrange⟩

/-! ### READ_63 and READ_64 -/

/-- The reader READ_63 drains, and then refills for the rest of its bits (41_reader_extract.md R94). -/
theorem State.Sound.drained {s : State} (hs : s.Sound)
    (hrange : s.params.checked = true ∨ 8 * (s.ptrOff.toNat : Int) ≤ (s.size.toNat : Int)) :
    (s.dropBits s.valid.toNat).refill64 = .ok (s.dropBits s.valid.toNat).filled64 ∧
      Advances s (s.dropBits s.valid.toNat).filled64 ∧
      (s.dropBits s.valid.toNat).filled64.tell = 8 * (s.ptrOff.toNat : Int) := by
  have hbits := s.tell_add_valid
  have hempty : (s.dropBits s.valid.toNat).valid.toNat = 0 := by rw [State.dropBits_bitCount, Nat.sub_self]
  have hdrop := Advances.dropBits hs (n := s.valid.toNat) (hrange.imp_right fun h => by omega)
  obtain ⟨hadv, htell⟩ := Advances.filled64 hdrop.sound hempty
  refine ⟨hdrop.sound.refill64 hempty, hdrop.trans hadv, ?_⟩
  rw [htell, State.dropBits_tell, Nat.min_self, hbits]

theorem State.supplies_iff (s : State) (n : Nat) :
    s.supplies n = true ↔
      (s.params.checked = true ∧ (n ≤ s.valid.toNat ∨ s.ptrOff.toNat < s.byteLen.toNat)) ∨
        (s.params.checked = false ∧ s.tell + (n : Int) ≤ (s.size.toNat : Int)) := by
  unfold State.supplies
  cases s.params.checked <;> simp

/-- READ_63's body where the bits are cached. -/
theorem State.Sound.takeWide_cached {s : State} (hs : s.Sound) {n : Nat} (hv : n ≤ s.valid.toNat)
    (hrange : s.checkRange n = .ok ()) :
    ∃ r, s.takeWide n = .ok r ∧ Takes s n r ∧ (s.supplies (n + 1) = true → r.2.supplies 1 = true) := by
  have hle := hs.cacheOk.valid_le
  have hfilled : FilledFor s n s := ⟨Advances.refl hs, rfl, fun _ => hv, fun _ => rfl⟩
  obtain ⟨hadv, htell, hend⟩ := hfilled.dropBits hrange
  have hnone : isField s.params.endian 0 (fun _ => false) (0 : Word64).toNat := fun i => by simp
  have hjoin := isField_joinParts s (by omega) hnone (isField_showBits s (show n ≤ 64 by omega))
  rw [Nat.zero_add] at hjoin
  have hvalue := isField_unique hjoin (isField_showBits s (by omega)) fun i _ => rfl
  refine ⟨_, State.takeWide_ok.mpr ⟨hrange, .inl ⟨hv, rfl⟩⟩,
    ⟨hadv, fun ho => hvalue.trans (hfilled.showBits (by omega) hrange ho), htell, hend⟩, fun hsup => ?_⟩
  rw [State.supplies_iff] at hsup ⊢
  rw [State.dropBits_params, State.dropBits_bitCount, State.dropBits_ptrOff, State.dropBits_byteLen, State.dropBits_size,
    State.dropBits_tell, Nat.min_eq_left hv]
  refine hsup.imp (fun ⟨hc, h⟩ => ⟨hc, ?_⟩) fun ⟨hc, h⟩ => ⟨hc, ?_⟩
  · omega
  · omega

/-- The bits of a wide read that drains the cache: those of the cache, then those of the refill. -/
theorem State.Sound.joinParts_drained {s t : State} (hs : s.Sound) (ho : s.streamOrdered = true) {n : Nat} (hn : n ≤ 64)
    (hv : s.valid.toNat < n) (hrange : s.checkRange n = .ok ()) (hadv : Advances s t)
    (htell : t.tell = 8 * (s.ptrOff.toNat : Int)) (hfull : s.supplies n = true → t.valid.toNat = 64)
    (hend : s.supplies n = false → t.valid.toNat = 0) :
    (s.joinParts (s.showBits s.valid.toNat) s.valid.toNat (t.showBits (n - s.valid.toNat)) (n - s.valid.toNat)).toNat =
      s.nextValue n := by
  have hbits := s.tell_add_valid
  have hnonneg := hs.cacheOk.tell_nonneg
  have hlast := isField_showBits t (show n - s.valid.toNat ≤ 64 by omega)
  rw [cursorFrame_params hadv.frame] at hlast
  have hjoin := isField_joinParts s (by omega) (isField_showBits s (show s.valid.toNat ≤ 64 by omega)) hlast
  rw [Nat.add_sub_cancel' (Nat.le_of_lt hv)] at hjoin
  refine isField_unique hjoin (isField_nextValue hrange) fun i hi => ?_
  split
  case isTrue hiv =>
    rw [s.nextBit_eq_streamBit ho i hiv]
    simp [hiv]
  case isFalse hiv =>
    have hpos : t.tell.toNat + (i - s.valid.toNat) = s.tell.toNat + i := by omega
    rw [hadv.sound.nextBit_eq (hadv.ordered ho) (by omega), cursorFrame_streamBit hadv.frame, hpos]
    cases hsup : s.supplies n with
    | true => simp [hfull hsup, show i - s.valid.toNat < 64 by omega]
    | false => simp [hend hsup, hiv]

/-- READ_63's body where it drains the cache. -/
theorem State.Sound.takeWide_drained {s : State} (hs : s.Sound) {n : Nat} (hn : n ≤ 64) (hv : s.valid.toNat < n)
    (hrange : s.checkRange n = .ok ()) :
    ∃ r, s.takeWide n = .ok r ∧ Takes s n r ∧ (n < 64 → s.supplies (n + 1) = true → r.2.supplies 1 = true) := by
  have hin := State.checkRange_ok.mp hrange
  have hbits := s.tell_add_valid
  obtain ⟨hrefill, hadv, htell⟩ := hs.drained (hin.imp_right fun h => by omega)
  have hguard : (s.dropBits s.valid.toNat).atEnd = s.atEnd := rfl
  have hfull : s.atEnd = false → (s.dropBits s.valid.toNat).filled64.valid.toNat = 64 := fun h => by
    rw [State.filled64_of_not_atEnd (hguard.trans h), State.refilled64_valid]
  have hempty : s.atEnd = true → (s.dropBits s.valid.toNat).filled64 = s.dropBits s.valid.toNat := fun h =>
    State.filled64_of_atEnd (hguard.trans h)
  generalize (s.dropBits s.valid.toNat).filled64 = t at hrefill hadv htell hfull hempty
  have hzero : s.atEnd = true → t.valid.toNat = 0 := fun h => by
    rw [hempty h, State.dropBits_bitCount, Nat.sub_self]
  have hparams := cursorFrame_params hadv.frame
  have hsize := cursorFrame_size hadv.frame
  have hdrop := Advances.dropBits hadv.sound (n := n - s.valid.toNat)
    (by rw [hparams, hsize, htell]; exact hin.imp_right fun h => by omega)
  have hlast : (t.dropBits (n - s.valid.toNat)).tell = t.tell + (min (n - s.valid.toNat) t.valid.toNat : Nat) :=
    t.dropBits_tell _
  refine ⟨_, State.takeWide_drains hrange hv hrefill, ⟨hadv.trans hdrop, fun ho => ?_, ?_, fun hend => ?_⟩, fun hlt hsup => ?_⟩
  · refine hs.joinParts_drained ho hn hv hrange hadv htell (fun hsup => ?_) fun hsup => ?_
    · rcases State.supplies_cases hrange with ⟨_, hcase⟩ | ⟨hsup', _⟩
      · exact hfull (hcase.resolve_left (by omega))
      · simp [hsup] at hsup'
    · rcases State.supplies_cases hrange with ⟨hsup', _⟩ | ⟨_, hend, _⟩
      · simp [hsup] at hsup'
      · exact hzero hend
  · rw [hlast, htell]
    rcases State.supplies_cases hrange with ⟨hsup, hcase⟩ | ⟨hsup, hend, _⟩
    · rw [if_pos hsup, hfull (hcase.resolve_left (by omega))]
      omega
    · rw [if_neg (by simp [hsup]), hzero hend]
      omega
  · rw [hempty hend]
    rfl
  · rw [State.supplies_iff] at hsup ⊢
    rw [State.dropBits_params, State.dropBits_bitCount, State.dropBits_size, hlast, hparams, hsize]
    refine hsup.imp (fun ⟨hc, h⟩ => ⟨hc, .inl ?_⟩) fun ⟨hc, h⟩ => ⟨hc, ?_⟩
    · rw [hfull (s.atEnd_eq_false.mpr (.inr (h.resolve_left (by omega))))]
      omega
    · rw [hfull (s.atEnd_eq_false.mpr (.inl hc))]
      omega

/-- READ_63's body on a sound reader (41_reader_extract.md R94). -/
theorem State.Sound.takeWide {s : State} (hs : s.Sound) {n : Nat} (hn : n ≤ 64) (hrange : s.checkRange n = .ok ()) :
    ∃ r, s.takeWide n = .ok r ∧ Takes s n r ∧ (n < 64 → s.supplies (n + 1) = true → r.2.supplies 1 = true) := by
  by_cases hv : n ≤ s.valid.toNat
  · obtain ⟨r, hr, htakes, hmore⟩ := hs.takeWide_cached hv hrange
    exact ⟨r, hr, htakes, fun _ => hmore⟩
  · exact hs.takeWide_drained hn (Nat.lt_of_not_le hv) hrange

/-- What a read leaves of a reader at its end: the bits it did not take. -/
theorem Takes.valid_of_atEnd {s : State} {n : Nat} {r : Word64 × State} (h : Takes s n r) (hrange : s.checkRange n = .ok ())
    (hend : s.atEnd = true) : r.2.valid.toNat = s.valid.toNat - n := by
  have hbits := s.tell_add_valid
  have hbits' := r.2.tell_add_valid
  have htell := h.tell
  rw [h.at_end hend] at hbits'
  rcases State.supplies_cases hrange with ⟨hsup, hcase⟩ | ⟨hsup, _, hv⟩
  · have hle := hcase.resolve_right (by simp [hend])
    rw [if_pos hsup] at htell
    omega
  · rw [if_neg (by simp [hsup])] at htell
    omega

theorem Advances.atEnd {s t : State} (h : Advances s t) (hend : s.atEnd = true) : t.atEnd = true := by
  obtain ⟨hc, hlen⟩ := s.atEnd_iff.mp hend
  rw [State.atEnd_iff, cursorFrame_params h.frame, cursorFrame_byteLen h.frame]
  exact ⟨hc, Nat.le_trans hlen h.ptr_le⟩

theorem State.supplies_of_add {s : State} {a b : Nat} (h : s.supplies (a + b) = true) : s.supplies a = true := by
  rw [State.supplies_iff] at h ⊢
  exact h.imp (fun ⟨hc, h⟩ => ⟨hc, by omega⟩) fun ⟨hc, h⟩ => ⟨hc, by omega⟩

/-- A checked reader at its end supplies what it has cached. -/
theorem State.supplies_of_atEnd {s : State} (hend : s.atEnd = true) (n : Nat) : s.supplies n = decide (n ≤ s.valid.toNat) := by
  obtain ⟨hc, hlen⟩ := s.atEnd_iff.mp hend
  rw [State.supplies, if_pos hc, decide_eq_false (Nat.not_lt.mpr hlen), Bool.or_false]

/-- CheckRange for the second of two parts passes where it did for both. -/
theorem Takes.checkRange {s : State} {a b : Nat} {r : Word64 × State} (hr : Takes s a r)
    (hrange : s.checkRange (a + b) = .ok ()) : r.2.checkRange b = .ok () := by
  refine State.checkRange_ok.mpr ?_
  rw [cursorFrame_params hr.advances.frame, cursorFrame_size hr.advances.frame, hr.tell]
  cases hc : s.params.checked with
  | true => exact .inl rfl
  | false =>
    have h := (State.checkRange_ok.mp hrange).resolve_left (by simp [hc])
    rw [if_pos ((s.supplies_iff a).mpr (.inr ⟨hc, by omega⟩))]
    exact .inr (by omega)

/-- Two reads one after the other are one read of both widths, if the second supplies its bits where the whole would. -/
theorem Takes.join {s : State} {a b : Nat} {r q : Word64 × State} (hs : s.Sound) (hb : 1 ≤ b) (hab : a + b ≤ 64)
    (hrange : s.checkRange (a + b) = .ok ()) (hr : Takes s a r) (hq : Takes r.2 b q)
    (hrb : r.2.checkRange b = .ok ()) (hsup : s.supplies (a + b) = true → r.2.supplies b = true) :
    Takes s (a + b) (s.joinParts r.1 a q.1 b, q.2) := by
  have hnonneg := hs.cacheOk.tell_nonneg
  have hparams := cursorFrame_params hr.advances.frame
  have hra : s.checkRange a = .ok () :=
    State.checkRange_ok.mpr ((State.checkRange_ok.mp hrange).imp_right fun h => by omega)
  refine ⟨hr.advances.trans hq.advances, fun ho => ?_, ?_, fun hend => ?_⟩
  · have hfa := isField_nextValue hra
    have hfb := isField_nextValue hrb
    rw [← hr.value ho] at hfa
    rw [← hq.value (hr.advances.ordered ho), hparams] at hfb
    refine isField_unique (isField_joinParts s hab hfa hfb) (isField_nextValue hrange) fun i hi => ?_
    rw [cursorFrame_streamBit hr.advances.frame, hr.tell]
    rcases State.supplies_cases hrange with ⟨hyes, _⟩ | ⟨hno, hend, hv⟩
    · have hpos : ¬ i < a → (s.tell + (a : Int)).toNat + (i - a) = s.tell.toNat + i := by omega
      by_cases hia : i < a
      · simp [hia, hyes, State.supplies_of_add hyes]
      · simp [hia, hyes, State.supplies_of_add hyes, hsup hyes, hpos hia]
    · have hvalid := hr.valid_of_atEnd hra hend
      rw [hno, State.supplies_of_atEnd hend, State.supplies_of_atEnd (hr.advances.atEnd hend), hvalid,
        decide_eq_false (show ¬ b ≤ s.valid.toNat - a by omega)]
      by_cases hia : i < a
      · by_cases hiv : i < s.valid.toNat
        · simp [hia, hiv]
        · simp [hia, hiv, show ¬ a ≤ s.valid.toNat by omega]
      · by_cases hiv : i < s.valid.toNat
        · have hpos : (s.tell + (a : Int)).toNat + (i - a) = s.tell.toNat + i := by omega
          simp [hia, hiv, hpos, show a ≤ s.valid.toNat by omega, show i - a < s.valid.toNat - a by omega]
        · simp [hia, hiv, show ¬ i - a < s.valid.toNat - a by omega]
  · rw [hq.tell]
    rcases State.supplies_cases hrange with ⟨hyes, _⟩ | ⟨hno, hend, hv⟩
    · rw [if_pos (hsup hyes), if_pos hyes, hr.tell, if_pos (State.supplies_of_add hyes)]
      omega
    · have hvalid := hr.valid_of_atEnd hra hend
      rw [State.supplies_of_atEnd (hr.advances.atEnd hend), hvalid, hr.at_end hend,
        decide_eq_false (show ¬ b ≤ s.valid.toNat - a by omega), hno]
      rfl
  · exact (hq.at_end (hr.advances.atEnd hend)).trans (hr.at_end hend)

/-- READ_64's body for 64 bits on a sound reader: 63 bits and one more (41_reader_extract.md R95). -/
theorem State.Sound.take64 {s : State} (hs : s.Sound) (hrange : s.checkRange 64 = .ok ()) :
    ∃ r b, s.takeWide 63 = .ok r ∧ r.2.takeBit = .ok b ∧ Takes s 64 (s.joinParts r.1 63 b.1 1, b.2) := by
  have hrange63 : s.checkRange 63 = .ok () :=
    State.checkRange_ok.mpr ((State.checkRange_ok.mp hrange).imp_right fun h => by omega)
  obtain ⟨r, hr, htakes, hmore⟩ := hs.takeWide (by decide) hrange63
  have hrange1 : r.2.checkRange 1 = .ok () := htakes.checkRange (b := 1) hrange
  obtain ⟨b, hb, htakes1⟩ := htakes.advances.sound.takeBit hrange1
  exact ⟨r, b, hr, hb, Takes.join (a := 63) (b := 1) hs (by decide) (by decide) hrange htakes htakes1 hrange1 (hmore (by decide))⟩

/-! ### The commands that read or peek -/

/-- The commands that show bits and consume none. -/
def peeks : Instr → Bool
  | .peek _ => true
  | .peekSigned _ => true
  | _ => false

/-- What a reading command makes of the value of its bits for RES (41_reader_extract.md R91 to R98). -/
def resultOf : Instr → Word64 → Word64
  | .readSigned n, v => signedResult n.toNat v
  | .peekSigned n, v => signedResult n.toNat v
  | _, v => v

/-- What a command that reads or peeks leaves. -/
def ReadsBits (i : Instr) (s : State) (n : Nat) (r : Word64 × State) : Prop := if peeks i then Shows s n r else Takes s n r

theorem ReadsBits.advances {i : Instr} {s : State} {n : Nat} {r : Word64 × State} (h : ReadsBits i s n r) : Advances s r.2 := by
  unfold ReadsBits at h
  split at h
  · exact h.advances
  · exact h.advances

theorem ReadsBits.value {i : Instr} {s : State} {n : Nat} {r : Word64 × State} (h : ReadsBits i s n r)
    (ho : s.streamOrdered = true) : r.1.toNat = s.nextValue n := by
  unfold ReadsBits at h
  split at h
  · exact h.value ho
  · exact h.value ho

/-- A read of no bit. -/
theorem State.Sound.takesNone {s : State} (hs : s.Sound) : Takes s 0 (0, s) where
  advances := Advances.refl hs
  value _ := by
    rw [State.nextValue, if_pos hs.supplies_zero, State.streamField_zero]
    rfl
  tell := by
    rw [if_pos hs.supplies_zero]
    exact (Int.add_zero _).symm
  at_end _ := rfl

theorem State.Sound.showsNone {s : State} (hs : s.Sound) : Shows s 0 (0, s) :=
  ⟨Advances.refl hs, hs.takesNone.value, rfl⟩

/-- Every reading command answers the value of its bits, where CheckRange passes. -/
theorem body_reads {i : Instr} {n : Nat} {s : State} (hs : s.Sound) (hi : readsOrPeeks i = some n) (hwf : i.wellFormed = true)
    (hrange : s.checkRange n = .ok ()) :
    ∃ r, body i s = .ok ⟨r.2, resultOf i r.1, false⟩ ∧ ReadsBits i s n r := by
  cases i with
  | readBit =>
    cases hi
    obtain ⟨r, hr, htakes⟩ := hs.takeBit hrange
    exact ⟨r, by rw [body, hr]; rfl, htakes⟩
  | read w =>
    cases hi
    dsimp only [body]
    split
    case isTrue h0 => exact ⟨(0, s), rfl, h0.symm ▸ hs.takesNone⟩
    case isFalse =>
      obtain ⟨r, hr, htakes⟩ := hs.takeBits (of_decide_eq_true hwf) hrange
      exact ⟨r, by rw [hr]; rfl, htakes⟩
  | readNz w | readSigned w =>
    cases hi
    rw [Instr.wellFormed, Bool.and_eq_true, decide_eq_true_eq, decide_eq_true_eq] at hwf
    obtain ⟨r, hr, htakes⟩ := hs.takeBits hwf.2 hrange
    exact ⟨r, by rw [body, hr]; rfl, htakes⟩
  | read63 w =>
    cases hi
    have hle : w.toNat ≤ 63 := of_decide_eq_true hwf
    dsimp only [body]
    split
    case isTrue h0 => exact ⟨(0, s), rfl, h0.symm ▸ hs.takesNone⟩
    case isFalse =>
      obtain ⟨r, hr, htakes, _⟩ := hs.takeWide (by omega) hrange
      exact ⟨r, by rw [hr]; rfl, htakes⟩
  | read64 w =>
    cases hi
    have hle : w.toNat ≤ 64 := of_decide_eq_true hwf
    dsimp only [body]
    split
    case isTrue h0 => exact ⟨(0, s), rfl, h0.symm ▸ hs.takesNone⟩
    case isFalse =>
      split
      case isTrue hlt =>
        obtain ⟨r, hr, htakes, _⟩ := hs.takeWide (by omega) hrange
        exact ⟨r, by rw [hr]; rfl, htakes⟩
      case isFalse hge =>
        have h64 : w.toNat = 64 := by omega
        rw [h64] at hrange ⊢
        obtain ⟨r, b, hr, hb, htakes⟩ := hs.take64 hrange
        refine ⟨(s.joinParts r.1 63 b.1 1, b.2), ?_, htakes⟩
        rw [hrange]
        show (s.takeWide 63 >>= fun r => r.2.takeBit >>= fun b => _) = _
        rw [hr]
        show (r.2.takeBit >>= fun b => _) = _
        rw [hb]
        rfl
  | peek w =>
    cases hi
    dsimp only [body]
    split
    case isTrue h0 => exact ⟨(0, s), rfl, h0.symm ▸ hs.showsNone⟩
    case isFalse =>
      obtain ⟨r, hr, hshows⟩ := hs.peekBits (of_decide_eq_true hwf) hrange
      exact ⟨r, by rw [hr]; rfl, hshows⟩
  | peekSigned w =>
    cases hi
    rw [Instr.wellFormed, Bool.and_eq_true, decide_eq_true_eq, decide_eq_true_eq] at hwf
    obtain ⟨r, hr, hshows⟩ := hs.peekBits hwf.2 hrange
    exact ⟨r, by rw [body, hr]; rfl, hshows⟩
  | init | skip | seek | align | tell | size | left | readVlc | skip1stop8data | dequant | idctPut | idctAdd | idctDcAdd =>
    cases hi

end Sys2Proof.Machine
end

section
/-! PROOFS. The extraction commands: reads and peeks of what the stream holds next, signed or not, exhausted or not
(41_reader_extract.md R91 to R98; 20_memory.md R49, R50). -/

namespace Sys2Proof.Machine

/-! ### Ready readers -/

theorem State.inv_of_ready {s : State} (h : s.ready = true) : s.inv = true := by
  rw [State.ready, Bool.and_eq_true, Bool.and_eq_true] at h
  exact h.1.1

theorem State.ordered_of_ready {s : State} (h : s.ready = true) : s.streamOrdered = true := by
  rw [State.ready, Bool.and_eq_true, Bool.and_eq_true] at h
  exact h.1.2

theorem State.unfaulted_of_ready {s : State} (h : s.ready = true) : s.faulted = false := by
  rw [State.ready, Bool.and_eq_true, Bool.not_eq_true'] at h
  exact h.2

/-- A legal command that reads or peeks bits the reader has, or a checked reader's, answers their value. -/
theorem exec_reads {i : Instr} {n : Nat} {s : State} (hs : s.ready = true) (hi : readsOrPeeks i = some n)
    (hwf : i.wellFormed = true) (hin : s.params.checked = true ∨ s.supplies n = true) :
    ∃ r, exec i s = .next (r.2.complete (resultOf i r.1) false) ∧ ReadsBits i s n r ∧ r.1.toNat = s.nextValue n ∧
      readerFrame s (r.2.complete (resultOf i r.1) false) := by
  obtain ⟨r, hr, hreads⟩ := body_reads (State.sound_of_inv (State.inv_of_ready hs)) hi hwf (State.checkRange_of_supplies hin)
  exact ⟨r, exec_of_ok (State.unfaulted_of_ready hs) hwf hr, hreads, hreads.value (State.ordered_of_ready hs),
    hreads.advances.readerFrame _ _⟩

theorem readsOrPeeks_of_readsUnsigned {i : Instr} {n : Nat} (h : readsUnsigned i = some n) :
    readsOrPeeks i = some n ∧ peeks i = false ∧ ∀ v, resultOf i v = v := by
  cases i with
  | readBit | read | readNz | read63 | read64 => exact ⟨h, rfl, fun _ => rfl⟩
  | init | readSigned | peek | peekSigned | skip | seek | align | tell | size | left | readVlc | skip1stop8data | dequant
  | idctPut | idctAdd | idctDcAdd => cases h

theorem Takes.of_reads {i : Instr} {s : State} {n : Nat} {r : Word64 × State} (h : ReadsBits i s n r) (hi : peeks i = false) :
    Takes s n r := by
  rw [ReadsBits, if_neg (by simp [hi])] at h
  exact h

theorem Shows.of_reads {i : Instr} {s : State} {n : Nat} {r : Word64 × State} (h : ReadsBits i s n r) (hi : peeks i = true) :
    Shows s n r := by
  rw [ReadsBits, if_pos hi] at h
  exact h

/-- Settles O36: the next value is the stream's, and the read takes it. -/
theorem readReturnsStreamBits : Obligations.ReadReturnsStreamBits := by
  unfold Obligations.ReadReturnsStreamBits
  intro i n s hi hwf hs hsup
  obtain ⟨hi', hpeek, hres⟩ := readsOrPeeks_of_readsUnsigned hi
  obtain ⟨r, hexec, hreads, hvalue, hframe⟩ := exec_reads hs hi' hwf (.inr hsup)
  have htell := (Takes.of_reads hreads hpeek).tell
  rw [if_pos hsup] at htell
  refine ⟨_, hexec, ?_, htell, rfl, hframe⟩
  rw [State.complete_res, hres, hvalue, State.nextValue, if_pos hsup]

/-- Settles O37: a reader that cannot supply the bits is at its end, and the read takes what it has. -/
theorem exhaustedReadPadsZeros : Obligations.ExhaustedReadPadsZeros := by
  unfold Obligations.ExhaustedReadPadsZeros
  intro i n s hi hwf hs hc hsup
  obtain ⟨hi', hpeek, hres⟩ := readsOrPeeks_of_readsUnsigned hi
  obtain ⟨r, hexec, hreads, hvalue, hframe⟩ := exec_reads hs hi' hwf (.inl hc)
  have htakes := Takes.of_reads hreads hpeek
  have hrange := State.checkRange_of_supplies (n := n) (.inl hc)
  rcases State.supplies_cases hrange with ⟨hyes, _⟩ | ⟨_, hend, hv⟩
  · simp [hsup] at hyes
  · have hvalid := htakes.valid_of_atEnd hrange hend
    have htell := htakes.tell
    rw [if_neg (by simp [hsup])] at htell
    refine ⟨_, hexec, ?_, BitVec.eq_of_toNat_eq (hvalid.trans (Nat.sub_eq_zero_of_le (Nat.le_of_lt hv))), htakes.at_end hend,
      htell, rfl, hframe⟩
    rw [State.complete_res, hres, hvalue, State.nextValue, if_neg (by simp [hsup])]

/-! ### Signed values -/

theorem isField_lt {e : Endian} {n v : Nat} {bit : Nat → Bool} (h : isField e n bit v) : v < 2 ^ n := by
  refine Nat.lt_pow_two_of_testBit _ fun i hi => ?_
  rw [h i, decide_eq_false (Nat.not_lt.mpr hi), Bool.false_and]

/-- The sign extension of an `n`-bit value is its two's complement (00_scope.md R9). -/
theorem sext_eq_twosComplement {n v : Nat} (hn : 1 ≤ n) (hv : v < 2 ^ n) : sext n v = twosComplement n v := by
  obtain ⟨m, rfl⟩ : ∃ m, n = m + 1 := ⟨n - 1, by omega⟩
  unfold sext twosComplement
  rw [Nat.add_sub_cancel]
  by_cases h : v < 2 ^ m
  · rw [Nat.testBit_lt_two_pow h, if_pos h]
    rfl
  · rw [Nat.testBit_of_two_pow_le_and_two_pow_add_one_gt (Nat.not_lt.mp h) hv, if_neg h]
    rfl

theorem signedResult_toInt {n : Nat} {v : Word64} (hn : 1 ≤ n) (hle : n ≤ 32) (hv : v.toNat < 2 ^ n) :
    (signedResult n v).toInt = twosComplement n v.toNat := by
  have hpow : (2 : Nat) ^ n ≤ 2 ^ 32 := Nat.pow_le_pow_right (by decide) hle
  rw [signedResult, sext_eq_twosComplement hn hv, BitVec.toInt_ofInt]
  have hlow : -(2 ^ 32 : Int) ≤ twosComplement n v.toNat := by
    unfold twosComplement
    split <;> omega
  have hhigh : twosComplement n v.toNat < (2 ^ 32 : Int) := by
    unfold twosComplement
    split <;> omega
  rw [Int.bmod_eq_of_le (by omega) (by omega)]

theorem State.nextValue_lt {s : State} {n : Nat} (hin : s.params.checked = true ∨ s.supplies n = true) :
    s.nextValue n < 2 ^ n := isField_lt (isField_nextValue (State.checkRange_of_supplies hin))

/-- Settles O38: READ_SIGNED is READ with the value sign extended. -/
theorem signedReadReturnsTwosComplement : Obligations.SignedReadReturnsTwosComplement := by
  unfold Obligations.SignedReadReturnsTwosComplement
  intro n s hn hle hs hin
  have hwf : (Instr.readSigned n).wellFormed = true := by rw [Instr.wellFormed, decide_eq_true hn, decide_eq_true hle]; rfl
  obtain ⟨r, hexec, hreads, hvalue, hframe⟩ := exec_reads (i := .readSigned n) hs rfl hwf hin
  refine ⟨_, hexec, ?_, (Takes.of_reads hreads rfl).tell, rfl, hframe⟩
  rw [State.complete_res, resultOf, signedResult_toInt hn hle (hvalue ▸ State.nextValue_lt hin), hvalue]

/-- Settles O39: the peeks show the next value and leave the position. -/
theorem peekShowsNextValue : Obligations.PeekShowsNextValue := by
  unfold Obligations.PeekShowsNextValue
  intro n s hle hs hin
  refine ⟨?_, fun hn => ?_⟩
  · obtain ⟨r, hexec, hreads, hvalue, hframe⟩ := exec_reads (i := .peek n) hs rfl (decide_eq_true hle) hin
    exact ⟨_, hexec, hvalue, (Shows.of_reads hreads rfl).tell, rfl, hframe⟩
  · have hwf : (Instr.peekSigned n).wellFormed = true := by rw [Instr.wellFormed, decide_eq_true hn, decide_eq_true hle]; rfl
    obtain ⟨r, hexec, hreads, hvalue, hframe⟩ := exec_reads (i := .peekSigned n) hs rfl hwf hin
    refine ⟨_, hexec, ?_, (Shows.of_reads hreads rfl).tell, rfl, hframe⟩
    rw [State.complete_res, resultOf, signedResult_toInt hn hle (hvalue ▸ State.nextValue_lt hin), hvalue]

/-! ### Overruns -/

theorem State.checkRange_cases (s : State) (n : Nat) :
    s.checkRange n = .ok () ∨
      (s.checkRange n = .error .uncheckedOverrun ∧ s.params.checked = false ∧ (s.size.toNat : Int) < s.tell + (n : Int)) := by
  cases h : s.checkRange n with
  | ok => exact .inl rfl
  | error c =>
    obtain ⟨⟨hc, hlt⟩, rfl⟩ := State.checkRange_error.mp h
    exact .inr ⟨rfl, hc, hlt⟩

theorem State.takeBits_overrun {s : State} {n : Nat} {c : Cause} (h : s.checkRange n = .error c) : s.takeBits n = .error c := by
  rw [State.takeBits, h]
  rfl

theorem State.peekBits_overrun {s : State} {n : Nat} {c : Cause} (h : s.checkRange n = .error c) : s.peekBits n = .error c := by
  rw [State.peekBits, h]
  rfl

theorem State.takeBit_overrun {s : State} {c : Cause} (h : s.checkRange 1 = .error c) : s.takeBit = .error c := by
  rw [State.takeBit, h]
  rfl

theorem State.takeWide_overrun {s : State} {n : Nat} {c : Cause} (h : s.checkRange n = .error c) : s.takeWide n = .error c := by
  rw [State.takeWide, h]
  rfl

theorem State.skipBits_overrun {s : State} {n : Nat} {c : Cause} (h : s.checkRange n = .error c) : s.skipBits n = .error c := by
  rw [State.skipBits, h]
  rfl

/-- Every legal command of some bits raises what CheckRange raises, before it does anything else (20_memory.md R50). -/
theorem body_overrun {i : Instr} {n : Nat} {s : State} {c : Cause} (hi : bitsFromHere i = some n) (hwf : i.wellFormed = true)
    (hn : 1 ≤ n) (h : s.checkRange n = .error c) : body i s = .error c := by
  cases i with
  | readBit =>
    cases hi
    rw [body, State.takeBit_overrun h]
    rfl
  | readNz w | readSigned w =>
    cases hi
    rw [body, State.takeBits_overrun h]
    rfl
  | read w =>
    cases hi
    rw [body, if_neg (by omega), State.takeBits_overrun h]
    rfl
  | read63 w =>
    cases hi
    rw [body, if_neg (by omega), State.takeWide_overrun h]
    rfl
  | read64 w =>
    cases hi
    have hle : w.toNat ≤ 64 := of_decide_eq_true hwf
    rw [body, if_neg (by omega)]
    split
    · rw [State.takeWide_overrun h]
      rfl
    · rw [show w.toNat = 64 by omega] at h
      rw [h]
      rfl
  | peek w =>
    cases hi
    rw [body, if_neg (by omega), State.peekBits_overrun h]
    rfl
  | peekSigned w =>
    cases hi
    rw [body, State.peekBits_overrun h]
    rfl
  | skip w =>
    cases hi
    rw [body, countOf_eq (of_decide_eq_true hwf), State.skipBits_overrun h]
    rfl
  | init | seek | align | tell | size | left | readVlc | skip1stop8data | dequant | idctPut | idctAdd | idctDcAdd => cases hi

/-- Where CheckRange fails, the command takes the fault UNCHECKED_OVERRUN and no more. -/
theorem exec_overrun {i : Instr} {s : State} (hs : s.faulted = false) (hwf : i.wellFormed = true)
    (h : body i s = .error .uncheckedOverrun) :
    exec i s = .next { s with fault := BitVec.ofNat 32 (3 + 256 * i.opcode.toNat), status := 3 } := by
  rw [exec_of_error hs hwf h, State.takeFault, faultWord_eq]
  rfl

/-- The gap to the next byte boundary (40_reader_control.md R83). -/
theorem State.alignGap_spec (s : State) : s.tell + (s.alignGap : Int) = 8 * ((s.tell + 7) / 8) ∧ s.alignGap < 8 := by
  unfold State.alignGap
  omega

/-- Settles O41: CheckRange stands before everything else in each of these bodies. -/
theorem uncheckedOverrunFaults : Obligations.UncheckedOverrunFaults := by
  unfold Obligations.UncheckedOverrunFaults
  intro s hinv hs hc
  have htell : s.tell ≤ (s.size.toNat : Int) := (State.cacheOk_of_inv hinv).in_range.resolve_left (by simp [hc])
  have hover : ∀ n : Nat, (s.size.toNat : Int) < s.tell + (n : Int) → s.checkRange n = .error .uncheckedOverrun :=
    fun n h => State.checkRange_error.mpr ⟨⟨hc, h⟩, rfl⟩
  refine ⟨fun i n hi hwf h => exec_overrun hs hwf (body_overrun hi hwf (by omega) (hover n h)), fun h => ?_⟩
  obtain ⟨hgap, _⟩ := s.alignGap_spec
  refine exec_overrun (i := .align) hs rfl ?_
  rw [body, State.skipToBoundary, if_pos (by omega), State.skipBits_overrun (hover _ (by omega))]
  rfl

end Sys2Proof.Machine
end

section
/-! PROOFS. Where a skip lands, and the commands that skip or restart the reader: SKIP, SEEK, ALIGN and INIT
(41_reader_extract.md R99; 40_reader_control.md R81 to R83). -/

namespace Sys2Proof.Machine

/-! ### SkipBits -/

/-- How many whole bytes a skip of `m` bits past the cache moves the pointer (41_reader_extract.md R99). -/
def skipHop (m : Nat) : Nat := if 64 ≤ m then m / 8 else 0

/-- How many bits are left to drop behind the pointer (41_reader_extract.md R99). -/
def skipRest (m : Nat) : Nat := if 64 ≤ m then m % 8 else m

theorem skipHop_add_skipRest (m : Nat) : 8 * skipHop m + skipRest m = m ∧ skipRest m < 64 := by
  unfold skipHop skipRest
  split <;> omega

theorem skipHop_le (m : Nat) : skipHop m ≤ m / 8 := by
  unfold skipHop
  split <;> omega

theorem skipHop_small {m : Nat} (h : m < 64) : skipHop m = 0 := if_neg (Nat.not_le.mpr h)

@[simp] theorem State.advancePtr_zero (s : State) : s.advancePtr 0 = s := by
  have := s.ptrOff.isLt
  rw [State.advancePtr_fits (by omega), Nat.add_zero, BitVec.ofNat_toNat, BitVec.setWidth_eq]

/-- The reader of a skip past the cache before its refill: drained, with the pointer moved. -/
def State.landing (s : State) (n : Nat) : State := s.emptyCache.advancePtr (skipHop (n - s.valid.toNat))

/-- The reader `SkipBits(n)` leaves. -/
def State.skipped (s : State) (n : Nat) : State :=
  if n < s.valid.toNat then s.dropBits n else (s.landing n).filled64.dropBits (skipRest (n - s.valid.toNat))

@[simp] theorem State.landing_valid (s : State) (n : Nat) : (s.landing n).valid = 0 := State.advancePtr_valid _ _

@[simp] theorem State.landing_cache (s : State) (n : Nat) : (s.landing n).cache = 0 := State.advancePtr_cache _ _

theorem cursorFrame_landing (s : State) (n : Nat) : cursorFrame s (s.landing n) :=
  cursorFrame_trans (cursorFrame_emptyCache s) (cursorFrame_advancePtr _ _)

/-- A drained reader holds no bit out of order. -/
theorem State.streamOrdered_of_empty {s : State} (h : s.valid.toNat = 0) : s.streamOrdered = true := by
  rw [State.streamOrdered_iff]
  omega

/-- A drained reader is aligned. -/
theorem State.cacheAligned_of_empty {s : State} (h : s.cache = 0) : s.cacheAligned = true := by
  unfold State.cacheAligned
  rw [h]
  cases s.params.endian with
  | le => exact decide_eq_true (Nat.two_pow_pos _)
  | be => exact decide_eq_true (Nat.zero_mod _)

/-- The pointer of an unchecked skip stays in its register. -/
theorem State.landing_ptrOff {s : State} {n : Nat}
    (hfit : s.ptrOff.toNat + skipHop (n - s.valid.toNat) < 2 ^ 64) :
    (s.landing n).ptrOff.toNat = s.ptrOff.toNat + skipHop (n - s.valid.toNat) ∧ (s.landing n).freeCount = s.freeCount :=
  ⟨State.advancePtr_toNat (s := s.emptyCache) hfit, State.advancePtr_freeCount (s := s.emptyCache) hfit⟩

/-- In unchecked mode a skip that CheckRange admits lands within SIZE. -/
theorem State.landing_in_range {s : State} {n : Nat} (hv : s.valid.toNat ≤ n) (hrange : s.checkRange n = .ok ()) :
    s.params.checked = true ∨
      8 * ((s.ptrOff.toNat + skipHop (n - s.valid.toNat) : Nat) : Int) + (skipRest (n - s.valid.toNat) : Int) ≤
        (s.size.toNat : Int) := by
  have hbits := s.tell_add_valid
  obtain ⟨hsum, _⟩ := skipHop_add_skipRest (n - s.valid.toNat)
  exact (State.checkRange_ok.mp hrange).imp_right fun h => by omega

/-- Either the pointer fits its register, or the mode is the checked one. -/
theorem State.landing_fits {s : State} {n : Nat} (hv : s.valid.toNat ≤ n) (hrange : s.checkRange n = .ok ()) :
    s.params.checked = true ∨ s.ptrOff.toNat + skipHop (n - s.valid.toNat) < 2 ^ 64 := by
  have hsize := s.size.isLt
  exact (State.landing_in_range hv hrange).imp_right fun h => by omega

theorem Keeps.landing {s : State} (hs : s.Sound) {n : Nat} (hv : s.valid.toNat ≤ n) (hrange : s.checkRange n = .ok ()) :
    Keeps s (s.landing n) where
  frame := cursorFrame_landing s n
  sound := hs.of_frame (cursorFrame_landing s n) {
    valid_le := by rw [State.landing_valid]; decide
    valid_le_ptr := by rw [State.landing_valid]; exact Nat.zero_le _
    aligned := State.cacheAligned_of_empty (s.landing_cache n)
    in_range := by
      rw [cursorFrame_params (cursorFrame_landing s n), cursorFrame_size (cursorFrame_landing s n)]
      cases hc : s.params.checked with
      | true => exact .inl rfl
      | false =>
        obtain ⟨hptr, _⟩ := State.landing_ptrOff ((State.landing_fits hv hrange).resolve_left (by simp [hc]))
        have hin := (State.landing_in_range hv hrange).resolve_left (by simp [hc])
        have hbits := (s.landing n).tell_add_valid
        rw [State.landing_valid, hptr] at hbits
        exact .inr (by simp at hbits; omega) }
  ordered _ := State.streamOrdered_of_empty (by rw [State.landing_valid]; rfl)

/-- SkipBits on a sound reader whose CheckRange passes (41_reader_extract.md R99). -/
theorem State.Sound.skipBits_eq {s : State} (hs : s.Sound) {n : Nat} (hrange : s.checkRange n = .ok ()) :
    s.skipBits n = .ok (s.skipped n) := by
  refine State.skipBits_ok.mpr ⟨hrange, ?_⟩
  unfold State.skipped
  by_cases hlt : n < s.valid.toNat
  · rw [if_pos hlt]
    exact .inl ⟨hlt, rfl⟩
  · have hv := Nat.not_lt.mp hlt
    rw [if_neg hlt]
    have hrefill := (Keeps.landing hs hv hrange).sound.refill64 (by rw [State.landing_valid]; rfl)
    unfold State.landing at hrefill ⊢
    unfold skipHop at hrefill ⊢
    unfold skipRest
    split at hrefill
    case isTrue hm =>
      refine .inr (.inl ⟨hv, hm, _, hrefill, ?_⟩)
      rw [if_pos hm, if_pos hm]
      split
      · rfl
      · rw [show (n - s.valid.toNat) % 8 = 0 by omega, State.dropBits_zero]
    case isFalse hm =>
      rw [State.advancePtr_zero] at hrefill
      refine .inr (.inr ⟨hv, by omega, _, hrefill, ?_⟩)
      rw [if_neg hm, if_neg hm, State.advancePtr_zero]
      split
      · rfl
      · rw [show n - s.valid.toNat = 0 by omega, State.dropBits_zero]

/-- What a skip past the cache drops behind the refill stays in range. -/
theorem State.landing_rest_in_range {s : State} (hs : s.Sound) {n : Nat} (hv : s.valid.toNat ≤ n)
    (hrange : s.checkRange n = .ok ()) :
    (s.landing n).filled64.params.checked = true ∨
      (s.landing n).filled64.tell + (skipRest (n - s.valid.toNat) : Int) ≤ ((s.landing n).filled64.size.toNat : Int) := by
  have hland := Keeps.landing hs hv hrange
  obtain ⟨hfill, htell⟩ := Advances.filled64 hland.sound (by rw [State.landing_valid]; rfl)
  have hframe := cursorFrame_trans hland.frame hfill.frame
  rw [cursorFrame_params hframe, cursorFrame_size hframe, htell]
  cases hc : s.params.checked with
  | true => exact .inl rfl
  | false =>
    obtain ⟨hptr, _⟩ := State.landing_ptrOff ((State.landing_fits hv hrange).resolve_left (by simp [hc]))
    have hin := (State.landing_in_range hv hrange).resolve_left (by simp [hc])
    have hbits := (s.landing n).tell_add_valid
    rw [State.landing_valid, hptr] at hbits
    exact .inr (by simp at hbits; omega)

theorem Keeps.skipped {s : State} (hs : s.Sound) {n : Nat} (hrange : s.checkRange n = .ok ()) : Keeps s (s.skipped n) := by
  unfold State.skipped
  split
  case isTrue hlt => exact (Advances.dropBits hs (State.checkRange_ok.mp hrange)).toKeeps
  case isFalse hlt =>
    have hv := Nat.not_lt.mp hlt
    have hland := Keeps.landing hs hv hrange
    obtain ⟨hfill, _⟩ := Advances.filled64 hland.sound (by rw [State.landing_valid]; rfl)
    exact hland.trans (hfill.trans (Advances.dropBits hfill.sound (State.landing_rest_in_range hs hv hrange))).toKeeps

/-- What a skip leaves whose pointer fits its register: the reader `n` bits on, or, past the end of a checked reader, drained
at the byte it landed on. -/
structure Skips (s : State) (n : Nat) (t : State) : Prop where
  advances : Advances s t
  reaches : n < s.valid.toNat ∨ s.params.checked = false ∨
    s.ptrOff.toNat + skipHop (n - s.valid.toNat) < s.byteLen.toNat → t.tell = s.tell + (n : Int)
  falls_short : s.valid.toNat ≤ n → s.params.checked = true →
    s.byteLen.toNat ≤ s.ptrOff.toNat + skipHop (n - s.valid.toNat) →
    t.ptrOff.toNat = s.ptrOff.toNat + skipHop (n - s.valid.toNat) ∧ t.valid = 0 ∧ t.cache = 0

/-- The landing of a skip whose pointer fits its register. -/
theorem Advances.landing {s : State} (hs : s.Sound) {n : Nat} (hv : s.valid.toNat ≤ n) (hrange : s.checkRange n = .ok ())
    (hfit : s.ptrOff.toNat + skipHop (n - s.valid.toNat) < 2 ^ 64) :
    Advances s (s.landing n) ∧ (s.landing n).tell = 8 * ((s.ptrOff.toNat + skipHop (n - s.valid.toNat) : Nat) : Int) := by
  obtain ⟨hptr, hfree⟩ := State.landing_ptrOff hfit
  have hbits := s.tell_add_valid
  have hbits' := (s.landing n).tell_add_valid
  have hvalid : (s.landing n).valid.toNat = 0 := by rw [State.landing_valid]; rfl
  rw [hvalid, hptr] at hbits'
  exact ⟨⟨Keeps.landing hs hv hrange, hfree, by omega, by omega⟩, by omega⟩

theorem State.dropBits_of_empty {s : State} (hv : s.valid = 0) (hc : s.cache = 0) (n : Nat) :
    (s.dropBits n).valid = 0 ∧ (s.dropBits n).cache = 0 := by
  refine ⟨BitVec.eq_of_toNat_eq ?_, ?_⟩
  · rw [State.dropBits_bitCount, hv]
    exact Nat.zero_sub n
  · unfold State.dropBits
    rw [hc]
    cases s.params.endian with
    | le => exact BitVec.zero_ushiftRight
    | be => exact BitVec.zero_shiftLeft n

theorem Skips.skipped {s : State} (hs : s.Sound) {n : Nat} (hrange : s.checkRange n = .ok ())
    (hfit : s.valid.toNat ≤ n → s.params.checked = true → s.ptrOff.toNat + skipHop (n - s.valid.toNat) < 2 ^ 64) :
    Skips s n (s.skipped n) := by
  unfold State.skipped
  split
  case isTrue hlt =>
    refine ⟨Advances.dropBits hs (State.checkRange_ok.mp hrange), fun _ => ?_, fun h => absurd hlt (Nat.not_lt.mpr h)⟩
    rw [State.dropBits_tell, Nat.min_eq_left (Nat.le_of_lt hlt)]
  case isFalse hlt =>
    have hv := Nat.not_lt.mp hlt
    have hfit' : s.ptrOff.toNat + skipHop (n - s.valid.toNat) < 2 ^ 64 := by
      rcases State.landing_fits hv hrange with hc | h
      · exact hfit hv hc
      · exact h
    obtain ⟨hland, hltell⟩ := Advances.landing hs hv hrange hfit'
    have hlvalid : (s.landing n).valid.toNat = 0 := by rw [State.landing_valid]; rfl
    obtain ⟨hfill, hftell⟩ := Advances.filled64 hland.sound hlvalid
    obtain ⟨hptr, _⟩ := State.landing_ptrOff hfit'
    obtain ⟨hsum, hrest⟩ := skipHop_add_skipRest (n - s.valid.toNat)
    have hbits := s.tell_add_valid
    have hparams := cursorFrame_params hland.frame
    have hlen := cursorFrame_byteLen hland.frame
    refine ⟨hland.trans (hfill.trans (Advances.dropBits hfill.sound (State.landing_rest_in_range hs hv hrange))),
      fun hreach => ?_, fun _ hc hshort => ?_⟩
    · have hend : (s.landing n).atEnd = false := by
        rw [State.atEnd_eq_false, hparams, hlen, hptr]
        exact hreach.resolve_left hlt
      rw [State.dropBits_tell, hftell, hltell, State.filled64_of_not_atEnd hend, State.refilled64_valid]
      omega
    · have hend : (s.landing n).atEnd = true := by
        rw [State.atEnd_iff, hparams, hlen, hptr]
        exact ⟨hc, hshort⟩
      rw [State.filled64_of_atEnd hend]
      exact ⟨hptr, State.dropBits_of_empty (s.landing_valid n) (s.landing_cache n) _⟩

/-- SkipBits on a sound reader, where the pointer fits its register. -/
theorem State.Sound.skipBits {s : State} (hs : s.Sound) {n : Nat} (hrange : s.checkRange n = .ok ())
    (hfit : s.valid.toNat ≤ n → s.params.checked = true → s.ptrOff.toNat + skipHop (n - s.valid.toNat) < 2 ^ 64) :
    ∃ t, s.skipBits n = .ok t ∧ Skips s n t := ⟨_, hs.skipBits_eq hrange, Skips.skipped hs hrange hfit⟩

/-- A short skip leaves the pointer to the refill. -/
theorem State.skip_fits_of_small {s : State} {n : Nat} (hn : n < 64) :
    s.valid.toNat ≤ n → s.params.checked = true → s.ptrOff.toNat + skipHop (n - s.valid.toNat) < 2 ^ 64 := by
  intro _ _
  have := s.ptrOff.isLt
  rw [skipHop_small (by omega)]
  omega

/-- Past the end of a checked reader a skip ends at a byte that lies at most 7 bits before its target. -/
theorem Skips.tell_short {s t : State} {n : Nat} (h : Skips s n t) (hv : s.valid.toNat ≤ n) (hc : s.params.checked = true)
    (hend : s.byteLen.toNat ≤ s.ptrOff.toNat + skipHop (n - s.valid.toNat)) :
    t.tell = 8 * ((s.ptrOff.toNat + skipHop (n - s.valid.toNat) : Nat) : Int) := by
  obtain ⟨hptr, hvalid, _⟩ := h.falls_short hv hc hend
  have hbits := t.tell_add_valid
  rw [hptr, hvalid] at hbits
  simpa using hbits

/-- A skip that ends at or before the last byte of the buffer reaches its target. -/
theorem Skips.tell_of_le {s t : State} {n : Nat} (h : Skips s n t)
    (hle : s.params.checked = true → s.tell + (n : Int) ≤ 8 * (s.byteLen.toNat : Int)) : t.tell = s.tell + (n : Int) := by
  have hbits := s.tell_add_valid
  obtain ⟨hsum, _⟩ := skipHop_add_skipRest (n - s.valid.toNat)
  by_cases hreach : n < s.valid.toNat ∨ s.params.checked = false ∨
      s.ptrOff.toNat + skipHop (n - s.valid.toNat) < s.byteLen.toNat
  · exact h.reaches hreach
  · rw [not_or, not_or, Bool.not_eq_false] at hreach
    obtain ⟨hv, hc, hend⟩ := hreach
    have := hle hc
    rw [h.tell_short (by omega) hc (by omega)]
    omega

end Sys2Proof.Machine
end

section
/-! PROOFS. The commands that move or restart the reader: SKIP, SEEK, ALIGN and INIT, and the reader right after reset
(41_reader_extract.md R99; 40_reader_control.md R81 to R83; 70_reset_and_hazards.md section 1). -/

namespace Sys2Proof.Machine

/-! ### SKIP -/

theorem body_skip {s : State} {n : Word64} (hs : s.Sound) (hn : n.toNat < 2 ^ 32) (hrange : s.checkRange n.toNat = .ok ()) :
    body (.skip n) s = .ok ⟨s.skipped n.toNat, 0, false⟩ := by
  rw [body, countOf_eq hn, hs.skipBits_eq hrange]
  rfl

theorem exec_skip {s : State} {n : Word64} (hs : s.Sound) (hf : s.faulted = false) (hn : n.toNat < 2 ^ 32)
    (hrange : s.checkRange n.toNat = .ok ()) : exec (.skip n) s = .next ((s.skipped n.toNat).complete 0 false) :=
  exec_of_ok (i := .skip n) hf (decide_eq_true hn) (body_skip hs hn hrange)

/-- A skip whose target lies within the buffer of a checked reader keeps the pointer in its register. -/
theorem State.skip_fits_of_le {s : State} {n : Nat}
    (hle : s.params.checked = true → s.tell + (n : Int) ≤ 8 * (s.byteLen.toNat : Int)) :
    s.valid.toNat ≤ n → s.params.checked = true → s.ptrOff.toNat + skipHop (n - s.valid.toNat) < 2 ^ 64 := by
  intro hv hc
  have hbits := s.tell_add_valid
  have hhop := skipHop_le (n - s.valid.toNat)
  have hlen := s.byteLen.isLt
  have := hle hc
  omega

/-- Settles O42: such a skip lands where the pointer fits, and reaches its target. -/
theorem skipAdvancesPosition : Obligations.SkipAdvancesPosition := by
  unfold Obligations.SkipAdvancesPosition
  intro s n hinv hf hn hin
  have hs := State.sound_of_inv hinv
  have hle : s.params.checked = true → s.tell + (n.toNat : Int) ≤ 8 * (s.byteLen.toNat : Int) := fun hc => by
    rwa [if_pos hc] at hin
  have hrange : s.checkRange n.toNat = .ok () := by
    rw [State.checkRange_ok]
    cases hc : s.params.checked with
    | true => exact .inl rfl
    | false =>
      rw [hc] at hin
      exact .inr hin
  have hskips := Skips.skipped hs hrange (State.skip_fits_of_le hle)
  exact ⟨_, exec_skip hs hf hn hrange, hskips.tell_of_le hle, rfl, rfl, hskips.advances.readerFrame 0 false⟩

/-- A skip never passes its target, and through the pointer it falls short by less than a byte. -/
theorem Skips.tell_le {s t : State} {n : Nat} (h : Skips s n t) :
    t.tell ≤ s.tell + (n : Int) ∧ (s.valid.toNat + 64 ≤ n → s.tell + (n : Int) ≤ t.tell + 7) := by
  by_cases hreach : n < s.valid.toNat ∨ s.params.checked = false ∨
      s.ptrOff.toNat + skipHop (n - s.valid.toNat) < s.byteLen.toNat
  · have := h.reaches hreach
    omega
  · rw [not_or, not_or, Bool.not_eq_false] at hreach
    obtain ⟨hv, hc, hend⟩ := hreach
    have hbits := s.tell_add_valid
    rw [h.tell_short (by omega) hc (by omega)]
    unfold skipHop
    split <;> omega

/-- Settles O43: the pointer fits its register, and the skip reaches its target or falls short at a byte. -/
theorem checkedSkipIsBounded : Obligations.CheckedSkipIsBounded := by
  unfold Obligations.CheckedSkipIsBounded
  intro s n hinv hf hc hn hptr
  have hs := State.sound_of_inv hinv
  have hrange : s.checkRange n.toNat = .ok () := State.checkRange_ok.mpr (.inl hc)
  have hhop := skipHop_le (n.toNat - s.valid.toNat)
  have hskips := Skips.skipped hs hrange fun _ _ => by omega
  obtain ⟨hle, hshort⟩ := hskips.tell_le
  exact ⟨_, exec_skip hs hf hn hrange, hskips.advances.tell_le, hle, hshort, rfl, rfl, hskips.advances.readerFrame 0 false⟩

/-! ### SEEK -/

/-- The reader SEEK skips from: at the start of its buffer, drained (40_reader_control.md R82). -/
def State.rewound (s : State) : State := { s with ptrOff := 0, cache := 0, valid := 0 }

theorem cursorFrame_rewound (s : State) : cursorFrame s s.rewound := rfl

theorem Keeps.rewound {s : State} (hs : s.Sound) : Keeps s s.rewound where
  frame := cursorFrame_rewound s
  sound := hs.of_frame (cursorFrame_rewound s) {
    valid_le := Nat.zero_le _
    valid_le_ptr := Nat.zero_le _
    aligned := State.cacheAligned_of_empty rfl
    in_range := .inr (Int.natCast_nonneg _) }
  ordered _ := State.streamOrdered_of_empty rfl

theorem exec_seek {s : State} {pos : Word64} (hs : s.Sound) (hf : s.faulted = false) (hn : pos.toNat < 2 ^ 32)
    (hrange : s.rewound.checkRange pos.toNat = .ok ()) :
    exec (.seek pos) s = .next ((s.rewound.skipped pos.toNat).complete 0 false) := by
  refine exec_of_ok (i := .seek pos) (d := ⟨_, 0, false⟩) hf (decide_eq_true hn) ?_
  show (s.rewound.skipBits (countOf pos) >>= _) = _
  rw [countOf_eq hn, (Keeps.rewound hs).sound.skipBits_eq hrange]
  rfl

/-- In unchecked mode a SEEK past SIZE faults (40_reader_control.md R82). -/
theorem exec_seek_overrun {s : State} {pos : Word64} (hf : s.faulted = false) (hn : pos.toNat < 2 ^ 32)
    (hc : s.params.checked = false) (hpos : s.size.toNat < pos.toNat) :
    exec (.seek pos) s = .next { s with fault := 0x0B03, status := 3 } := by
  have hover : s.rewound.checkRange pos.toNat = .error .uncheckedOverrun := by
    refine State.checkRange_error.mpr ⟨⟨hc, ?_⟩, rfl⟩
    show (s.size.toNat : Int) < 0 + _
    omega
  refine exec_overrun (i := .seek pos) hf (decide_eq_true hn) ?_
  show (s.rewound.skipBits (countOf pos) >>= _) = _
  rw [countOf_eq hn, State.skipBits_overrun hover]
  rfl

/-- The skip of a SEEK, and its frame from the reader before it. -/
theorem Skips.rewound {s : State} {n : Nat} (hs : s.Sound) (hn : n < 2 ^ 32) (hrange : s.rewound.checkRange n = .ok ()) :
    Skips s.rewound n (s.rewound.skipped n) ∧ readerFrame s ((s.rewound.skipped n).complete 0 false) := by
  have hzero : s.rewound.ptrOff.toNat = 0 ∧ s.rewound.valid.toNat = 0 := ⟨rfl, rfl⟩
  have hhop := skipHop_le (n - s.rewound.valid.toNat)
  have hskips := Skips.skipped (Keeps.rewound hs).sound hrange fun _ _ => by omega
  exact ⟨hskips, readerFrame_of_cursorFrame (cursorFrame_trans (cursorFrame_rewound s) hskips.advances.frame)
    hskips.advances.freeCount 0 false⟩

/-- Within SIZE a SEEK reaches its position. -/
theorem exec_seek_within {s : State} {pos : Word64} (hs : s.Sound) (hf : s.faulted = false) (hpos : pos.toNat ≤ s.size.toNat) :
    Skips s.rewound pos.toNat (s.rewound.skipped pos.toNat) ∧
      exec (.seek pos) s = .next ((s.rewound.skipped pos.toNat).complete 0 false) ∧
      (s.rewound.skipped pos.toNat).tell = (pos.toNat : Int) ∧
      readerFrame s ((s.rewound.skipped pos.toNat).complete 0 false) := by
  have hlen := hs.byteLen_eq
  have hlt : pos.toNat < 2 ^ 32 := Nat.lt_of_le_of_lt hpos s.size.isLt
  have hrange : s.rewound.checkRange pos.toNat = .ok () := by
    refine State.checkRange_ok.mpr (.inr ?_)
    show (0 : Int) + _ ≤ (s.size.toNat : Int)
    omega
  obtain ⟨hskips, hframe⟩ := Skips.rewound hs hlt hrange
  refine ⟨hskips, exec_seek hs hf hlt hrange, (hskips.tell_of_le fun _ => ?_).trans (Int.zero_add _), hframe⟩
  show (0 : Int) + _ ≤ 8 * (s.byteLen.toNat : Int)
  omega

/-- Settles O29: SEEK is a skip from the start of the buffer. -/
theorem seekReachesPosition : Obligations.SeekReachesPosition := by
  unfold Obligations.SeekReachesPosition
  intro s pos hinv hf hlt
  have hs := State.sound_of_inv hinv
  refine ⟨fun hpos => ?_, fun hc hpos => ?_, fun hc start hstart => ?_⟩
  · obtain ⟨_, hexec, htell, hframe⟩ := exec_seek_within hs hf hpos
    exact ⟨_, hexec, htell, rfl, rfl, hframe⟩
  · exact exec_seek_overrun hf hlt hc hpos
  · have hrange : s.rewound.checkRange pos.toNat = .ok () := State.checkRange_ok.mpr (.inl hc)
    obtain ⟨hskips, hframe⟩ := Skips.rewound hs hlt hrange
    have hhop : s.rewound.ptrOff.toNat + skipHop (pos.toNat - s.rewound.valid.toNat) = start := by
      show 0 + skipHop (pos.toNat - 0) = start
      rw [hstart, skipHop]
      split <;> split <;> omega
    refine ⟨_, exec_seek hs hf hlt hrange, rfl, rfl, hframe, fun hin => ?_, fun hout => ?_⟩
    · exact (hskips.reaches (.inr (.inr (by rw [hhop]; exact hin)))).trans (Int.zero_add _)
    · have hshort := hskips.falls_short (Nat.zero_le _) hc (by rw [hhop]; exact hout)
      have htell := hskips.tell_short (Nat.zero_le _) hc (by rw [hhop]; exact hout)
      rw [hhop] at hshort htell
      exact ⟨hshort.1, hshort.2.1, hshort.2.2, htell⟩

/-! ### ALIGN -/

/-- The skip to the boundary, which is no longer than 7 bits, reaches it in both modes. -/
theorem Skips.tell_boundary {s t : State} (h : Skips s s.alignGap t) : t.tell = 8 * ((s.tell + 7) / 8) := by
  obtain ⟨hgap, hlt⟩ := s.alignGap_spec
  by_cases hreach : s.alignGap < s.valid.toNat ∨ s.params.checked = false ∨
      s.ptrOff.toNat + skipHop (s.alignGap - s.valid.toNat) < s.byteLen.toNat
  · rw [h.reaches hreach, hgap]
  · rw [not_or, not_or, Bool.not_eq_false] at hreach
    obtain ⟨hv, hc, hend⟩ := hreach
    have hbits := s.tell_add_valid
    rw [h.tell_short (by omega) hc (by omega), skipHop_small (by omega)]
    omega

/-- The skip of an ALIGN that CheckRange admits. -/
theorem State.Sound.skipToBoundary {s : State} (hs : s.Sound) (hrange : s.checkRange s.alignGap = .ok ()) :
    ∃ t, s.skipToBoundary = .ok t ∧ Advances s t ∧ t.tell = 8 * ((s.tell + 7) / 8) := by
  obtain ⟨hgap, hlt⟩ := s.alignGap_spec
  unfold State.skipToBoundary
  split
  case isTrue =>
    obtain ⟨t, ht, hskips⟩ := hs.skipBits hrange (State.skip_fits_of_small (by omega))
    exact ⟨t, ht, hskips.advances, hskips.tell_boundary⟩
  case isFalse h => exact ⟨s, rfl, Advances.refl hs, by omega⟩

theorem State.params_ok_of_inv {s : State} (h : s.inv = true) : s.params.ok = true := by
  simp only [State.inv, Bool.and_eq_true] at h
  obtain ⟨⟨⟨⟨hok, _⟩, _⟩, _⟩, _⟩ := h
  exact hok

/-- The address ALIGN returns, for a position that is not negative. -/
theorem State.byteAddr_toNat {s : State} (hok : s.params.ok = true) (htell : 0 ≤ s.tell) :
    s.byteAddr.toNat = (s.buf.toNat + (s.tell / 8).toNat) % 2 ^ s.params.addrW := by
  have hpow : (2 : Nat) ^ s.params.addrW ≤ 2 ^ 64 := Nat.pow_le_pow_right (by decide) (addrW_le_of_ok hok)
  have hlt : (s.buf.toNat + (s.tell / 8).toNat) % 2 ^ s.params.addrW < 2 ^ s.params.addrW := Nat.mod_lt _ (Nat.two_pow_pos _)
  have hsum : (s.buf.toNat : Int) + asr s.tell 3 = ((s.buf.toNat + (s.tell / 8).toNat : Nat) : Int) := by
    unfold asr
    omega
  rw [State.byteAddr, hsum, ← Int.natCast_emod, BitVec.ofInt_natCast, BitVec.toNat_ofNat]
  exact Nat.mod_eq_of_lt (by omega)

/-- Settles O31: the skip to the boundary is short, so it reaches the boundary. -/
theorem alignReachesByteBoundary : Obligations.AlignReachesByteBoundary := by
  unfold Obligations.AlignReachesByteBoundary
  intro s hinv hf hin
  have hs := State.sound_of_inv hinv
  obtain ⟨hgap, _⟩ := s.alignGap_spec
  have hrange : s.checkRange s.alignGap = .ok () := State.checkRange_ok.mpr (hin.imp_right fun h => by omega)
  obtain ⟨t, ht, hadv, htell⟩ := hs.skipToBoundary hrange
  have hbody : body .align s = .ok ⟨t, t.byteAddr, false⟩ := by
    rw [body, ht]
    rfl
  have hparams := cursorFrame_params hadv.frame
  have hnonneg := hadv.sound.cacheOk.tell_nonneg
  refine ⟨_, exec_of_ok hf rfl hbody, htell, rfl, hadv.readerFrame _ _, ?_⟩
  rw [State.complete_res, State.byteAddr_toNat (hparams ▸ State.params_ok_of_inv hinv) hnonneg, hparams,
    cursorFrame_buf hadv.frame, htell, Int.mul_ediv_cancel_left _ (by decide)]

/-! ### INIT and the reader after reset -/

theorem State.sound_openReader {s : State} {buf : Word64} {n : Nat} (hpad : 8 ≤ s.params.pad) (hn : n ≤ Config.sizeMax) :
    (s.openReader buf n).Sound where
  cacheOk :=
    { valid_le := Nat.zero_le _
      valid_le_ptr := Nat.zero_le _
      aligned := State.cacheAligned_of_empty rfl
      in_range := .inr (Int.natCast_nonneg _) }
  pad_ge := hpad
  byteLen_eq := by
    have hmax : n ≤ 2147483640 := hn
    rw [State.openReader_byteLen, State.openReader_size, BitVec.toNat_ofNat, BitVec.toNat_ofNat]
    omega

theorem pad_ge_of_ok {p : Params} (h : p.ok = true) : 8 ≤ p.pad := by
  simp only [Params.ok, Bool.and_eq_true, decide_eq_true_eq] at h
  obtain ⟨⟨⟨⟨⟨⟨⟨hpad, _⟩, _⟩, _⟩, _⟩, _⟩, _⟩, _⟩ := h
  exact hpad

/-- INIT of a legal stream opens the reader and makes its first refill. -/
theorem body_init {s : State} {buf nbits : Word64} (hpad : 8 ≤ s.params.pad) (hn : nbits.toNat ≤ Config.sizeMax)
    (hbuf : s.wrapAddr buf.toNat ≠ 0) :
    body (.init buf nbits) s =
      .ok ⟨(s.openReader (BitVec.ofNat 64 (s.wrapAddr buf.toNat)) nbits.toNat).filled64, 0, false⟩ := by
  have hmax : nbits.toNat ≤ 2147483640 := hn
  rw [body, countOf_eq (by omega), if_neg (by omega), (State.sound_openReader hpad hn).refill64 rfl]
  rfl

/-- Settles O27: the opened reader is sound and stands at 0, and its refill goes on in order. -/
theorem initOpensReader : Obligations.InitOpensReader := by
  unfold Obligations.InitOpensReader
  intro s buf nbits hok hf hn hbuf
  have hmax : nbits.toNat ≤ 2147483640 := hn
  have hpow : (2 : Nat) ^ s.params.addrW ≤ 2 ^ 64 := Nat.pow_le_pow_right (by decide) (addrW_le_of_ok hok)
  have haddr : s.wrapAddr buf.toNat < 2 ^ s.params.addrW := State.wrapAddr_lt s _
  have hpad := pad_ge_of_ok hok
  have hwf : (Instr.init buf nbits).wellFormed = true := decide_eq_true (by omega)
  obtain ⟨hadv, htell⟩ := Advances.filled64
    (State.sound_openReader (s := s) (buf := BitVec.ofNat 64 (s.wrapAddr buf.toNat)) hpad hn) rfl
  have hexec := exec_of_ok hf hwf (body_init hpad hn hbuf)
  refine ⟨_, hexec, ?_, ?_, ?_, ?_, htell, ?_, ?_, fun a => ?_⟩
  · have hframe := hadv.frame
    unfold cursorFrame at hframe
    rw [hadv.freeCount] at hframe
    dsimp only
    rw [hframe]
    rfl
  · rw [State.complete_buf, cursorFrame_buf hadv.frame, State.openReader_buf, BitVec.toNat_ofNat]
    exact Nat.mod_eq_of_lt (by omega)
  · rw [State.complete_size, cursorFrame_size hadv.frame, State.openReader_size, BitVec.toNat_ofNat]
    exact Nat.mod_eq_of_lt (by omega)
  · rw [State.complete_byteLen, cursorFrame_byteLen hadv.frame, State.openReader_byteLen, BitVec.toNat_ofNat]
    exact Nat.mod_eq_of_lt (by omega)
  · rw [State.complete_valid]
    generalize hopen : s.openReader (BitVec.ofNat 64 (s.wrapAddr buf.toNat)) nbits.toNat = o
    have hend : o.atEnd = (s.params.checked && decide ((nbits.toNat + 7) / 8 ≤ 0)) := by
      rw [State.atEnd, ← hopen, State.openReader_params, State.openReader_byteLen, State.openReader_ptrOff, BitVec.toNat_ofNat,
        Nat.mod_eq_of_lt (by omega)]
      rfl
    have hempty : o.valid.toNat = 0 := by
      rw [← hopen]
      rfl
    cases hatEnd : o.atEnd with
    | true =>
      rw [hatEnd, eq_comm, Bool.and_eq_true, decide_eq_true_eq] at hend
      rw [State.filled64_of_atEnd hatEnd, hempty, if_pos ⟨hend.1, by omega⟩]
    | false =>
      rw [hatEnd, eq_comm, Bool.and_eq_false_iff, decide_eq_false_iff_not] at hend
      rw [State.filled64_of_not_atEnd hatEnd, State.refilled64_valid, if_neg]
      rintro ⟨hc, hzero⟩
      rcases hend with hno | hno
      · simp [hc] at hno
      · omega
  · exact hadv.ordered (State.streamOrdered_of_empty rfl)
  · exact cursorFrame_readByte hadv.frame a

/-- Settles O18: no stream, no cached bit, no fault and no written byte. -/
theorem resetMeetsInvariant : Obligations.ResetMeetsInvariant := by
  have hinv : ∀ p : Params, p.ok = true → (State.initial p).inv = true := by
    intro p hok
    have haligned : (State.initial p).cacheAligned = true := State.cacheAligned_of_empty rfl
    have hreader : (State.initial p).readerOk = true := by
      simp only [State.readerOk, haligned, Bool.and_true, Bool.and_eq_true, decide_eq_true_eq]
      exact ⟨⟨⟨⟨Nat.zero_le _, Nat.zero_le _⟩, Nat.zero_le _⟩, show (0 : Nat) = (0 + 7) / 8 by decide⟩, Nat.two_pow_pos _⟩
    have hrange : (State.initial p).uncheckedOk = true :=
      Bool.or_eq_true_iff.mpr (.inr (decide_eq_true (Int.le_refl 0)))
    have hparams : (State.initial p).params.ok = true := hok
    simp only [State.inv, hparams, hreader, hrange, Bool.and_true]
    rfl
  refine ⟨fun p hok => ⟨hinv p hok, ?_⟩, hinv Config.defaultParams (by decide)⟩
  have hordered : (State.initial p).streamOrdered = true := State.streamOrdered_of_empty rfl
  rw [State.ready, hinv p hok, hordered]
  rfl

/-- After reset a checked reader has no bit: every value is 0. -/
theorem nextValue_initial {p : Params} (hc : p.checked = true) (n : Nat) :
    (State.initial p).nextValue n = 0 ∧ ((State.initial p).supplies n = true → n = 0) := by
  have hzero : (State.initial p).valid.toNat = 0 := rfl
  have hsup : (State.initial p).supplies n = decide (n ≤ 0) := State.supplies_of_atEnd (Bool.and_eq_true_iff.mpr ⟨hc, rfl⟩) n
  refine ⟨?_, fun h => ?_⟩
  · unfold State.nextValue
    rw [hsup]
    split
    case isTrue h =>
      rw [show n = 0 by simpa using h, State.streamField_zero]
    case isFalse =>
      rw [hzero, State.streamField_zero, State.zeroExtended]
      split
      · rfl
      · exact Nat.zero_mul _
  · rw [hsup] at h
    simpa using h

theorem resultOf_zero (i : Instr) : resultOf i 0 = 0 := by
  cases i with
  | readSigned n | peekSigned n =>
    rw [resultOf, signedResult, sext, if_neg (by simp)]
    rfl
  | init | readBit | read | readNz | read63 | read64 | peek | skip | seek | align | tell | size | left | readVlc
  | skip1stop8data | dequant | idctPut | idctAdd | idctDcAdd => rfl

/-- A checked reader without a stream moves by whole bytes, from 64 bits on. -/
theorem Skips.tell_initial {p : Params} (hc : p.checked = true) {n : Nat} {t : State} (h : Skips (State.initial p) n t) :
    t.tell = if 64 ≤ n then ((8 * (n / 8) : Nat) : Int) else 0 := by
  have htell : t.tell = 8 * ((0 + skipHop (n - 0) : Nat) : Int) := h.tell_short (Nat.zero_le _) hc (Nat.zero_le _)
  rw [htell, skipHop]
  split <;> split <;> omega

/-- Settles O35: no bit is cached and none can be refilled. -/
theorem inertReaderReturnsZeros : Obligations.InertReaderReturnsZeros := by
  unfold Obligations.InertReaderReturnsZeros
  intro p i n hok hwf
  have hready : (State.initial p).ready = true := (resetMeetsInvariant.1 p hok).2
  have hs := State.sound_of_inv (State.inv_of_ready hready)
  have htell0 : (State.initial p).tell = 0 := rfl
  refine ⟨fun hc hi => ?_, fun hc hi => ?_, fun hc hi hn => ?_⟩
  · obtain ⟨r, hexec, hreads, hvalue, _⟩ := exec_reads hready hi hwf (.inl hc)
    obtain ⟨hzero, hsup⟩ := nextValue_initial hc n
    have hr : r.1 = 0 := BitVec.eq_of_toNat_eq (hvalue.trans hzero)
    refine ⟨_, hexec, by rw [State.complete_res, hr, resultOf_zero], rfl, ?_⟩
    show r.2.tell = 0
    cases hpeek : peeks i with
    | true => exact (Shows.of_reads hreads hpeek).tell
    | false =>
      rw [(Takes.of_reads hreads hpeek).tell]
      split
      case isTrue h => rw [hsup h, htell0]; rfl
      case isFalse => rfl
  · obtain ⟨k, hi, rfl⟩ := hi
    have hrange : (State.initial p).checkRange k.toNat = .ok () := State.checkRange_ok.mpr (.inl hc)
    rcases hi with rfl | rfl
    · have hlt : k.toNat < 2 ^ 32 := of_decide_eq_true hwf
      have hhop := skipHop_le k.toNat
      have hskips := Skips.skipped hs hrange fun _ _ => show 0 + skipHop k.toNat < 2 ^ 64 by omega
      exact ⟨_, exec_skip hs rfl hlt hrange, rfl, hskips.tell_initial hc⟩
    · have hlt : k.toNat < 2 ^ 32 := of_decide_eq_true hwf
      obtain ⟨hskips, _⟩ := Skips.rewound hs hlt hrange
      exact ⟨_, exec_seek hs rfl hlt hrange, rfl, hskips.tell_initial hc⟩
  · rcases hi with hi | ⟨k, rfl, rfl⟩
    · have hover : (State.initial p).checkRange n = .error .uncheckedOverrun := by
        refine State.checkRange_error.mpr ⟨⟨hc, ?_⟩, rfl⟩
        show (0 : Int) < 0 + _
        omega
      exact exec_overrun rfl hwf (body_overrun hi hwf hn hover)
    · exact exec_seek_overrun rfl (of_decide_eq_true hwf) hc hn

end Sys2Proof.Machine
end

section
/-! PROOFS. What every step keeps: the invariant, the order of the stream in the cache, and the pointer that goes forward
(10_state.md sections 2 and 3; 20_memory.md sections 1 and 3). -/

namespace Sys2Proof.Machine

/-! ### Steps that are safe -/

/-- A step never raises BUFFER_OVERREAD (20_memory.md R33), and what it leaves satisfies `P`. -/
structure Safe {α : Type} (P : α → Prop) (x : Except Cause α) : Prop where
  error_ne : ∀ c, x = .error c → c ≠ .bufferOverread
  ok : ∀ a, x = .ok a → P a

theorem Safe.of_ok {α : Type} {P : α → Prop} {x : Except Cause α} {a : α} (hx : x = .ok a) (h : P a) : Safe P x := by
  subst hx
  refine ⟨nofun, fun b hb => ?_⟩
  cases hb
  exact h

theorem Safe.of_error {α : Type} {P : α → Prop} {x : Except Cause α} {c : Cause} (hx : x = .error c) (h : c ≠ .bufferOverread) :
    Safe P x := by
  subst hx
  refine ⟨fun d hd => ?_, nofun⟩
  cases hd
  exact h

theorem Safe.bind {α β : Type} {P : α → Prop} {Q : β → Prop} {x : Except Cause α} {f : α → Except Cause β} (hx : Safe P x)
    (hf : ∀ a, P a → Safe Q (f a)) : Safe Q (x >>= f) := by
  refine ⟨fun c h => ?_, fun b h => ?_⟩
  · rcases except_bind_error.mp h with h | ⟨a, ha, h⟩
    · exact hx.error_ne c h
    · exact (hf a (hx.ok a ha)).error_ne c h
  · obtain ⟨a, ha, h⟩ := except_bind_ok.mp h
    exact (hf a (hx.ok a ha)).ok b h

theorem Safe.mono {α : Type} {P Q : α → Prop} {x : Except Cause α} (hx : Safe P x) (h : ∀ a, P a → Q a) : Safe Q x :=
  ⟨hx.error_ne, fun a ha => h a (hx.ok a ha)⟩

/-- CheckRange, and what it lets pass. -/
theorem safe_checkRange (s : State) (n : Nat) : Safe (fun _ => s.checkRange n = .ok ()) (s.checkRange n) := by
  rcases s.checkRange_cases n with h | ⟨h, _⟩
  · exact .of_ok h h
  · exact .of_error h (by decide)

/-! ### READ_VLC -/

/-- A point of a walk that started at `s`: its reader went on from `s`, and has consumed at most `bits` with the index of the
level counted in, and refilled at most `bytes` (42_vlc.md R117). -/
structure VlcPoint.Within (s : State) (bits bytes : Nat) (p : VlcPoint) : Prop where
  advances : Advances s p.reader
  width_le : p.width ≤ 32
  bits_le : p.reader.tell + (p.width : Int) ≤ s.tell + (bits : Int)
  bytes_le : p.reader.ptrOff.toNat ≤ s.ptrOff.toNat + bytes

theorem State.filledFor_ptrOff_le {s : State} (hs : s.Sound) (n : Nat) :
    (s.filledFor n).ptrOff.toNat ≤ s.ptrOff.toNat + 4 := by
  unfold State.filledFor
  split
  case isFalse => omega
  case isTrue =>
    cases hend : s.atEnd with
    | true =>
      rw [State.filled32_of_atEnd hend]
      omega
    | false =>
      have := hs.cacheOk.ptrOff_lt hend
      rw [State.filled32_of_not_atEnd hend, State.refilled32_ptrOff s (by omega)]

/-- One lookup on a sound reader: the refill of its index, and the table's entry (42_vlc.md R111, R112). -/
theorem State.Sound.vlcLookup_eq {s : State} (hs : s.Sound) {table : Word64} {tlen nb : Nat} {base : Int} (hnb : nb ≤ 32) :
    s.vlcLookup table tlen nb base =
      (s.vlcEntry table tlen ((((s.filledFor nb).showBits nb).toNat : Int) + base)).map
        (fun e => ⟨nb, e, s.filledFor nb⟩) := by
  rw [State.vlcLookup, hs.refillFor hnb, ← cursorFrame_vlcEntry (Advances.filledFor hs hnb).1.frame]
  rfl

theorem safe_vlcLookup {s : State} (hs : s.Sound) (table : Word64) (tlen : Nat) {nb : Nat} (base : Int) (hnb : nb ≤ 32) :
    Safe (VlcPoint.Within s nb 4) (s.vlcLookup table tlen nb base) := by
  obtain ⟨hadv, htell⟩ := Advances.filledFor hs hnb
  rw [hs.vlcLookup_eq hnb]
  cases he : s.vlcEntry table tlen ((((s.filledFor nb).showBits nb).toNat : Int) + base) with
  | error c =>
    refine .of_error rfl ?_
    rw [(State.vlcEntry_error.mp he).2]
    decide
  | ok e =>
    refine .of_ok rfl ⟨hadv, hnb, ?_, State.filledFor_ptrOff_le hs nb⟩
    exact Int.le_of_eq (congrArg (· + (nb : Int)) htell)

theorem safe_vlcWalk {s : State} (table : Word64) (tlen more : Nat) {bits bytes : Nat} {p : VlcPoint}
    (hp : p.Within s bits bytes) : Safe (VlcPoint.Within s (bits + 32 * more) (bytes + 4 * more)) (vlcWalk table tlen more p) := by
  induction more generalizing p bits bytes with
  | zero => exact .of_ok rfl hp
  | succ more ih =>
    rw [vlcWalk]
    split
    case isFalse => exact .of_ok rfl ⟨hp.advances, hp.width_le, by have := hp.bits_le; omega, by have := hp.bytes_le; omega⟩
    case isTrue =>
      refine (safe_checkRange _ _).bind fun _ hrange => ?_
      split
      case isTrue => exact .of_error rfl (by decide)
      case isFalse hwidth =>
        have hdrop := Advances.dropBits hp.advances.sound (State.checkRange_ok.mp hrange)
        have htell := p.reader.dropBits_tell p.width
        refine (safe_vlcLookup hdrop.sound table tlen p.entry.sym (by omega)).bind fun q hq => ?_
        have hbits := hq.bits_le
        have hbytes := hq.bytes_le
        rw [State.dropBits_ptrOff] at hbytes
        have hq' : q.Within s (bits + 32) (bytes + 4) := by
          refine ⟨hp.advances.trans (hdrop.trans hq.advances), hq.width_le, ?_, ?_⟩
          · have := hp.bits_le
            omega
          · have := hp.bytes_le
            omega
        refine (ih hq').mono fun r hr => ⟨hr.advances, hr.width_le, ?_, ?_⟩
        · have := hr.bits_le
          omega
        · have := hr.bytes_le
          omega

/-- The bounds of READ_VLC, whatever the table holds (42_vlc.md R117). -/
theorem safe_body_readVlc {s : State} (hs : s.Sound) {n : BitVec 7} {d : BitVec 2} {table tlen : Word64}
    (hwf : (Instr.readVlc n d table tlen).wellFormed = true) :
    Safe (fun r => Advances s r.state ∧ r.state.tell ≤ s.tell + (n.toNat : Int) + 64 ∧
      r.state.ptrOff.toNat ≤ s.ptrOff.toNat + 12) (body (.readVlc n d table tlen) s) := by
  simp only [Instr.wellFormed, Bool.and_eq_true, decide_eq_true_eq] at hwf
  have hd := d.isLt
  refine (safe_vlcLookup hs table tlen.toNat 0 (by omega)).bind fun first hfirst => ?_
  refine (safe_vlcWalk table tlen.toNat (d.toNat - 1) hfirst).bind fun p hp => ?_
  split
  case isTrue => exact .of_error rfl (by decide)
  case isFalse hlen =>
    refine (safe_checkRange _ _).bind fun _ hrange => .of_ok rfl ?_
    refine ⟨hp.advances.trans (Advances.dropBits hp.advances.sound (State.checkRange_ok.mp hrange)), ?_, ?_⟩
    · have := hp.bits_le
      rw [State.dropBits_tell]
      omega
    · have := hp.bytes_le
      rw [State.dropBits_ptrOff]
      omega

/-- Settles O50: a READ_VLC that does not complete leaves the reader, and one that does stays in its bounds. -/
theorem vlcIsBounded : Obligations.VlcIsBounded := by
  unfold Obligations.VlcIsBounded
  intro s t n d table tlen hinv _ h
  have hs := State.sound_of_inv hinv
  cases ends_of_exec h with
  | refused | illegal | faulted =>
    refine ⟨Int.le_refl s.tell, ?_, Nat.le_add_right ..⟩
    show s.tell ≤ _
    omega
  | completed _ hwf d hd =>
    obtain ⟨hadv, htell, hptr⟩ := (safe_body_readVlc hs hwf).ok d hd
    exact ⟨hadv.tell_le, htell, hptr⟩

/-! ### The reader commands -/

theorem safe_takeBit {s : State} (hs : s.Sound) : Safe (fun r => Advances s r.2) s.takeBit := by
  rcases s.checkRange_cases 1 with hrange | ⟨hover, _⟩
  · obtain ⟨r, hr, htakes⟩ := hs.takeBit hrange
    exact .of_ok hr htakes.advances
  · exact .of_error (State.takeBit_overrun hover) (by decide)

theorem safe_takeWide {s : State} (hs : s.Sound) {n : Nat} (hn : n ≤ 64) : Safe (fun r => Advances s r.2) (s.takeWide n) := by
  rcases s.checkRange_cases n with hrange | ⟨hover, _⟩
  · obtain ⟨r, hr, htakes, _⟩ := hs.takeWide hn hrange
    exact .of_ok hr htakes.advances
  · exact .of_error (State.takeWide_overrun hover) (by decide)

/-- The data bits of a group. -/
theorem safe_skipByte {s : State} (hs : s.Sound) : Safe (fun t => Advances s t) (s.skipBits 8) := by
  rcases s.checkRange_cases 8 with hrange | ⟨hover, _⟩
  · obtain ⟨t, ht, hskips⟩ := hs.skipBits hrange (State.skip_fits_of_small (by decide))
    exact .of_ok ht hskips.advances
  · exact .of_error (State.skipBits_overrun hover) (by decide)

theorem safe_skipGroups {s : State} (hs : s.Sound) (passes : Nat) : Safe (fun r => Advances s r.2) (s.skipGroups passes) := by
  induction passes generalizing s with
  | zero => exact .of_ok rfl (Advances.refl hs)
  | succ passes ih =>
    refine (safe_takeBit hs).bind fun r hr => ?_
    split
    case isTrue => exact .of_ok rfl hr
    case isFalse =>
      refine (safe_skipByte hr.sound).bind fun t ht => ?_
      split
      · exact .of_ok rfl (hr.trans ht)
      · exact (ih ht.sound).mono fun q hq => (hr.trans ht).trans hq

/-- No bit is ever out of range. -/
theorem State.Sound.checkRange_zero {s : State} (hs : s.Sound) : s.checkRange 0 = .ok () :=
  State.checkRange_ok.mpr (hs.cacheOk.in_range.imp_right fun h => by omega)

/-- The commands that read or peek. -/
theorem safe_body_reads {i : Instr} {n : Nat} {s : State} (hs : s.Sound) (hi : readsOrPeeks i = some n)
    (hbits : bitsFromHere i = some n) (hwf : i.wellFormed = true) : Safe (fun d => Advances s d.state) (body i s) := by
  rcases s.checkRange_cases n with hrange | ⟨hover, _⟩
  · obtain ⟨r, hr, hreads⟩ := body_reads hs hi hwf hrange
    exact .of_ok hr hreads.advances
  · have hn : 1 ≤ n := by
      by_contra h0
      rw [show n = 0 by omega, hs.checkRange_zero] at hover
      cases hover
    exact .of_error (body_overrun hbits hwf hn hover) (by decide)

theorem safe_body_skip {s : State} (hs : s.Sound) {n : Word64} (hn : n.toNat < 2 ^ 32) :
    Safe (fun d => Keeps s d.state ∧ (s.ptrOff.toNat < 2 ^ 63 → Advances s d.state)) (body (.skip n) s) := by
  rcases s.checkRange_cases n.toNat with hrange | ⟨hover, _⟩
  · refine .of_ok (body_skip hs hn hrange) ⟨Keeps.skipped hs hrange, fun hptr => (Skips.skipped hs hrange fun _ _ => ?_).advances⟩
    have := skipHop_le (n.toNat - s.valid.toNat)
    omega
  · refine .of_error ?_ (show Cause.uncheckedOverrun ≠ _ by decide)
    rw [body, countOf_eq hn, State.skipBits_overrun hover]
    rfl

theorem safe_body_seek {s : State} (hs : s.Sound) {pos : Word64} (hn : pos.toNat < 2 ^ 32) :
    Safe (fun d => Keeps s d.state) (body (.seek pos) s) := by
  have hrewound := Keeps.rewound hs
  have hbody : body (.seek pos) s = body (.skip pos) s.rewound := rfl
  rw [hbody]
  exact (safe_body_skip hrewound.sound hn).mono fun d hd => hrewound.trans hd.1

theorem safe_body_align {s : State} (hs : s.Sound) : Safe (fun d => Advances s d.state) (body .align s) := by
  have hskip : Safe (fun t => Advances s t) s.skipToBoundary := by
    rcases s.checkRange_cases s.alignGap with hrange | ⟨hover, _⟩
    · obtain ⟨t, ht, hadv, _⟩ := hs.skipToBoundary hrange
      exact .of_ok ht hadv
    · unfold State.skipToBoundary
      split
      · exact .of_error (State.skipBits_overrun hover) (by decide)
      · exact .of_ok rfl (Advances.refl hs)
  exact hskip.bind fun t ht => .of_ok rfl ht

/-- Every reader command but INIT and SEEK goes on from the reader it found, forward where its pointer stays in its register. -/
theorem safe_body_advances {i : Instr} {s : State} (hs : s.Sound) (hi : isReader i = true) (hwf : i.wellFormed = true)
    (hinit : ∀ b n, i ≠ .init b n) (hseek : ∀ n, i ≠ .seek n) (hptr : s.ptrOff.toNat < 2 ^ 63 ∨ ∀ n, i ≠ .skip n) :
    Safe (fun d => Advances s d.state) (body i s) := by
  cases i with
  | init b n => exact absurd rfl (hinit b n)
  | seek n => exact absurd rfl (hseek n)
  | readBit | read | readNz | read63 | read64 | readSigned | peek | peekSigned => exact safe_body_reads hs rfl rfl hwf
  | skip n =>
    exact (safe_body_skip hs (of_decide_eq_true hwf)).mono fun d hd => hd.2 (hptr.resolve_right fun h => h n rfl)
  | align => exact safe_body_align hs
  | tell | size | left => exact .of_ok rfl (Advances.refl hs)
  | readVlc => exact (safe_body_readVlc hs hwf).mono fun d hd => hd.1
  | skip1stop8data =>
    dsimp only [body]
    split
    · exact .of_ok rfl (Advances.refl hs)
    · exact (safe_skipGroups hs _).bind fun r hr => .of_ok rfl hr
  | dequant | idctPut | idctAdd | idctDcAdd => cases hi

/-- Every reader command but INIT keeps a sound reader over the same stream. -/
theorem safe_body_keeps {i : Instr} {s : State} (hs : s.Sound) (hi : isReader i = true) (hwf : i.wellFormed = true)
    (hinit : ∀ b n, i ≠ .init b n) : Safe (fun d => Keeps s d.state) (body i s) := by
  by_cases hseek : ∃ n, i = .seek n
  · obtain ⟨n, rfl⟩ := hseek
    exact safe_body_seek hs (of_decide_eq_true hwf)
  by_cases hskip : ∃ n, i = .skip n
  · obtain ⟨n, rfl⟩ := hskip
    exact (safe_body_skip hs (of_decide_eq_true hwf)).mono fun d hd => hd.1
  · exact (safe_body_advances hs hi hwf hinit (fun n h => hseek ⟨n, h⟩) (.inr fun n h => hskip ⟨n, h⟩)).mono fun d hd => hd.toKeeps

/-- Settles O21: every reader command but INIT and SEEK goes forward, and the idct_2d commands leave the reader. -/
theorem pointerGrowsForward : Obligations.PointerGrowsForward := by
  unfold Obligations.PointerGrowsForward
  intro i s t hinv hptr hinit hseek h
  cases ends_of_exec h with
  | refused | illegal | faulted => exact Nat.le_refl _
  | completed _ hwf d hd =>
    show s.ptrOff.toNat ≤ d.state.ptrOff.toNat
    cases hi : isReader i with
    | true => exact ((safe_body_advances (State.sound_of_inv hinv) hi hwf hinit hseek (.inl hptr)).ok d hd).ptr_le
    | false =>
      rw [(leaves_of_body hd).output hi]

/-! ### The invariant by its parts -/

/-- The part of the invariant that is about the reader registers and their parameters. -/
structure State.ReaderInv (s : State) : Prop where
  params_ok : s.params.ok = true
  sound : s.Sound
  size_le : s.size.toNat ≤ Config.sizeMax
  buf_lt : s.buf.toNat < 2 ^ s.params.addrW

theorem State.inv_iff (s : State) : s.inv = true ↔ s.ReaderInv ∧ s.hostRegsOk = true ∧ s.memoryOk = true := by
  constructor
  · intro h
    have hsound := State.sound_of_inv h
    simp only [State.inv, State.readerOk, Bool.and_eq_true, decide_eq_true_eq] at h
    obtain ⟨⟨⟨⟨hok, ⟨⟨⟨_, hsize⟩, _⟩, hbuf⟩⟩, _⟩, hhost⟩, hmem⟩ := h
    exact ⟨⟨hok, hsound, hsize, hbuf⟩, hhost, hmem⟩
  · rintro ⟨⟨hok, hsound, hsize, hbuf⟩, hhost, hmem⟩
    obtain ⟨hvalid, hptr, haligned, hrange⟩ := hsound.cacheOk
    simp only [State.inv, State.readerOk, State.uncheckedOk, Bool.and_eq_true, Bool.or_eq_true, decide_eq_true_eq]
    exact ⟨⟨⟨⟨hok, ⟨⟨⟨⟨hvalid, hptr⟩, haligned⟩, hsize⟩, hsound.byteLen_eq⟩, hbuf⟩, hrange⟩, hhost⟩, hmem⟩

/-- The all-zero reader meets its part of the invariant. -/
theorem State.readerInv_of_zero {s : State} (hok : s.params.ok = true) (hbuf : s.buf = 0) (hlen : s.byteLen = 0)
    (hptr : s.ptrOff = 0) (hcache : s.cache = 0) (hvalid : s.valid = 0) (hsize : s.size = 0) : s.ReaderInv := by
  have htell := s.tell_add_valid
  have hv : s.valid.toNat = 0 := by rw [hvalid]; rfl
  have hp : s.ptrOff.toNat = 0 := by rw [hptr]; rfl
  refine ⟨hok, ⟨⟨by omega, by omega, State.cacheAligned_of_empty hcache, .inr (by omega)⟩, pad_ge_of_ok hok, ?_⟩, ?_, ?_⟩
  · rw [hlen, hsize]
    decide
  · rw [hsize]
    decide
  · rw [hbuf]
    exact Nat.two_pow_pos _

/-- The host registers STATUS and FAULT hold legal values. -/
theorem State.hostRegsOk_iff (s : State) :
    s.hostRegsOk = true ↔
      (s.status = statusOk ∨ s.status = statusInvalidData ∨ s.status = statusFaulted) ∧
        (s.fault.toNat < 2 ^ 14 ∧ s.faultCause.toNat ≤ 6 ∧ s.faultCause ≠ 2 ∧ (s.faulted = true ∨ s.fault = 0)) := by
  simp only [State.hostRegsOk, Bool.and_eq_true, Bool.or_eq_true, decide_eq_true_eq, and_assoc, or_assoc]

theorem State.hostRegsOk_refuseFaulted {s : State} (h : s.hostRegsOk = true) : s.refuseFaulted.hostRegsOk = true :=
  (State.hostRegsOk_iff _).mpr ⟨.inr (.inr rfl), (s.hostRegsOk_iff.mp h).2⟩

theorem State.hostRegsOk_takeFault (s : State) (op : BitVec 6) {c : Cause} (hc : c ≠ .bufferOverread) :
    (s.takeFault op c).hostRegsOk = true := by
  have hop := op.isLt
  refine (State.hostRegsOk_iff _).mpr ⟨.inr (.inr rfl), ?_, ?_, ?_, .inl (State.takeFault_faulted s op c)⟩
  · rw [State.takeFault_fault, faultWord_toNat]
    cases c <;> simp [Cause.code] <;> omega
  · rw [State.takeFault_faultCause]
    cases c <;> decide
  · rw [State.takeFault_faultCause]
    cases c with
    | bufferOverread => exact absurd rfl hc
    | illegalCommand | uncheckedOverrun | vlcTable | coefRange | paramRange => decide

theorem State.hostRegsOk_complete {s t : State} (h : s.hostRegsOk = true) (hf : t.fault = s.fault) (v : Word64) (b : Bool) :
    (t.complete v b).hostRegsOk = true := by
  refine (State.hostRegsOk_iff _).mpr ⟨?_, ?_⟩
  · cases b with
    | false => exact .inl rfl
    | true => exact .inr (.inl rfl)
  · have hfault : (t.complete v b).fault = s.fault := hf
    simp only [State.faultCause, State.faulted, hfault]
    exact (s.hostRegsOk_iff.mp h).2

/-! ### Commands -/

/-- A body that completes leaves a reader that meets the invariant and holds the stream in order if it did. -/
theorem readerInv_of_body {i : Instr} {s : State} {d : Done} (hs : s.ReaderInv) (hi : isReader i = true)
    (hwf : i.wellFormed = true) (h : body i s = .ok d) :
    d.state.ReaderInv ∧ (s.streamOrdered = true → d.state.streamOrdered = true) := by
  by_cases hinit : ∃ b n, i = .init b n
  case neg =>
    have hkeeps := (safe_body_keeps hs.sound hi hwf fun b n h => hinit ⟨b, n, h⟩).ok d h
    have hparams := cursorFrame_params hkeeps.frame
    refine ⟨⟨hparams ▸ hs.params_ok, hkeeps.sound, ?_, ?_⟩, hkeeps.ordered⟩
    · rw [cursorFrame_size hkeeps.frame]
      exact hs.size_le
    · rw [cursorFrame_buf hkeeps.frame, hparams]
      exact hs.buf_lt
  case pos =>
    obtain ⟨buf, nbits, rfl⟩ := hinit
    have hcount := countOf_eq (of_decide_eq_true hwf : nbits.toNat < 2 ^ 32)
    by_cases hbad : countOf nbits > Config.sizeMax ∨ s.wrapAddr buf.toNat = 0
    · rw [body, if_pos hbad] at h
      cases h
      exact ⟨State.readerInv_of_zero hs.params_ok rfl rfl rfl rfl rfl rfl, fun _ => State.streamOrdered_of_empty rfl⟩
    · rw [hcount] at hbad
      have hsize : nbits.toNat ≤ Config.sizeMax := by omega
      have hmax : nbits.toNat ≤ 2147483640 := hsize
      have hpow : (2 : Nat) ^ s.params.addrW ≤ 2 ^ 64 := Nat.pow_le_pow_right (by decide) (addrW_le_of_ok hs.params_ok)
      have haddr := State.wrapAddr_lt s buf.toNat
      rw [body_init hs.sound.pad_ge hsize (by omega)] at h
      cases h
      obtain ⟨hadv, _⟩ := Advances.filled64
        (State.sound_openReader (s := s) (buf := BitVec.ofNat 64 (s.wrapAddr buf.toNat)) hs.sound.pad_ge hsize) rfl
      have hparams := cursorFrame_params hadv.frame
      refine ⟨⟨hparams ▸ hs.params_ok, hadv.sound, ?_, ?_⟩, fun _ => hadv.ordered (State.streamOrdered_of_empty rfl)⟩
      · rw [cursorFrame_size hadv.frame, State.openReader_size, BitVec.toNat_ofNat]
        exact Nat.le_trans (Nat.mod_le _ _) hsize
      · rw [cursorFrame_buf hadv.frame, State.openReader_buf, BitVec.toNat_ofNat, hparams]
        exact Nat.lt_of_le_of_lt (Nat.mod_le _ _) haddr

/-- No body on a reader that meets the invariant raises BUFFER_OVERREAD (20_memory.md R33). -/
theorem body_error_ne {i : Instr} {s : State} {c : Cause} (hs : s.ReaderInv) (hwf : i.wellFormed = true)
    (h : body i s = .error c) : c ≠ .bufferOverread := by
  by_cases hinit : ∃ b n, i = .init b n
  · obtain ⟨buf, nbits, rfl⟩ := hinit
    have hcount := countOf_eq (of_decide_eq_true hwf : nbits.toNat < 2 ^ 32)
    by_cases hbad : countOf nbits > Config.sizeMax ∨ s.wrapAddr buf.toNat = 0
    · rw [body, if_pos hbad] at h
      cases h
    · rw [hcount] at hbad
      rw [body_init hs.sound.pad_ge (by omega) (by omega)] at h
      cases h
  · cases hi : isReader i with
    | true => exact (safe_body_keeps hs.sound hi hwf fun b n h => hinit ⟨b, n, h⟩).error_ne c h
    | false =>
      obtain ⟨hlisted, _⟩ := body_error_listed h
      rintro rfl
      cases i with
      | dequant | idctPut | idctAdd | idctDcAdd => simp [causesOf] at hlisted
      | init | readBit | read | readNz | read63 | read64 | readSigned | peek | peekSigned | skip | seek | align | tell | size
      | left | readVlc | skip1stop8data => cases hi

/-- The idct_2d commands keep the memory canonical. -/
theorem memoryOk_of_body {i : Instr} {s : State} {d : Done} (hs : s.memoryOk = true) (hi : isReader i = false)
    (h : body i s = .ok d) : d.state.memoryOk = true := by
  cases i with
  | dequant n intra nonlin losslessDc qscale dcScale blk mat =>
    dsimp only [body] at h
    split at h
    · cases h
      exact hs
    · obtain ⟨out, _, h⟩ := except_bind_ok.mp h
      split at h
      · obtain rfl := Except.ok.inj h
        exact State.memoryOk_writeAssigned blk out 64 hs
      · cases h
  | idctPut stride blk dst =>
    obtain rfl := Except.ok.inj h
    exact State.memoryOk_forgetBytes _ _ (State.memoryOk_putSamples _ _ _ _ hs)
  | idctAdd n stride blk dst =>
    dsimp only [body] at h
    split at h
    · cases h
      exact hs
    · obtain rfl := Except.ok.inj h
      exact State.memoryOk_forgetBytes _ _ (State.memoryOk_addSamples _ _ _ _ hs)
  | idctDcAdd stride blk dst =>
    obtain rfl := Except.ok.inj h
    exact State.memoryOk_forgetBytes _ _ (State.memoryOk_addSamples _ _ _ _ hs)
  | init | readBit | read | readNz | read63 | read64 | readSigned | peek | peekSigned | skip | seek | align | tell | size
  | left | readVlc | skip1stop8data => cases hi

/-- The parts of the invariant that a state shares with one that differs from it outside the reader. -/
theorem State.ReaderInv.of_outputFrame {s t : State} (h : s.ReaderInv) (hf : outputFrame s t) : t.ReaderInv := by
  rw [hf]
  exact ⟨h.params_ok, ⟨⟨h.sound.cacheOk.valid_le, h.sound.cacheOk.valid_le_ptr, h.sound.cacheOk.aligned,
    h.sound.cacheOk.in_range⟩, h.sound.pad_ge, h.sound.byteLen_eq⟩, h.size_le, h.buf_lt⟩

/-- The invariant says nothing of RES, and of STATUS and FAULT only that they are legal. -/
theorem State.inv_of_hostRegs {s t : State} (hframe : t = { s with res := t.res, status := t.status, fault := t.fault })
    (hreader : s.ReaderInv) (hmem : s.memoryOk = true) (hhost : t.hostRegsOk = true) : t.inv = true := by
  refine t.inv_iff.mpr ⟨?_, hhost, ?_⟩
  · rw [hframe]
    exact ⟨hreader.params_ok, ⟨⟨hreader.sound.cacheOk.valid_le, hreader.sound.cacheOk.valid_le_ptr,
      hreader.sound.cacheOk.aligned, hreader.sound.cacheOk.in_range⟩, hreader.sound.pad_ge, hreader.sound.byteLen_eq⟩,
      hreader.size_le, hreader.buf_lt⟩
  · rw [hframe]
    exact hmem

theorem exec_keeps_inv {i : Instr} {s t : State} (hs : s.inv = true) (h : exec i s = .next t) : t.inv = true := by
  obtain ⟨hreader, hhost, hmem⟩ := s.inv_iff.mp hs
  cases ends_of_exec h with
  | refused => exact State.inv_of_hostRegs rfl hreader hmem (State.hostRegsOk_refuseFaulted hhost)
  | illegal => exact State.inv_of_hostRegs rfl hreader hmem (State.hostRegsOk_takeFault s _ (by decide))
  | faulted _ hwf c hc =>
    exact State.inv_of_hostRegs rfl hreader hmem (State.hostRegsOk_takeFault s _ (body_error_ne hreader hwf hc))
  | completed _ hwf d hd =>
    have hleaves := leaves_of_body hd
    have hhost' := State.hostRegsOk_complete hhost hleaves.fault d.value d.invalid
    cases hi : isReader i with
    | true =>
      refine State.inv_of_hostRegs (s := d.state) rfl (readerInv_of_body hreader hi hwf hd).1 ?_ hhost'
      rw [hleaves.window hi]
      exact hmem
    | false =>
      exact State.inv_of_hostRegs (s := d.state) rfl (hreader.of_outputFrame (hleaves.output hi)) (memoryOk_of_body hmem hi hd)
        hhost'

/-- Settles O20: only a completed command moves the reader, and its body keeps the order. -/
theorem readerKeepsStreamOrder : Obligations.ReaderKeepsStreamOrder := by
  unfold Obligations.ReaderKeepsStreamOrder
  intro i s t hinv ho hi h
  cases ends_of_exec h with
  | refused | illegal | faulted => exact ho
  | completed _ hwf d hd => exact (readerInv_of_body (s.inv_iff.mp hinv).1 hi hwf hd).2 ho

/-! ### Steps -/

/-- Only what the invariant says nothing of differs: CMD, ARG_A, ARG_B and the host's side. -/
def hostFrame (s t : State) : Prop :=
  t = { s with
    cmd := t.cmd, argA := t.argA, argB := t.argB, inbox := t.inbox, progIndex := t.progIndex, hostData := t.hostData }

theorem inv_of_hostFrame {s t : State} (h : hostFrame s t) : t.inv = s.inv := by
  rw [h]
  rfl

theorem hostFrame_portWrite (s : State) (addr v : Word64) (width : PortWidth) :
    hostFrame s (s.popInput.portWrite addr width v) := by
  have hframe := s.popInput.portWriteBytes_frame addr v width.bytes
  unfold State.portWrite
  dsimp only
  generalize s.popInput.portWriteBytes addr v width.bytes = t at hframe
  split
  · rw [hframe]
    rfl
  · rw [hframe]
    rfl

theorem hostFrame_answerRegRead (s : State) (addr : Word64) (width : PortWidth) :
    hostFrame s (s.popInput.answerRegRead addr width) := by
  unfold State.answerRegRead
  split <;> rfl

theorem issue_keeps_inv {s t : State} (hs : s.inv = true) (h : issue s = .next t) : t.inv = true := by
  unfold issue at h
  split at h
  · exact exec_keeps_inv hs h
  · obtain ⟨hreader, hhost, hmem⟩ := s.inv_iff.mp hs
    cases h
    unfold State.rejectPacket
    split
    · exact State.inv_of_hostRegs rfl hreader hmem (State.hostRegsOk_refuseFaulted hhost)
    · exact State.inv_of_hostRegs rfl hreader hmem (State.hostRegsOk_takeFault s _ (by decide))

theorem inv_writeByte {s : State} (hs : s.inv = true) (a : Nat) (b : Byte) : (s.writeByte a b).inv = true := by
  obtain ⟨hreader, hhost, hmem⟩ := s.inv_iff.mp hs
  exact (State.inv_iff _).mpr ⟨hreader.of_outputFrame rfl, hhost, State.memoryOk_writeByte a b hmem⟩

theorem inv_assertReset {s : State} (hs : s.inv = true) : s.assertReset.inv = true := by
  obtain ⟨hreader, _, hmem⟩ := s.inv_iff.mp hs
  exact (State.inv_iff _).mpr ⟨State.readerInv_of_zero hreader.params_ok rfl rfl rfl rfl rfl rfl, rfl, hmem⟩

/-- Settles O19: the commands keep the invariant by their bodies, and no other input touches what it is about but a memory
write and reset. -/
theorem stepKeepsInvariant : Obligations.StepKeepsInvariant := by
  unfold Obligations.StepKeepsInvariant
  intro s t hs h
  have hpop : s.popInput.inv = true := hs
  unfold step at h
  split at h
  · cases h
    exact hs
  · rename_i p rest _
    have hlatch : (s.popInput.latchPacket p).inv = s.inv := inv_of_hostFrame rfl
    exact issue_keeps_inv (hlatch.trans hs) h
  · rename_i addr width v rest _
    have hwrite := (inv_of_hostFrame (hostFrame_portWrite s addr v width)).trans hs
    split at h
    · exact issue_keeps_inv hwrite h
    · cases h
      exact hwrite
  · cases h
    exact (inv_of_hostFrame (hostFrame_answerRegRead s _ _)).trans hs
  · split at h
    · cases h
      exact inv_writeByte hpop _ _
    · cases h
  · split at h
    · cases h
      exact hpop
    · cases h
  · cases h
    exact inv_assertReset hpop

end Sys2Proof.Machine
end

section
/-! PROOFS. SKIP_1STOP_8DATA: the run of groups on the reader, by how the run of groups on the stream ends
(41_reader_extract.md R100). -/

namespace Sys2Proof.Machine

/-- How the loop of SKIP_1STOP_8DATA ends on a reader, by how the run of groups at its position ends (41_reader_extract.md
R100). -/
def EndsRun (s : State) (x : Except Cause (Bool × State)) : StopRun → Prop
  | .zeroBit pos => ∃ t, x = .ok (true, t) ∧ Advances s t ∧ t.tell = (pos : Int)
  | .reachesSize pos => ∃ t, x = .ok (false, t) ∧ Advances s t ∧ t.left ≤ 0 ∧ t.tell ≤ (pos : Int) ∧
      (pos ≤ 8 * s.byteLen.toNat → t.tell = (pos : Int))
  | .crossesSize => x = .error .uncheckedOverrun

theorem EndsRun.of_advances {s t : State} (h : Advances s t) {x : Except Cause (Bool × State)} {run : StopRun}
    (hrun : EndsRun t x run) : EndsRun s x run := by
  cases run with
  | zeroBit pos =>
    obtain ⟨u, hu, hadv, htell⟩ := hrun
    exact ⟨u, hu, h.trans hadv, htell⟩
  | reachesSize pos =>
    obtain ⟨u, hu, hadv, hrest⟩ := hrun
    rw [cursorFrame_byteLen h.frame] at hrest
    exact ⟨u, hu, h.trans hadv, hrest⟩
  | crossesSize => exact hrun

theorem cursorFrame_overruns {s t : State} (h : cursorFrame s t) (pos : Nat) : t.overruns pos = s.overruns pos := by
  rw [State.overruns, State.overruns, cursorFrame_params h, cursorFrame_size h]

theorem cursorFrame_stopRun {s t : State} (h : cursorFrame s t) (passes pos : Nat) : t.stopRun passes pos = s.stopRun passes pos := by
  induction passes generalizing pos with
  | zero => rfl
  | succ passes ih =>
    rw [State.stopRun, State.stopRun, cursorFrame_size h, cursorFrame_streamBit h, cursorFrame_overruns h, ih]

theorem State.stopRun_of_le {s : State} {pos : Nat} (h : s.size.toNat ≤ pos) (passes : Nat) :
    s.stopRun passes pos = .reachesSize pos := by
  cases passes with
  | zero => rfl
  | succ passes => rw [State.stopRun, if_pos h]

/-- One bit of the stream, as a value (20_memory.md R52). -/
theorem State.streamField_one (s : State) (k : Nat) : s.streamField k 1 = (s.streamBit k).toNat := by
  unfold State.streamField
  cases s.params.endian with
  | le => simp [State.fieldLe]
  | be => simp [State.fieldBe]

/-- Below SIZE a sound reader has a bit. -/
theorem State.Sound.supplies_one {s : State} (hs : s.Sound) (hlt : s.tell < (s.size.toNat : Int)) : s.supplies 1 = true := by
  have hlen := hs.byteLen_eq
  have hbits := s.tell_add_valid
  rw [State.supplies_iff]
  cases s.params.checked with
  | true => exact .inl ⟨rfl, by omega⟩
  | false => exact .inr ⟨rfl, by omega⟩

/-- The stop bit of a group (41_reader_extract.md R100). -/
theorem State.Sound.takeStopBit {s : State} (hs : s.Sound) (ho : s.streamOrdered = true) (hlt : s.tell < (s.size.toNat : Int)) :
    ∃ r, s.takeBit = .ok r ∧ Advances s r.2 ∧ (r.1 = 0 ↔ s.streamBit s.tell.toNat = false) ∧ r.2.tell = s.tell + 1 := by
  have hsup := hs.supplies_one hlt
  obtain ⟨r, hr, htakes⟩ := hs.takeBit (State.checkRange_of_supplies (.inr hsup))
  have hvalue := htakes.value ho
  have htell := htakes.tell
  rw [State.nextValue, if_pos hsup, State.streamField_one] at hvalue
  rw [if_pos hsup] at htell
  refine ⟨r, hr, htakes.advances, ?_, htell⟩
  rw [← BitVec.toNat_inj, hvalue]
  cases s.streamBit s.tell.toNat <;> decide

/-- A skip that ends below SIZE reached its target. -/
theorem Skips.tell_of_lt {s t : State} {n : Nat} (hs : s.Sound) (h : Skips s n t) (hlt : t.tell < (s.size.toNat : Int)) :
    t.tell = s.tell + (n : Int) := by
  have hlen := hs.byteLen_eq
  by_cases hreach : n < s.valid.toNat ∨ s.params.checked = false ∨
      s.ptrOff.toNat + skipHop (n - s.valid.toNat) < s.byteLen.toNat
  · exact h.reaches hreach
  · rw [not_or, not_or, Bool.not_eq_false] at hreach
    obtain ⟨hv, hc, hend⟩ := hreach
    have := h.tell_short (by omega) hc (by omega)
    omega

/-- The loop of SKIP_1STOP_8DATA follows the run of groups on the stream, while the passes last. -/
theorem State.Sound.endsRun {s : State} (hs : s.Sound) (ho : s.streamOrdered = true) (passes : Nat)
    (hlt : s.tell < (s.size.toNat : Int)) (hpasses : (s.size.toNat : Int) < s.tell + (passes : Int)) :
    EndsRun s (s.skipGroups passes) (s.stopRun passes s.tell.toNat) := by
  induction passes generalizing s with
  | zero => omega
  | succ passes ih =>
    have hnonneg := hs.cacheOk.tell_nonneg
    obtain ⟨r, hr, hbit, hzero, htell⟩ := hs.takeStopBit ho hlt
    have hsize := cursorFrame_size hbit.frame
    rw [State.stopRun, if_neg (by omega), State.skipGroups, hr]
    show EndsRun s (if r.1 = 0 then _ else _) _
    by_cases hstop : r.1 = 0
    · rw [if_pos hstop, if_pos (hzero.mp hstop)]
      exact ⟨r.2, rfl, hbit, by omega⟩
    rw [if_neg hstop, if_neg (mt hzero.mpr hstop)]
    rcases r.2.checkRange_cases 8 with hrange | ⟨hover, hc, hcross⟩
    case inr =>
      rw [cursorFrame_params hbit.frame] at hc
      rw [hsize] at hcross
      have hcrosses : s.overruns (s.tell.toNat + 9) = true := by
        rw [State.overruns, hc, Bool.not_false, Bool.true_and, decide_eq_true_eq]
        omega
      rw [if_pos hcrosses, State.skipBits_overrun hover]
      rfl
    have hinside : s.overruns (s.tell.toNat + 9) = false := by
      have hin := State.checkRange_ok.mp hrange
      rw [cursorFrame_params hbit.frame, hsize] at hin
      rw [State.overruns, Bool.and_eq_false_iff, Bool.not_eq_false', decide_eq_false_iff_not]
      exact hin.imp_right fun h => by omega
    obtain ⟨t, ht, hskips⟩ := hbit.sound.skipBits hrange (State.skip_fits_of_small (by decide))
    have hgroup := hbit.trans hskips.advances
    have hsize' := cursorFrame_size hgroup.frame
    have hlen := cursorFrame_byteLen hbit.frame
    obtain ⟨hle, _⟩ := hskips.tell_le
    rw [if_neg (by simp [hinside]), ht]
    show EndsRun s (if t.left ≤ 0 then _ else _) _
    unfold State.left
    rw [hsize']
    by_cases hleft : (s.size.toNat : Int) - t.tell ≤ 0
    · rw [if_pos hleft, State.stopRun_of_le (by omega)]
      refine ⟨t, rfl, hgroup, by rw [State.left, hsize']; exact hleft, by omega, fun hin => ?_⟩
      have := hskips.tell_of_le fun _ => by rw [hlen]; omega
      omega
    · have hreach := hskips.tell_of_lt hbit.sound (by rw [hsize]; omega)
      have hpos : s.tell.toNat + 9 = t.tell.toNat := by omega
      rw [if_neg hleft, hpos, ← cursorFrame_stopRun hgroup.frame]
      exact (ih hgroup.sound (hgroup.ordered ho) (by rw [hsize']; omega) (by rw [hsize']; omega)).of_advances hgroup

/-- Settles O44: the loop follows the run of groups, and SIZE + 1 passes are enough for it. -/
theorem stopRunEndsAtZeroBit : Obligations.StopRunEndsAtZeroBit := by
  unfold Obligations.StopRunEndsAtZeroBit
  intro s run hready hrun
  have hs := State.sound_of_inv (State.inv_of_ready hready)
  have hf := State.unfaulted_of_ready hready
  have hnonneg := hs.cacheOk.tell_nonneg
  by_cases hleft : s.left ≤ 0
  · have hbody : body .skip1stop8data s = .ok ⟨s, 0, true⟩ := by rw [body, if_pos hleft]
    have hat : s.size.toNat ≤ s.tell.toNat := by
      unfold State.left at hleft
      omega
    rw [State.stopRun_of_le hat] at hrun
    subst hrun
    exact ⟨_, exec_of_ok hf rfl hbody, hleft, Int.self_le_toNat _, fun _ => (Int.toNat_of_nonneg hnonneg).symm, rfl, rfl,
      (Advances.refl hs).readerFrame 0 true⟩
  · have hends := hs.endsRun (State.ordered_of_ready hready) (s.size.toNat + 1) (by unfold State.left at hleft; omega) (by omega)
    rw [hrun] at hends
    have hbody : body .skip1stop8data s = s.skipGroups (s.size.toNat + 1) >>= fun r => .ok ⟨r.2, 0, !r.1⟩ := by
      rw [body, if_neg hleft]
      rfl
    cases run with
    | zeroBit pos =>
      obtain ⟨t, ht, hadv, htell⟩ := hends
      rw [ht] at hbody
      exact ⟨_, exec_of_ok hf rfl hbody, htell, rfl, rfl, hadv.readerFrame 0 false⟩
    | reachesSize pos =>
      obtain ⟨t, ht, hadv, hend, hle, hin⟩ := hends
      rw [ht] at hbody
      exact ⟨_, exec_of_ok hf rfl hbody, hend, hle, hin, rfl, rfl, hadv.readerFrame 0 true⟩
    | crossesSize =>
      have hcross : s.skipGroups (s.size.toNat + 1) = .error .uncheckedOverrun := hends
      rw [hcross] at hbody
      exact exec_overrun (i := .skip1stop8data) hf rfl hbody

end Sys2Proof.Machine
end

section
/-! PROOFS. READ_VLC follows the walk over the stream: the cache shows at every level what the walk says of stream positions
(42_vlc.md R111 to R116; 20_memory.md R49). -/

namespace Sys2Proof.Machine

/-! ### States over the same stream -/

/-- Two blocks that see the same stream in the same memory: what a walk over stream positions is about. -/
structure SameView (s t : State) : Prop where
  params : t.params = s.params
  buf : t.buf = s.buf
  byteLen : t.byteLen = s.byteLen
  size : t.size = s.size
  readByte : ∀ a, t.readByte a = s.readByte a

theorem SameView.of_cursorFrame {s t : State} (h : cursorFrame s t) : SameView s t :=
  ⟨cursorFrame_params h, cursorFrame_buf h, cursorFrame_byteLen h, cursorFrame_size h, cursorFrame_readByte h⟩

theorem SameView.of_readerFrame {s t : State} (h : readerFrame s t) : SameView s t := by
  obtain ⟨hframe, hread⟩ := h
  refine ⟨?_, ?_, ?_, ?_, hread⟩ <;> rw [hframe]

theorem SameView.refl (s : State) : SameView s s := ⟨rfl, rfl, rfl, rfl, fun _ => rfl⟩

theorem SameView.symm {s t : State} (h : SameView s t) : SameView t s :=
  ⟨h.params.symm, h.buf.symm, h.byteLen.symm, h.size.symm, fun a => (h.readByte a).symm⟩

theorem SameView.trans {s t u : State} (h : SameView s t) (k : SameView t u) : SameView s u :=
  ⟨k.params.trans h.params, k.buf.trans h.buf, k.byteLen.trans h.byteLen, k.size.trans h.size,
    fun a => (k.readByte a).trans (h.readByte a)⟩

theorem SameView.streamBit {s t : State} (h : SameView s t) (k : Nat) : t.streamBit k = s.streamBit k := by
  unfold State.streamBit
  rw [h.params, h.buf, h.readByte]

theorem SameView.streamField {s t : State} (h : SameView s t) (k n : Nat) : t.streamField k n = s.streamField k n := by
  have ht := isField_streamField t k n
  rw [h.params] at ht
  exact isField_unique ht (isField_streamField s k n) fun i _ => h.streamBit (k + i)

theorem SameView.zeroExtended {s t : State} (h : SameView s t) (f z : Nat) : t.zeroExtended f z = s.zeroExtended f z := by
  rw [State.zeroExtended, State.zeroExtended, h.params]

theorem SameView.peekEnd {s t : State} (h : SameView s t) (ptr pos n : Nat) : t.peekEnd ptr pos n = s.peekEnd ptr pos n := by
  rw [State.peekEnd, State.peekEnd, h.params, h.byteLen]

theorem SameView.shownField {s t : State} (h : SameView s t) (ptr pos n : Nat) :
    t.shownField ptr pos n = s.shownField ptr pos n := by
  rw [State.shownField, State.shownField, h.streamField, h.zeroExtended]

theorem SameView.overruns {s t : State} (h : SameView s t) (pos : Nat) : t.overruns pos = s.overruns pos := by
  rw [State.overruns, State.overruns, h.params, h.size]

theorem SameView.vlcEntry {s t : State} (h : SameView s t) (table : Word64) (tlen : Nat) (i : Int) :
    t.vlcEntry table tlen i = s.vlcEntry table tlen i := by
  unfold State.vlcEntry
  simp only [h.readByte]

theorem SameView.vlcOutcome {s t : State} (h : SameView s t) (table : Word64) (tlen levels pos ptr width : Nat) (base : Int) :
    t.vlcOutcome table tlen levels pos ptr width base = s.vlcOutcome table tlen levels pos ptr width base := by
  induction levels generalizing pos ptr width base with
  | zero => rfl
  | succ levels ih =>
    unfold State.vlcOutcome
    simp only [h.peekEnd, h.shownField, h.vlcEntry, h.overruns, ih]

theorem SameView.prefixIndex {s t : State} (h : SameView s t) (width len field rest : Nat) :
    t.prefixIndex width len field rest = s.prefixIndex width len field rest := by
  rw [State.prefixIndex, State.prefixIndex, h.params]

theorem SameView.holdsCode {s t : State} (h : SameView s t) (table : Word64) (tlen : Nat) (sym : Int) (stop levels pos width : Nat)
    (base : Int) :
    t.holdsCode table tlen sym stop levels pos width base ↔ s.holdsCode table tlen sym stop levels pos width base := by
  induction levels generalizing pos width base with
  | zero => exact Iff.rfl
  | succ levels ih =>
    unfold State.holdsCode
    simp only [h.prefixIndex, h.streamField, h.vlcEntry, ih]

theorem SameView.holdsCodes {s t : State} (h : SameView s t) (table : Word64) (tlen levels width pos : Nat)
    (codes : List (Int × Nat)) :
    t.holdsCodes table tlen levels width pos codes ↔ s.holdsCodes table tlen levels width pos codes := by
  induction codes generalizing pos with
  | nil => exact Iff.rfl
  | cons c codes ih =>
    obtain ⟨sym, stop⟩ := c
    unfold State.holdsCodes
    rw [h.holdsCode, ih]

/-! ### One level of the walk -/

/-- The refill of a peek moves the pointer as the walk says (20_memory.md R45). -/
theorem State.Sound.filledFor_ptrOff {s : State} (hs : s.Sound) {n : Nat} :
    (s.filledFor n).ptrOff.toNat = s.peekEnd s.ptrOff.toNat s.tell.toNat n := by
  have hbits := s.tell_add_valid
  have hnonneg := hs.cacheOk.tell_nonneg
  unfold State.filledFor State.peekEnd
  by_cases hshort : s.valid.toNat < n
  · rw [if_pos hshort]
    cases hend : s.atEnd with
    | true =>
      have hguard := s.atEnd_iff.mp hend
      rw [State.filled32_of_atEnd hend, if_neg]
      rintro ⟨_, hno | hlt⟩
      · simp [hguard.1] at hno
      · exact absurd hguard.2 (Nat.not_le.mpr hlt)
    | false =>
      have hptr := hs.cacheOk.ptrOff_lt hend
      rw [State.filled32_of_not_atEnd hend, State.refilled32_ptrOff s (by omega),
        if_pos ⟨by omega, s.atEnd_eq_false.mp hend⟩]
  · rw [if_neg hshort, if_neg]
    rintro ⟨hlt, _⟩
    omega

/-- The index of a level: the cache shows the stream, then zeros (20_memory.md R49). -/
theorem State.Sound.showBits_eq_shownField {s : State} (hs : s.Sound) (ho : s.streamOrdered = true) {n : Nat} (hn : n ≤ 64) :
    (s.showBits n).toNat = s.shownField s.ptrOff.toNat s.tell.toNat n := by
  have hbits := s.tell_add_valid
  have hnonneg := hs.cacheOk.tell_nonneg
  have hvalid : 8 * s.ptrOff.toNat - s.tell.toNat = s.valid.toNat := by omega
  rw [State.shownField, hvalid]
  have hfield := isField_zeroExtended s s.tell.toNat (min n s.valid.toNat) (n - s.valid.toNat)
  rw [show min n s.valid.toNat + (n - s.valid.toNat) = n by omega] at hfield
  refine isField_unique (isField_showBits s hn) hfield fun i hi => ?_
  rw [hs.nextBit_eq ho (by omega)]
  by_cases hv : i < s.valid.toNat
  · simp [hi, hv]
  · simp [hv]

/-- The index of a lookup, after its refill. -/
theorem State.Sound.lookup_index {s : State} (hs : s.Sound) (ho : s.streamOrdered = true) {n : Nat} (hn : n ≤ 32) :
    ((s.filledFor n).showBits n).toNat =
      s.shownField (s.peekEnd s.ptrOff.toNat s.tell.toNat n) s.tell.toNat n := by
  obtain ⟨hadv, htell⟩ := Advances.filledFor hs hn
  rw [hadv.sound.showBits_eq_shownField (hadv.ordered ho) (by omega), (SameView.of_cursorFrame hadv.frame).shownField,
    hs.filledFor_ptrOff, htell]

/-- A drop moves the position no further than the pointer. -/
theorem State.dropBits_tell_min {s : State} (hs : s.Sound) (n : Nat) :
    (s.dropBits n).tell.toNat = min (s.tell.toNat + n) (8 * s.ptrOff.toNat) := by
  have hbits := s.tell_add_valid
  have hnonneg := hs.cacheOk.tell_nonneg
  rw [State.dropBits_tell]
  omega

/-- CheckRange, said on the position (20_memory.md R50). -/
theorem State.Sound.checkRange_eq {s : State} (hs : s.Sound) (n : Nat) :
    s.checkRange n = if s.overruns (s.tell.toNat + n) then .error .uncheckedOverrun else .ok () := by
  have hnonneg := hs.cacheOk.tell_nonneg
  unfold State.overruns
  rcases s.checkRange_cases n with h | ⟨h, hc, hlt⟩
  · rw [h, if_neg]
    rw [Bool.and_eq_true, Bool.not_eq_true', decide_eq_true_eq]
    rintro ⟨hc, hlt⟩
    have := (State.checkRange_ok.mp h).resolve_left (by simp [hc])
    omega
  · rw [h, if_pos]
    rw [Bool.and_eq_true, Bool.not_eq_true', decide_eq_true_eq]
    exact ⟨hc, by omega⟩

/-! ### The walk -/

/-- The end of READ_VLC: the final entry is checked and its code consumed (42_vlc.md R111). -/
def vlcFinish (p : VlcPoint) : Except Cause Done :=
  if p.entry.len < 0 ∨ p.entry.len > (p.width : Int) then .error .vlcTable
  else do
    p.reader.checkRange p.entry.len.toNat
    return ⟨p.reader.dropBits p.entry.len.toNat, BitVec.ofInt 64 p.entry.sym, false⟩

/-- READ_VLC from the lookup of one level on, with `more` levels below it. -/
def vlcFrom (s : State) (table : Word64) (tlen more nb : Nat) (base : Int) : Except Cause Done := do
  let first ← s.vlcLookup table tlen nb base
  let p ← vlcWalk table tlen more first
  vlcFinish p

theorem body_readVlc (s : State) (n : BitVec 7) (d : BitVec 2) (table tlen : Word64) :
    body (.readVlc n d table tlen) s = vlcFrom s table tlen.toNat (d.toNat - 1) n.toNat 0 := rfl

/-- What READ_VLC does, by what the walk over the stream gives. -/
def EndsWalk (s : State) (x : Except Cause Done) : Except Cause (Int × Nat) → Prop
  | .error c => x = .error c
  | .ok (sym, pos) => ∃ t, x = .ok ⟨t, BitVec.ofInt 64 sym, false⟩ ∧ Advances s t ∧ t.tell = (pos : Int)

theorem EndsWalk.of_advances {s t : State} (h : Advances s t) {x : Except Cause Done} {o : Except Cause (Int × Nat)}
    (hx : EndsWalk t x o) : EndsWalk s x o := by
  cases o with
  | error c => exact hx
  | ok r =>
    obtain ⟨u, hu, hadv, htell⟩ := hx
    exact ⟨u, hu, h.trans hadv, htell⟩

theorem vlcWalk_stop {table : Word64} {tlen more : Nat} {p : VlcPoint} (h : ¬ (p.entry.len < 0 ∧ 0 < more)) :
    vlcWalk table tlen more p = .ok p := by
  cases more with
  | zero => rfl
  | succ more => rw [vlcWalk, if_neg fun hlen => h ⟨hlen, Nat.succ_pos more⟩]

/-- A final entry, at the position of its level. -/
theorem endsWalk_finish {p : VlcPoint} (hs : p.reader.Sound) :
    EndsWalk p.reader (vlcFinish p)
      (if p.entry.len < 0 ∨ (p.width : Int) < p.entry.len then .error .vlcTable
      else if p.reader.overruns (p.reader.tell.toNat + p.entry.len.toNat) then .error .uncheckedOverrun
      else .ok (p.entry.sym, min (p.reader.tell.toNat + p.entry.len.toNat) (8 * p.reader.ptrOff.toNat))) := by
  unfold vlcFinish
  split
  · rfl
  · rw [hs.checkRange_eq]
    split
    · rfl
    case isFalse hin =>
      have hrange : p.reader.checkRange p.entry.len.toNat = .ok () := by rw [hs.checkRange_eq, if_neg hin]
      have hdrop := Advances.dropBits hs (State.checkRange_ok.mp hrange)
      refine ⟨_, rfl, hdrop, ?_⟩
      rw [← State.dropBits_tell_min hs]
      exact (Int.toNat_of_nonneg hdrop.sound.cacheOk.tell_nonneg).symm

/-- READ_VLC on a reader in order follows the walk over the stream, level by level. -/
theorem State.Sound.endsWalk {s : State} (hs : s.Sound) (ho : s.streamOrdered = true) (table : Word64) (tlen more : Nat) {nb : Nat}
    (base : Int) (hnb : nb ≤ 32) :
    EndsWalk s (vlcFrom s table tlen more nb base)
      (s.vlcOutcome table tlen (more + 1) s.tell.toNat s.ptrOff.toNat nb base) := by
  induction more generalizing s nb base with
  | zero =>
    obtain ⟨hadv, htell⟩ := Advances.filledFor hs hnb
    have hview := SameView.of_cursorFrame hadv.frame
    rw [vlcFrom, hs.vlcLookup_eq hnb, State.vlcOutcome, hs.lookup_index ho hnb, Int.add_comm]
    cases he : s.vlcEntry table tlen _ with
    | error c => rfl
    | ok e =>
      have hfinish := (endsWalk_finish (p := ⟨nb, e, s.filledFor nb⟩) hadv.sound).of_advances hadv
      rw [hview.overruns, htell, hs.filledFor_ptrOff] at hfinish
      dsimp only
      rw [if_neg (by omega)]
      exact hfinish
  | succ more ih =>
    obtain ⟨hadv, htell⟩ := Advances.filledFor hs hnb
    have hview := SameView.of_cursorFrame hadv.frame
    rw [vlcFrom, hs.vlcLookup_eq hnb, State.vlcOutcome, hs.lookup_index ho hnb, Int.add_comm]
    cases he : s.vlcEntry table tlen _ with
    | error c => rfl
    | ok e =>
      dsimp only
      by_cases hsub : e.len < 0
      case neg =>
        have hfinish := (endsWalk_finish (p := ⟨nb, e, s.filledFor nb⟩) hadv.sound).of_advances hadv
        rw [hview.overruns, htell, hs.filledFor_ptrOff] at hfinish
        rw [if_neg fun h => hsub h.1]
        show EndsWalk s (vlcWalk table tlen (more + 1) ⟨nb, e, s.filledFor nb⟩ >>= vlcFinish) _
        rw [vlcWalk_stop fun h => hsub h.1]
        exact hfinish
      case pos =>
        rw [if_pos ⟨hsub, Nat.succ_pos more⟩]
        show EndsWalk s (vlcWalk table tlen (more + 1) ⟨nb, e, s.filledFor nb⟩ >>= vlcFinish) _
        rw [vlcWalk, if_pos hsub]
        dsimp only
        have hcheck := hadv.sound.checkRange_eq nb
        rw [hview.overruns, htell] at hcheck
        by_cases hover : s.overruns (s.tell.toNat + nb)
        · rw [hcheck, if_pos hover, if_pos hover]
          rfl
        · rw [if_neg hover] at hcheck
          rw [hcheck, if_neg hover]
          by_cases hwide : e.len < -32
          · rw [if_pos hwide]
            show EndsWalk s ((if -e.len > 32 then _ else _) >>= _) _
            rw [if_pos (by omega)]
            rfl
          · have hdrop := Advances.dropBits hadv.sound (State.checkRange_ok.mp hcheck)
            have hall := hadv.trans hdrop
            have hnext := ih hdrop.sound (hall.ordered ho) (nb := (-e.len).toNat) e.sym (by omega)
            rw [(SameView.of_cursorFrame hall.frame).vlcOutcome, State.dropBits_tell_min hadv.sound, State.dropBits_ptrOff, htell,
              hs.filledFor_ptrOff] at hnext
            rw [if_neg hwide]
            show EndsWalk s ((if -e.len > 32 then _ else _) >>= _) _
            rw [if_neg (by omega), bind_assoc]
            exact hnext.of_advances hall

/-- A legal READ_VLC of a ready block ends as the walk over the stream does. -/
theorem endsWalk_of_ready {s : State} (hready : s.ready = true) {n : BitVec 7} {d : BitVec 2} {table tlen : Word64}
    (hwf : (Instr.readVlc n d table tlen).wellFormed = true) :
    EndsWalk s (body (.readVlc n d table tlen) s)
      (s.vlcOutcome table tlen.toNat d.toNat s.tell.toNat s.ptrOff.toNat n.toNat 0) := by
  have hs := State.sound_of_inv (State.inv_of_ready hready)
  simp only [Instr.wellFormed, Bool.and_eq_true, decide_eq_true_eq] at hwf
  have hlevels : d.toNat = d.toNat - 1 + 1 := by omega
  have hends := hs.endsWalk (State.ordered_of_ready hready) table tlen.toNat (d.toNat - 1) (nb := n.toNat) 0 (by omega)
  rw [← hlevels] at hends
  rw [body_readVlc]
  exact hends

/-- A READ_VLC whose walk gives a symbol completes with it. -/
theorem exec_readVlc_ok {s : State} (hready : s.ready = true) {n : BitVec 7} {d : BitVec 2} {table tlen : Word64} {sym : Int}
    {pos : Nat} (hwf : (Instr.readVlc n d table tlen).wellFormed = true)
    (hwalk : s.vlcOutcome table tlen.toNat d.toNat s.tell.toNat s.ptrOff.toNat n.toNat 0 = .ok (sym, pos)) :
    ∃ t, exec (.readVlc n d table tlen) s = .next (t.complete (BitVec.ofInt 64 sym) false) ∧ Advances s t ∧
      t.tell = (pos : Int) := by
  have hends := endsWalk_of_ready hready hwf
  rw [hwalk] at hends
  obtain ⟨t, ht, hadv, htell⟩ := hends
  exact ⟨t, exec_of_ok (State.unfaulted_of_ready hready) hwf ht, hadv, htell⟩

/-- Settles O48: the command ends as the walk does, where the walk gives a symbol. -/
theorem vlcFollowsTableWalk : Obligations.VlcFollowsTableWalk := by
  unfold Obligations.VlcFollowsTableWalk
  intro s n d table tlen sym pos hready hwf hwalk
  obtain ⟨t, hexec, hadv, htell⟩ := exec_readVlc_ok hready hwf hwalk
  exact ⟨_, hexec, rfl, htell, rfl, hadv.readerFrame _ _⟩

/-- The causes of a walk over the stream (42_vlc.md R111, R112; 20_memory.md R50). -/
theorem State.vlcOutcome_error {s : State} {table : Word64} {tlen levels pos ptr width : Nat} {base : Int} {c : Cause}
    (h : s.vlcOutcome table tlen levels pos ptr width base = .error c) :
    c = .vlcTable ∨ (c = .uncheckedOverrun ∧ s.params.checked = false) := by
  have hover : ∀ pos, s.overruns pos = true → s.params.checked = false := fun pos h => by
    rw [State.overruns, Bool.and_eq_true, Bool.not_eq_true'] at h
    exact h.1
  induction levels generalizing pos ptr width base with
  | zero =>
    cases h
    exact .inl rfl
  | succ levels ih =>
    rw [State.vlcOutcome] at h
    split at h
    case h_1 he =>
      cases h
      exact .inl (State.vlcEntry_error.mp he).2
    case h_2 =>
      split at h
      · split at h
        case isTrue hpast =>
          cases h
          exact .inr ⟨rfl, hover _ hpast⟩
        case isFalse =>
          split at h
          · cases h
            exact .inl rfl
          · exact ih h
      · split at h
        · cases h
          exact .inl rfl
        · split at h
          case isTrue hpast =>
            cases h
            exact .inr ⟨rfl, hover _ hpast⟩
          case isFalse => cases h

/-- Settles O49: the command raises the cause of the walk. -/
theorem vlcMisfitFaults : Obligations.VlcMisfitFaults := by
  unfold Obligations.VlcMisfitFaults
  intro s n d table tlen c hready hwf hwalk
  have hends := endsWalk_of_ready hready hwf
  rw [hwalk] at hends
  have hexec := exec_of_error (State.unfaulted_of_ready hready) hwf hends
  rw [State.takeFault, faultWord_eq] at hexec
  rcases State.vlcOutcome_error hwalk with rfl | ⟨rfl, hc⟩
  · exact .inl ⟨rfl, hexec⟩
  · exact .inr ⟨rfl, hc, hexec⟩

end Sys2Proof.Machine
end

section
/-! PROOFS. The round trip of variable-length codes: a table that holds the codes on the stream gives their symbols back
(42_vlc.md R113, R115, R116). -/

namespace Sys2Proof.Machine

/-! ### The index of a level -/

/-- A field whose first bits are a shorter field is an index that begins with that field's bits (42_vlc.md R115). -/
theorem prefixIndex_of_isField {s : State} {width len : Nat} {f : Nat → Bool} {v field : Nat} (hlen : len ≤ width)
    (hv : isField s.params.endian width f v) (hfield : isField s.params.endian len f field) :
    ∃ rest, rest < 2 ^ (width - len) ∧ v = s.prefixIndex width len field rest := by
  have hlt := isField_lt hv
  unfold State.prefixIndex
  cases he : s.params.endian with
  | le =>
    rw [he] at hv hfield
    have hlow : v % 2 ^ len = field := by
      refine isField_unique (e := .le) (n := len) (f := f) (g := f) (fun i => ?_) hfield fun _ _ => rfl
      rw [Nat.testBit_mod_two_pow, hv i]
      by_cases hi : i < len
      · simp [hi, show i < width by omega]
      · simp [hi]
    refine ⟨v / 2 ^ len, ?_, ?_⟩
    · rw [Nat.div_lt_iff_lt_mul (Nat.two_pow_pos _), ← Nat.pow_add, Nat.sub_add_cancel hlen]
      exact hlt
    · dsimp only
      rw [← hlow, Nat.add_comm, Nat.mul_comm]
      exact (Nat.div_add_mod v (2 ^ len)).symm
  | be =>
    rw [he] at hv hfield
    have hhigh : v / 2 ^ (width - len) = field := by
      refine isField_unique (e := .be) (n := len) (f := f) (g := f) (fun i => ?_) hfield fun _ _ => rfl
      rw [Nat.testBit_div_two_pow, hv (i + (width - len))]
      by_cases hi : i < len
      · have hpos : width - 1 - (i + (width - len)) = len - 1 - i := by omega
        simp [hi, hpos, show i + (width - len) < width by omega]
      · simp [hi, show ¬ i + (width - len) < width by omega]
    refine ⟨v % 2 ^ (width - len), Nat.mod_lt _ (Nat.two_pow_pos _), ?_⟩
    dsimp only
    rw [← hhigh, Nat.mul_comm]
    exact (Nat.div_add_mod v (2 ^ (width - len))).symm

theorem isField_congr {e : Endian} {n v : Nat} {f g : Nat → Bool} (hv : isField e n f v) (h : ∀ i, i < n → f i = g i) :
    isField e n g v := by
  intro i
  rw [hv i]
  by_cases hi : i < n
  · cases e with
    | le => rw [h i hi]
    | be => rw [h (n - 1 - i) (by omega)]
  · simp [hi]

/-- What a reader shows at a position: stream bits below its next refill, then zeros (20_memory.md R49). -/
theorem isField_shownField (s : State) (ptr pos n : Nat) :
    isField s.params.endian n (fun i => decide (i < 8 * ptr - pos) && s.streamBit (pos + i)) (s.shownField ptr pos n) := by
  have hfield := isField_zeroExtended s pos (min n (8 * ptr - pos)) (n - (8 * ptr - pos))
  rw [show min n (8 * ptr - pos) + (n - (8 * ptr - pos)) = n by omega] at hfield
  refine isField_congr hfield fun i hi => ?_
  rw [show decide (i < min n (8 * ptr - pos)) = decide (i < 8 * ptr - pos) from decide_eq_decide.mpr (by omega)]

/-- An index of stream bits alone. -/
theorem State.shownField_of_le {s : State} {ptr pos n : Nat} (h : pos + n ≤ 8 * ptr) :
    s.shownField ptr pos n = s.streamField pos n :=
  isField_unique (isField_shownField s ptr pos n) (isField_streamField s pos n) fun i hi => by
    rw [decide_eq_true (show i < 8 * ptr - pos by omega), Bool.true_and]

/-- The bits of a code within the buffer are bits of the index of its level, after the level's refill. -/
theorem State.le_peekEnd {s : State} {ptr pos width stop : Nat} (hptr : pos ≤ 8 * ptr) (hwidth : width ≤ 32)
    (hstop : stop ≤ 8 * s.byteLen.toNat) (hle : stop ≤ pos + width) : stop ≤ 8 * s.peekEnd ptr pos width := by
  unfold State.peekEnd
  split
  case isTrue => omega
  case isFalse h =>
    by_cases hlt : 8 * ptr < pos + width
    · have hlen : ¬ ptr < s.byteLen.toNat := fun hlt' => h ⟨hlt, .inr hlt'⟩
      omega
    · omega

/-! ### The codes of a table -/

theorem State.holdsCode_le {s : State} {table : Word64} {tlen : Nat} {sym : Int} {stop levels pos width : Nat} {base : Int}
    (h : s.holdsCode table tlen sym stop levels pos width base) : pos ≤ stop := by
  induction levels generalizing pos width base with
  | zero => exact absurd h id
  | succ levels ih =>
    rcases h with ⟨hle, _⟩ | ⟨e, _, _, _, _, hsub⟩
    · exact hle
    · have := ih hsub
      omega

/-- The walk over the stream finds the symbol of a code the table holds (42_vlc.md R116). -/
theorem State.vlcOutcome_of_holdsCode {s : State} {table : Word64} {tlen : Nat} {sym : Int} {stop levels pos ptr width : Nat}
    {base : Int} (h : s.holdsCode table tlen sym stop levels pos width base) (hptr : pos ≤ 8 * ptr) (hwidth : width ≤ 32)
    (hstop : stop ≤ 8 * s.byteLen.toNat) (hsize : s.params.checked = false → stop ≤ s.size.toNat) :
    s.vlcOutcome table tlen levels pos ptr width base = .ok (sym, stop) := by
  have hinside : ∀ p, p ≤ stop → ¬ s.overruns p = true := fun p hp hover => by
    rw [State.overruns, Bool.and_eq_true, Bool.not_eq_true', decide_eq_true_eq] at hover
    have := hsize hover.1
    omega
  induction levels generalizing pos ptr width base with
  | zero => exact absurd h id
  | succ levels ih =>
    rw [State.vlcOutcome]
    rcases h with ⟨hle, hlast, hentry⟩ | ⟨e, hentry, hmore, hneg, hwide, hsub⟩
    · have hcover := State.le_peekEnd (s := s) hptr hwidth hstop hlast
      have hcode : isField s.params.endian (stop - pos)
          (fun i => decide (i < 8 * s.peekEnd ptr pos width - pos) && s.streamBit (pos + i))
          (s.streamField pos (stop - pos)) :=
        isField_congr (isField_streamField s pos (stop - pos)) fun i hi => by
          rw [decide_eq_true (show i < 8 * s.peekEnd ptr pos width - pos by omega), Bool.true_and]
      obtain ⟨rest, hrest, hindex⟩ := prefixIndex_of_isField (s := s) (show stop - pos ≤ width by omega)
        (isField_shownField s (s.peekEnd ptr pos width) pos width) hcode
      rw [show width - (stop - pos) = pos + width - stop by omega] at hrest
      have hend : pos + (stop - pos) = stop := by omega
      rw [hindex, hentry rest hrest]
      dsimp only
      rw [if_neg (by omega), if_neg (by omega), Int.toNat_natCast, hend, if_neg (hinside stop (Nat.le_refl _)),
        Nat.min_eq_left hcover]
    · have hle := State.holdsCode_le hsub
      have hcover := State.le_peekEnd (s := s) (stop := pos + width) hptr hwidth (by omega) (Nat.le_refl _)
      rw [State.shownField_of_le hcover, hentry]
      dsimp only
      rw [if_pos ⟨hneg, hmore⟩, if_neg (hinside _ hle), if_neg (by omega), Nat.min_eq_left hcover]
      exact ih hsub hcover (by omega)

/-- A block that completed a reader command is ready for the next. -/
theorem ready_of_exec {i : Instr} {s t : State} (hs : s.ready = true) (hi : isReader i = true) (h : exec i s = .next t)
    (ht : t.faulted = false) : t.ready = true := by
  have hinv := State.inv_of_ready hs
  rw [State.ready, exec_keeps_inv hinv h, readerKeepsStreamOrder i s t hinv (State.ordered_of_ready hs) hi h, ht]
  rfl

/-- One READ_VLC on a code the table holds: its symbol, the position behind it, and a block ready for the next. -/
theorem exec_readVlc_of_holdsCode {s : State} {n : BitVec 7} {d : BitVec 2} {table tlen : Word64} {sym : Int} {stop : Nat}
    (hready : s.ready = true) (hwf : (Instr.readVlc n d table tlen).wellFormed = true)
    (hcode : s.holdsCode table tlen.toNat sym stop d.toNat s.tell.toNat n.toNat 0)
    (hstop : stop ≤ 8 * s.byteLen.toNat) (hsize : s.params.checked = false → stop ≤ s.size.toNat) :
    ∃ t, exec (.readVlc n d table tlen) s = .next t ∧ t.ready = true ∧ SameView s t ∧ t.res = BitVec.ofInt 64 sym ∧
      t.tell = (stop : Int) ∧ t.status = 0 := by
  have hs := State.sound_of_inv (State.inv_of_ready hready)
  have hbits := s.tell_add_valid
  have hnonneg := hs.cacheOk.tell_nonneg
  have hn : n.toNat ≤ 32 := by
    simp only [Instr.wellFormed, Bool.and_eq_true, decide_eq_true_eq] at hwf
    omega
  obtain ⟨t, hexec, hadv, htell⟩ := exec_readVlc_ok hready hwf
    (State.vlcOutcome_of_holdsCode hcode (ptr := s.ptrOff.toNat) (by omega) hn hstop hsize)
  have hframe := hadv.readerFrame (BitVec.ofInt 64 sym) false
  refine ⟨_, hexec, ready_of_exec hready rfl hexec ?_, SameView.of_readerFrame hframe, rfl, htell, rfl⟩
  rw [State.faulted, State.faultCause, State.complete_fault, cursorFrame_fault hadv.frame]
  exact State.unfaulted_of_ready hready

/-- Settles O60, by induction on the codes. -/
theorem vlcRoundTrip : Obligations.VlcRoundTrip := by
  unfold Obligations.VlcRoundTrip
  intro s n d table tlen codes hready hwf hcodes hin
  induction codes generalizing s with
  | nil => rfl
  | cons c codes ih =>
    obtain ⟨sym, stop⟩ := c
    obtain ⟨hcode, hrest⟩ := hcodes
    obtain ⟨hstop, hsize⟩ := hin (sym, stop) (List.mem_cons_self ..)
    obtain ⟨t, hexec, ht, hview, hres, htell, hstatus⟩ := exec_readVlc_of_holdsCode hready hwf hcode hstop hsize
    have hnext := ih t ht (by rw [htell, Int.toNat_natCast]; exact (hview.holdsCodes ..).mpr hrest) (fun c hc => by
      rw [hview.byteLen, hview.size, hview.params]
      exact hin c (List.mem_cons_of_mem _ hc))
    rw [List.length_cons, List.replicate_succ, execEach, hexec]
    show (t.res, t.tell, t.status) :: _ = _ :: _
    rw [hnext, hres, htell, hstatus]

end Sys2Proof.Machine
end

section
/-! PROOFS. SEEK gives the reader INIT and SKIP give: two readers over one stream at one position read the same
(40_reader_control.md R90). -/

namespace Sys2Proof.Machine

/-! ### Commands that did not fault -/

/-- A command after which the block is not faulted completed. -/
theorem completed_of_exec {i : Instr} {s t : State} (h : exec i s = .next t) (ht : t.faulted = false) :
    s.faulted = false ∧ i.wellFormed = true ∧ ∃ d, body i s = .ok d ∧ t = d.state.complete d.value d.invalid := by
  cases ends_of_exec h with
  | refused hs =>
    have : s.faulted = false := ht
    simp [hs] at this
  | illegal => simp [State.takeFault_faulted] at ht
  | faulted => simp [State.takeFault_faulted] at ht
  | completed hs hi d hd => exact ⟨hs, hi, d, hd, rfl⟩

/-- What a reading command did that completed on a ready block. -/
theorem reads_of_exec {i : Instr} {n : Nat} {s t : State} (hs : s.ready = true) (hi : readsOrPeeks i = some n)
    (hbits : bitsFromHere i = some n) (h : exec i s = .next t) (ht : t.faulted = false) :
    s.checkRange n = .ok () ∧ t.ready = true ∧ SameView s t ∧ t.res = resultOf i (BitVec.ofNat 64 (s.nextValue n)) ∧
      s.tell ≤ t.tell ∧
      ((peeks i = true ∧ t.tell = s.tell) ∨
        (peeks i = false ∧ t.tell = if s.supplies n then s.tell + (n : Int) else 8 * (s.ptrOff.toNat : Int))) := by
  have hsound := State.sound_of_inv (State.inv_of_ready hs)
  obtain ⟨hf, hwf, d, hd, rfl⟩ := completed_of_exec h ht
  have hrange : s.checkRange n = .ok () := by
    rcases s.checkRange_cases n with hrange | ⟨hover, _⟩
    · exact hrange
    · by_cases h0 : n = 0
      · rw [h0]
        exact hsound.checkRange_zero
      · rw [body_overrun hbits hwf (by omega) hover] at hd
        cases hd
  obtain ⟨r, hr, hreads⟩ := body_reads hsound hi hwf hrange
  rw [hr] at hd
  cases hd
  have hvalue : r.1 = BitVec.ofNat 64 (s.nextValue n) := by
    rw [← hreads.value (State.ordered_of_ready hs), BitVec.ofNat_toNat, BitVec.setWidth_eq]
  refine ⟨hrange, ready_of_exec hs ?_ h ht, SameView.of_readerFrame (hreads.advances.readerFrame _ _), by rw [← hvalue]; rfl,
    hreads.advances.tell_le, ?_⟩
  · cases i with
    | dequant | idctPut | idctAdd | idctDcAdd => cases hi
    | init | readBit | read | readNz | read63 | read64 | readSigned | peek | peekSigned | skip | seek | align | tell | size
    | left | readVlc | skip1stop8data => rfl
  · cases hpeek : peeks i with
    | true => exact .inl ⟨rfl, (Shows.of_reads hreads hpeek).tell⟩
    | false => exact .inr ⟨rfl, (Takes.of_reads hreads hpeek).tell⟩

theorem bitsFromHere_of_readsOrPeeks {i : Instr} {n : Nat} (h : readsOrPeeks i = some n) : bitsFromHere i = some n := by
  cases i with
  | skip => cases h
  | init | readBit | read | readNz | read63 | read64 | readSigned | peek | peekSigned | seek | align | tell | size
  | left | readVlc | skip1stop8data | dequant | idctPut | idctAdd | idctDcAdd => exact h

/-! ### Two readers side by side -/

/-- Two ready blocks over one stream, at one position, or both past the last byte of the buffer. -/
structure Abreast (t v : State) : Prop where
  view : SameView t v
  ready_left : t.ready = true
  ready_right : v.ready = true
  tell : t.tell = v.tell ∨ (8 * (t.byteLen.toNat : Int) ≤ t.tell ∧ 8 * (t.byteLen.toNat : Int) ≤ v.tell)

/-- A reader that cannot supply bits has its target, and its pointer, at the end of the buffer or past it. -/
theorem State.le_of_not_supplies {s : State} {n : Nat} (hrange : s.checkRange n = .ok ()) (hsup : ¬ s.supplies n = true) :
    8 * (s.byteLen.toNat : Int) ≤ 8 * (s.ptrOff.toNat : Int) ∧ 8 * (s.byteLen.toNat : Int) ≤ s.tell + (n : Int) := by
  have hbits := s.tell_add_valid
  rcases State.supplies_cases hrange with ⟨hyes, _⟩ | ⟨_, hend, hv⟩
  · exact absurd hyes hsup
  · have := (s.atEnd_iff.mp hend).2
    omega

/-- A reader supplies the bits that lie within the buffer. -/
theorem State.supplies_of_le {s : State} {n : Nat} (hrange : s.checkRange n = .ok ())
    (hle : s.tell + (n : Int) ≤ 8 * (s.byteLen.toNat : Int)) : s.supplies n = true := by
  have hbits := s.tell_add_valid
  rcases State.supplies_cases hrange with ⟨hyes, _⟩ | ⟨_, hend, hv⟩
  · exact hyes
  · have := (s.atEnd_iff.mp hend).2
    omega

/-- A read or peek that completes on both sides leaves them abreast. -/
theorem Abreast.exec_reads {t v t' v' : State} {i : Instr} {n : Nat} (h : Abreast t v) (hi : readsOrPeeks i = some n)
    (ht : exec i t = .next t') (hv : exec i v = .next v') (hft : t'.faulted = false) (hfv : v'.faulted = false) :
    Abreast t' v' ∧ SameView t t' := by
  have hbits := bitsFromHere_of_readsOrPeeks hi
  obtain ⟨hrt, hready, hview, _, hle, htell⟩ := reads_of_exec h.ready_left hi hbits ht hft
  obtain ⟨hrv, hready', hview', _, hle', htell'⟩ := reads_of_exec h.ready_right hi hbits hv hfv
  have hlen := h.view.byteLen
  refine ⟨⟨hview.symm.trans (h.view.trans hview'), hready, hready', ?_⟩, hview⟩
  rw [hview.byteLen]
  rcases h.tell with heq | ⟨hpast, hpast'⟩
  case inr => exact .inr ⟨by omega, by omega⟩
  rcases htell with ⟨hpeek, hsame⟩ | ⟨hpeek, htell⟩
  · have hsame' := htell'.resolve_right fun h => by simp [hpeek] at h
    exact .inl (hsame.trans (heq.trans hsame'.2.symm))
  · obtain ⟨_, htell'⟩ := htell'.resolve_left fun h => by simp [hpeek] at h
    by_cases hsup : t.supplies n
    · rw [if_pos hsup] at htell
      by_cases hsup' : v.supplies n
      · rw [if_pos hsup'] at htell'
        exact .inl (by omega)
      · have hend := State.le_of_not_supplies hrv hsup'
        rw [if_neg hsup'] at htell'
        rw [hlen] at hend
        exact .inr ⟨by omega, by omega⟩
    · have hend := State.le_of_not_supplies hrt hsup
      rw [if_neg hsup] at htell
      by_cases hsup' : v.supplies n
      · rw [if_pos hsup'] at htell'
        exact .inr ⟨by omega, by omega⟩
      · have hend' := State.le_of_not_supplies hrv hsup'
        rw [if_neg hsup'] at htell'
        rw [hlen] at hend'
        exact .inr ⟨by omega, by omega⟩

theorem Abreast.execAll {js : List Instr} {t v t' v' : State} (h : Abreast t v)
    (hjs : js.all (fun j => (readsOrPeeks j).isSome) = true) (ht : execAll js t = some t') (hv : execAll js v = some v')
    (hft : t'.faulted = false) (hfv : v'.faulted = false) : Abreast t' v' ∧ SameView t t' := by
  induction js generalizing t v with
  | nil =>
    cases ht
    cases hv
    exact ⟨h, SameView.refl _⟩
  | cons j js ih =>
    obtain ⟨hj, hjs⟩ := Bool.and_eq_true_iff.mp hjs
    obtain ⟨n, hn⟩ := Option.isSome_iff_exists.mp hj
    obtain ⟨t1, ht1, ht⟩ := execAll_cons_some.mp ht
    obtain ⟨v1, hv1, hv⟩ := execAll_cons_some.mp hv
    obtain ⟨h1, hview1⟩ := h.exec_reads hn ht1 hv1 (unfaulted_of_execAll ht hft) (unfaulted_of_execAll hv hfv)
    obtain ⟨h', hview'⟩ := ih h1 hjs ht hv
    exact ⟨h', hview1.trans hview'⟩

/-- Abreast within the buffer a read or peek gives the same on both sides. -/
theorem Abreast.reads_res {t v t' v' : State} {i : Instr} {n : Nat} (h : Abreast t v) (hi : readsOrPeeks i = some n)
    (hin : t.tell + (n : Int) ≤ 8 * (t.byteLen.toNat : Int)) (ht : exec i t = .next t') (hv : exec i v = .next v')
    (hft : t'.faulted = false) (hfv : v'.faulted = false) : t'.res = v'.res := by
  have hbits := bitsFromHere_of_readsOrPeeks hi
  obtain ⟨hrt, _, _, hres, _⟩ := reads_of_exec h.ready_left hi hbits ht hft
  obtain ⟨hrv, _, _, hres', _⟩ := reads_of_exec h.ready_right hi hbits hv hfv
  have hlen := h.view.byteLen
  have hvalue : v.nextValue n = t.nextValue n := by
    unfold State.nextValue
    by_cases h0 : n = 0
    · subst h0
      rw [if_pos (State.sound_of_inv (State.inv_of_ready h.ready_left)).supplies_zero,
        if_pos (State.sound_of_inv (State.inv_of_ready h.ready_right)).supplies_zero, State.streamField_zero,
        State.streamField_zero]
    · have htell : v.tell = t.tell := by
        rcases h.tell with heq | ⟨hpast, _⟩
        · exact heq.symm
        · omega
      rw [if_pos (State.supplies_of_le hrt hin),
        if_pos (State.supplies_of_le hrv (by rw [hlen, htell]; exact hin)), htell, h.view.streamField]
  rw [hres, hres', hvalue]

/-- Within the buffer the walk over the stream does not depend on where the next refill starts. -/
theorem State.vlcOutcome_ptr {s : State} {table : Word64} {tlen levels pos ptr ptr' width : Nat} {base : Int}
    (hptr : pos ≤ 8 * ptr) (hptr' : pos ≤ 8 * ptr') (hwidth : width ≤ 32)
    (hin : pos + width + 32 * (levels - 1) ≤ 8 * s.byteLen.toNat) :
    s.vlcOutcome table tlen levels pos ptr width base = s.vlcOutcome table tlen levels pos ptr' width base := by
  induction levels generalizing pos ptr ptr' width base with
  | zero => rfl
  | succ levels ih =>
    have hcover := State.le_peekEnd (s := s) (stop := pos + width) hptr hwidth (by omega) (Nat.le_refl _)
    have hcover' := State.le_peekEnd (s := s) (stop := pos + width) hptr' hwidth (by omega) (Nat.le_refl _)
    rw [State.vlcOutcome, State.vlcOutcome, State.shownField_of_le hcover, State.shownField_of_le hcover']
    cases s.vlcEntry table tlen (base + (s.streamField pos width : Int)) with
    | error c => rfl
    | ok e =>
      dsimp only
      by_cases hsub : e.len < 0 ∧ 0 < levels
      · rw [if_pos hsub, if_pos hsub, Nat.min_eq_left hcover, Nat.min_eq_left hcover']
        split
        · rfl
        · split
          · rfl
          · exact ih hcover hcover' (by omega) (by omega)
      · rw [if_neg hsub, if_neg hsub]
        split
        · rfl
        · split
          · rfl
          · rw [Nat.min_eq_left (by omega), Nat.min_eq_left (by omega)]

/-- What a READ_VLC did that completed on a ready block. -/
theorem readVlc_of_exec {s t : State} {n : BitVec 7} {d : BitVec 2} {table tlen : Word64} (hs : s.ready = true)
    (h : exec (.readVlc n d table tlen) s = .next t) (ht : t.faulted = false) :
    n.toNat ≤ 32 ∧ ∃ sym pos, s.vlcOutcome table tlen.toNat d.toNat s.tell.toNat s.ptrOff.toNat n.toNat 0 = .ok (sym, pos) ∧
      t.res = BitVec.ofInt 64 sym := by
  obtain ⟨_, hwf, d', hd, rfl⟩ := completed_of_exec h ht
  have hends := endsWalk_of_ready hs hwf
  rw [hd] at hends
  simp only [Instr.wellFormed, Bool.and_eq_true, decide_eq_true_eq] at hwf
  cases hwalk : s.vlcOutcome table tlen.toNat d.toNat s.tell.toNat s.ptrOff.toNat n.toNat 0 with
  | error c =>
    rw [hwalk] at hends
    cases hends
  | ok r =>
    rw [hwalk] at hends
    obtain ⟨u, hu, _⟩ := hends
    cases hu
    exact ⟨by omega, r.1, r.2, rfl, rfl⟩

/-- Abreast with its lookahead within the buffer READ_VLC gives the same on both sides. -/
theorem Abreast.readVlc_res {t v t' v' : State} {n : BitVec 7} {d : BitVec 2} {table tlen : Word64} (h : Abreast t v)
    (hin : t.tell + ((n.toNat + 64 : Nat) : Int) ≤ 8 * (t.byteLen.toNat : Int))
    (ht : exec (.readVlc n d table tlen) t = .next t') (hv : exec (.readVlc n d table tlen) v = .next v')
    (hft : t'.faulted = false) (hfv : v'.faulted = false) : t'.res = v'.res := by
  obtain ⟨hn, sym, pos, hwalk, hres⟩ := readVlc_of_exec h.ready_left ht hft
  obtain ⟨_, sym', pos', hwalk', hres'⟩ := readVlc_of_exec h.ready_right hv hfv
  have hbits := t.tell_add_valid
  have hbits' := v.tell_add_valid
  have hnonneg := (State.sound_of_inv (State.inv_of_ready h.ready_left)).cacheOk.tell_nonneg
  have hd := d.isLt
  have htell : t.tell = v.tell := by
    rcases h.tell with heq | ⟨hpast, _⟩
    · exact heq
    · omega
  rw [h.view.vlcOutcome, ← htell,
    State.vlcOutcome_ptr (ptr' := t.ptrOff.toNat) (by omega) (by omega) hn (by omega), hwalk] at hwalk'
  cases hwalk'
  rw [hres, hres']

/-- INIT of the reader's own buffer and SKIP to a position within SIZE stand abreast with SEEK. -/
theorem abreast_of_seek {s t u v : State} {pos : Word64} (hs : s.ready = true) (hpos : pos.toNat ≤ s.size.toNat)
    (ht : exec (.seek pos) s = .next t) (hu : exec (.init s.buf (s.size.setWidth 64)) s = .next u) (hstatus : u.status = 0)
    (hv : exec (.skip pos) u = .next v) : Abreast t v ∧ SameView s t ∧ t.tell = (pos.toNat : Int) := by
  have hinv := State.inv_of_ready hs
  have hf := State.unfaulted_of_ready hs
  have hsound := State.sound_of_inv hinv
  obtain ⟨⟨hok, _, hsize, hbuf⟩, _, _⟩ := s.inv_iff.mp hinv
  have hmax : s.size.toNat ≤ 2147483640 := hsize
  have hwidth : (s.size.setWidth 64).toNat = s.size.toNat := by
    rw [BitVec.toNat_setWidth]
    exact Nat.mod_eq_of_lt (by omega)
  have hwrap : s.buf.toNat % 2 ^ s.params.addrW = s.buf.toNat := Nat.mod_eq_of_lt hbuf
  obtain ⟨_, hseek, htell, hframe⟩ := exec_seek_within hsound hf hpos
  rw [ht] at hseek
  obtain rfl := Host.Outcome.next.inj hseek
  have hview := SameView.of_readerFrame hframe
  have hready : ((s.rewound.skipped pos.toNat).complete 0 false).ready = true :=
    ready_of_exec hs rfl ht (by rw [State.faulted, State.faultCause, hframe.1]; exact hf)
  have hnull : s.buf.toNat % 2 ^ s.params.addrW ≠ 0 := fun hzero => by
    rw [initRejectsBadStream s s.buf _ hf (by omega) (.inr hzero)] at hu
    obtain rfl := Host.Outcome.next.inj hu
    cases hstatus
  obtain ⟨u', hinit, hframeu, hbufu, hsizeu, hlenu, htellu, _, _, hreadu⟩ :=
    initOpensReader s s.buf (s.size.setWidth 64) hok hf (by rw [hwidth]; exact hsize) hnull
  rw [hu] at hinit
  obtain rfl := Host.Outcome.next.inj hinit
  have hfu : u.faulted = false := by
    rw [State.faulted, State.faultCause, hframeu]
    exact hf
  have hreadyu := ready_of_exec hs rfl hu hfu
  have hviewu : SameView s u :=
    ⟨by rw [hframeu], BitVec.eq_of_toNat_eq (hbufu.trans hwrap),
      BitVec.eq_of_toNat_eq (hlenu.trans (by rw [hwidth]; exact hsound.byteLen_eq.symm)),
      BitVec.eq_of_toNat_eq (hsizeu.trans hwidth), hreadu⟩
  have hlen := hsound.byteLen_eq
  obtain ⟨v', hskip, htellv, _, _, hframev⟩ := skipAdvancesPosition u pos (State.inv_of_ready hreadyu) hfu (by omega) (by
    rw [htellu, hviewu.size, hviewu.byteLen]
    split <;> omega)
  rw [hv] at hskip
  obtain rfl := Host.Outcome.next.inj hskip
  have hreadyv := ready_of_exec hreadyu rfl hv (by rw [State.faulted, State.faultCause, hframev.1]; exact hfu)
  refine ⟨⟨hview.symm.trans (hviewu.trans (SameView.of_readerFrame hframev)), hready, hreadyv, .inl ?_⟩, hview, htell⟩
  rw [htellv, htellu, Int.zero_add]
  exact htell

/-- Settles O30: SEEK and INIT with SKIP stand abreast, reads and peeks keep them so, and abreast they read the same. -/
theorem seekAgreesWithInitAndSkip : Obligations.SeekAgreesWithInitAndSkip := by
  unfold Obligations.SeekAgreesWithInitAndSkip
  intro s t u v t' v' t'' v'' pos js i n hs hpos ht hu hstatus hv hjs ht' hv' hi hin ht'' hv'' hft hfv
  obtain ⟨habreast, hview, htell⟩ := abreast_of_seek hs hpos ht hu hstatus hv
  have hft' := unfaulted_of_exec ht'' hft
  have hfv' := unfaulted_of_exec hv'' hfv
  obtain ⟨habreast', hview'⟩ := habreast.execAll hjs ht' hv' hft' hfv'
  rw [← hview.byteLen, ← hview'.byteLen] at hin
  refine ⟨htell, ?_⟩
  rcases hi with hi | ⟨m, d, table, tlen, rfl, rfl⟩
  · exact habreast'.reads_res hi hin ht'' hv'' hft hfv
  · exact habreast'.readVlc_res hin ht'' hv'' hft hfv

end Sys2Proof.Machine
end

section
/-! PROOFS. Bytes already loaded are not loaded again: a memory write below the pointer reaches no reader command, and one that
touches no cached byte is read by the refills after it (20_memory.md section 4; 70_reset_and_hazards.md section 2). -/

namespace Sys2Proof.Machine

/-! ### A write that the refills do not reach -/

/-- The byte at `a` is none of the window's bytes from PTR_OFF on. -/
def State.misses (s : State) (a : Nat) : Prop :=
  ∀ k, s.ptrOff.toNat ≤ k → k < s.byteLen.toNat + s.params.pad → s.wrapAddr (s.buf.toNat + k) ≠ s.wrapAddr a

theorem State.misses.of_frame {s t : State} {a : Nat} (h : s.misses a) (hframe : cursorFrame s t)
    (hptr : s.ptrOff.toNat ≤ t.ptrOff.toNat) : t.misses a := by
  intro k hk hlt
  rw [cursorFrame_byteLen hframe, cursorFrame_params hframe] at hlt
  rw [State.wrapAddr, State.wrapAddr, cursorFrame_params hframe, cursorFrame_buf hframe]
  exact h k (Nat.le_trans hptr hk) hlt

theorem State.misses.of_advances {s t : State} {a : Nat} (h : s.misses a) (hadv : Advances s t) : t.misses a :=
  h.of_frame hadv.frame hadv.ptr_le

theorem State.readByte_of_ne {s : State} {a x : Nat} (b : Byte) (h : s.wrapAddr x ≠ s.wrapAddr a) :
    (s.writeByte a b).readByte x = s.readByte x := by
  rw [State.readByte_writeByte, if_neg h]

/-- Steps one after the other that a change of the state passes through. -/
theorem bind_map_comm {α β : Type} {x x' : Except Cause α} {f f' : α → Except Cause β} {l : α → α} {m : β → β}
    (hx : x' = x.map l) (hf : ∀ a, x = .ok a → f' (l a) = (f a).map m) : x' >>= f' = (x >>= f).map m := by
  subst hx
  cases x with
  | error c => rfl
  | ok a => exact hf a rfl

/-- A step that does not depend on the change. -/
theorem bind_map_same {α β : Type} {x : Except Cause α} {f f' : α → Except Cause β} {m : β → β}
    (hf : ∀ a, x = .ok a → f' a = (f a).map m) : x >>= f' = (x >>= f).map m := by
  cases x with
  | error c => rfl
  | ok a => exact hf a rfl

theorem State.readStream_writeByte {s : State} {a o : Nat} (b : Byte) (h : s.misses a) (ho : s.ptrOff.toNat ≤ o) :
    (s.writeByte a b).readStream o = s.readStream o := by
  unfold State.readStream
  show (if o ≥ s.byteLen.toNat + s.params.pad then _ else Except.ok ((s.writeByte a b).readByte (s.buf.toNat + o))) = _
  split
  · rfl
  · rw [State.readByte_of_ne b (h o ho (by omega))]

theorem State.readChunk_writeByte {s : State} {a : Nat} (b : Byte) (h : s.misses a) {o : Nat} (ho : s.ptrOff.toNat ≤ o)
    (n : Nat) : (s.writeByte a b).readChunk o n = s.readChunk o n := by
  induction n generalizing o with
  | zero => rfl
  | succ n ih => rw [State.readChunk, State.readChunk, State.readStream_writeByte b h ho, ih (Nat.le_succ_of_le ho)]

theorem State.advancePtr_writeByte (s : State) (a : Nat) (b : Byte) (k : Nat) :
    (s.writeByte a b).advancePtr k = (s.advancePtr k).writeByte a b := by
  unfold State.advancePtr
  by_cases h : s.ptrOff.toNat + k < 2 ^ 64
  · rw [if_pos h, if_pos (show (s.writeByte a b).ptrOff.toNat + k < 2 ^ 64 from h)]
    rfl
  · rw [if_neg h, if_neg (show ¬ (s.writeByte a b).ptrOff.toNat + k < 2 ^ 64 from h)]
    rfl

theorem State.refill64_writeByte {s : State} {a : Nat} (b : Byte) (h : s.misses a) :
    (s.writeByte a b).refill64 = s.refill64.map (·.writeByte a b) := by
  unfold State.refill64
  show (if s.atEnd then _ else (s.writeByte a b).readChunk s.ptrOff.toNat 8 >>= _) = _
  rw [State.readChunk_writeByte b h (Nat.le_refl _)]
  split
  · rfl
  · exact bind_map_same fun bs _ => congrArg Except.ok
      (State.advancePtr_writeByte { s with cache := s.chunkWord bs, valid := 64 } a b 8)

theorem State.refill32_writeByte {s : State} {a : Nat} (b : Byte) (h : s.misses a) :
    (s.writeByte a b).refill32 = s.refill32.map (·.writeByte a b) := by
  unfold State.refill32
  show (if s.atEnd then _ else (s.writeByte a b).readChunk s.ptrOff.toNat 4 >>= _) = _
  rw [State.readChunk_writeByte b h (Nat.le_refl _)]
  split
  · rfl
  · exact bind_map_same fun bs _ => congrArg Except.ok
      (State.advancePtr_writeByte
        { s with cache := s.appendedCache (s.chunkWord bs), valid := BitVec.ofNat 7 (s.valid.toNat + 32) } a b 4)

theorem State.refillFor_writeByte {s : State} {a : Nat} (b : Byte) (h : s.misses a) (n : Nat) :
    (s.writeByte a b).refillFor n = (s.refillFor n).map (·.writeByte a b) := by
  unfold State.refillFor
  show (if n > s.valid.toNat then (s.writeByte a b).refill32 else _) = _
  split
  · exact State.refill32_writeByte b h
  · rfl

theorem State.refillIfEmpty_writeByte {s : State} {a : Nat} (b : Byte) (h : s.misses a) :
    (s.writeByte a b).refillIfEmpty = s.refillIfEmpty.map (·.writeByte a b) := by
  unfold State.refillIfEmpty
  show (if s.valid.toNat = 0 then (s.writeByte a b).refill64 else _) = _
  split
  · exact State.refill64_writeByte b h
  · rfl

/-- The write, behind what a read gives. -/
def behindRead (a : Nat) (b : Byte) (r : Word64 × State) : Word64 × State := (r.1, r.2.writeByte a b)

theorem State.takeBits_writeByte {s : State} {a : Nat} (b : Byte) (h : s.misses a) (n : Nat) :
    (s.writeByte a b).takeBits n = (s.takeBits n).map (behindRead a b) :=
  bind_map_same fun _ _ => bind_map_comm (State.refillFor_writeByte b h n) fun _ _ => rfl

theorem State.peekBits_writeByte {s : State} {a : Nat} (b : Byte) (h : s.misses a) (n : Nat) :
    (s.writeByte a b).peekBits n = (s.peekBits n).map (behindRead a b) :=
  bind_map_same fun _ _ => bind_map_comm (State.refillFor_writeByte b h n) fun _ _ => rfl

theorem State.takeBit_writeByte {s : State} {a : Nat} (b : Byte) (h : s.misses a) :
    (s.writeByte a b).takeBit = s.takeBit.map (behindRead a b) :=
  bind_map_same fun _ _ => bind_map_comm (State.refillIfEmpty_writeByte b h) fun _ _ => rfl

theorem State.takeWide_writeByte {s : State} {a : Nat} (b : Byte) (h : s.misses a) (n : Nat) :
    (s.writeByte a b).takeWide n = (s.takeWide n).map (behindRead a b) := by
  refine bind_map_same fun _ _ => ?_
  by_cases hn : n > s.valid.toNat
  · have hdrained := (apply_ite (behindRead a b) (s.valid.toNat > 0) (s.getBits s.valid.toNat) (0, s)).symm
    have hmiss : (if s.valid.toNat > 0 then s.getBits s.valid.toNat else (0, s)).2.misses a := by
      split
      · exact h
      · exact h
    rw [if_pos hn, if_pos (show n > (s.writeByte a b).valid.toNat from hn)]
    have hrefill := (congrArg (fun r : Word64 × State => r.2.refill64) hdrained).trans (State.refill64_writeByte b hmiss)
    refine bind_map_comm hrefill fun t _ => ?_
    have hjoin := congrArg
      (fun r : Word64 × State => (Except.ok (s.joinParts r.1 s.valid.toNat (t.showBits (n - s.valid.toNat)) (n - s.valid.toNat),
        (t.dropBits (n - s.valid.toNat)).writeByte a b) : Except Cause (Word64 × State))) hdrained
    exact hjoin
  · rw [if_neg hn, if_neg (show ¬ n > (s.writeByte a b).valid.toNat from hn)]
    rfl

/-! ### Skips and groups -/

theorem State.Sound.writeByte {s : State} (hs : s.Sound) (a : Nat) (b : Byte) : (s.writeByte a b).Sound :=
  ⟨⟨hs.cacheOk.valid_le, hs.cacheOk.valid_le_ptr, hs.cacheOk.aligned, hs.cacheOk.in_range⟩, hs.pad_ge, hs.byteLen_eq⟩

theorem State.Sound.filled64_writeByte {s : State} (hs : s.Sound) {a : Nat} (b : Byte) (h : s.misses a)
    (hv : s.valid.toNat = 0) : (s.writeByte a b).filled64 = s.filled64.writeByte a b := by
  have hrefill := State.refill64_writeByte b h
  rw [hs.refill64 hv, (hs.writeByte a b).refill64 hv] at hrefill
  exact Except.ok.inj hrefill

theorem State.Sound.skipBits_writeByte {s : State} (hs : s.Sound) {a : Nat} (b : Byte) (h : s.misses a) {n : Nat}
    (hfit : s.ptrOff.toNat + skipHop (n - s.valid.toNat) < 2 ^ 64) :
    (s.writeByte a b).skipBits n = (s.skipBits n).map (·.writeByte a b) := by
  rcases s.checkRange_cases n with hrange | ⟨hover, _⟩
  case inr =>
    rw [State.skipBits_overrun hover, State.skipBits_overrun (s := s.writeByte a b) hover]
    rfl
  rw [hs.skipBits_eq hrange, (hs.writeByte a b).skipBits_eq hrange]
  refine congrArg Except.ok ?_
  unfold State.skipped
  by_cases hlt : n < s.valid.toNat
  · rw [if_pos hlt, if_pos (show n < (s.writeByte a b).valid.toNat from hlt)]
    rfl
  · have hv := Nat.not_lt.mp hlt
    have hland := Keeps.landing hs hv hrange
    have hmiss : (s.landing n).misses a := h.of_frame hland.frame (by
      rw [(State.landing_ptrOff hfit).1]
      exact Nat.le_add_right ..)
    have hlanding : (s.writeByte a b).landing n = (s.landing n).writeByte a b := State.advancePtr_writeByte s.emptyCache a b _
    rw [if_neg hlt, if_neg (show ¬ n < (s.writeByte a b).valid.toNat from hlt), hlanding,
      hland.sound.filled64_writeByte b hmiss (by rw [State.landing_valid]; rfl)]
    rfl

theorem State.skipHop_fits_of_small {s : State} {n : Nat} (hn : n < 64) :
    s.ptrOff.toNat + skipHop (n - s.valid.toNat) < 2 ^ 64 := by
  have := s.ptrOff.isLt
  rw [skipHop_small (by omega)]
  omega

/-- The write, behind what the loop of SKIP_1STOP_8DATA gives. -/
def behindLoop (a : Nat) (b : Byte) (r : Bool × State) : Bool × State := (r.1, r.2.writeByte a b)

theorem State.Sound.skipGroups_writeByte {s : State} (hs : s.Sound) {a : Nat} (b : Byte) (h : s.misses a) (passes : Nat) :
    (s.writeByte a b).skipGroups passes = (s.skipGroups passes).map (behindLoop a b) := by
  induction passes generalizing s with
  | zero => rfl
  | succ passes ih =>
    refine bind_map_comm (State.takeBit_writeByte b h) fun r hr => ?_
    have hbit := (safe_takeBit hs).ok r hr
    have hmiss := h.of_advances hbit
    by_cases hstop : r.1 = 0
    · rw [if_pos hstop, if_pos (show (behindRead a b r).1 = 0 from hstop)]
      rfl
    · rw [if_neg hstop, if_neg (show ¬ (behindRead a b r).1 = 0 from hstop)]
      refine bind_map_comm (hbit.sound.skipBits_writeByte b hmiss (State.skipHop_fits_of_small (by decide))) fun t ht => ?_
      have hgroup := (safe_skipByte hbit.sound).ok t ht
      by_cases hleft : t.left ≤ 0
      · rw [if_pos hleft, if_pos (show (t.writeByte a b).left ≤ 0 from hleft)]
        rfl
      · rw [if_neg hleft, if_neg (show ¬ (t.writeByte a b).left ≤ 0 from hleft)]
        exact ih hgroup.sound (hmiss.of_advances hgroup)

/-! ### READ_VLC -/

/-- The byte at `a` is none of the table's. -/
def State.missesTable (s : State) (table : Word64) (tlen a : Nat) : Prop :=
  ∀ k, k < 4 * tlen → s.wrapAddr (table.toNat + k) ≠ s.wrapAddr a

theorem State.missesTable.of_frame {s t : State} {table : Word64} {tlen a : Nat} (h : s.missesTable table tlen a)
    (hframe : cursorFrame s t) : t.missesTable table tlen a := by
  intro k hk
  rw [State.wrapAddr, State.wrapAddr, cursorFrame_params hframe]
  exact h k hk

theorem State.vlcEntry_writeByte {s : State} {table : Word64} {tlen a : Nat} (b : Byte) (h : s.missesTable table tlen a)
    (i : Int) : (s.writeByte a b).vlcEntry table tlen i = s.vlcEntry table tlen i := by
  unfold State.vlcEntry
  split
  case isTrue => rfl
  case isFalse hin =>
    have hbyte : ∀ k, k < 4 → (s.writeByte a b).readByte (table.toNat + 4 * i.toNat + k) =
        s.readByte (table.toNat + 4 * i.toNat + k) := fun k hk => State.readByte_of_ne b (by
      rw [Nat.add_assoc]
      exact h _ (by omega))
    have hfirst := hbyte 0 (by decide)
    rw [Nat.add_zero] at hfirst
    simp only [hfirst, hbyte 1 (by decide), hbyte 2 (by decide), hbyte 3 (by decide)]

/-- The write, behind a point of a walk. -/
def behindPoint (a : Nat) (b : Byte) (p : VlcPoint) : VlcPoint := { p with reader := p.reader.writeByte a b }

theorem State.vlcLookup_writeByte {s : State} {a : Nat} (b : Byte) (h : s.misses a) {table : Word64} {tlen : Nat}
    (htable : s.missesTable table tlen a) (nb : Nat) (base : Int) :
    (s.writeByte a b).vlcLookup table tlen nb base = (s.vlcLookup table tlen nb base).map (behindPoint a b) := by
  refine bind_map_comm (State.refillFor_writeByte b h nb) fun t ht => ?_
  show ((t.writeByte a b).vlcEntry table tlen _ >>= _) = _
  rw [State.vlcEntry_writeByte b (htable.of_frame (cursorFrame_refillFor ht))]
  exact bind_map_same fun _ _ => rfl

theorem vlcWalk_writeByte {p : VlcPoint} (hs : p.reader.Sound) (hwidth : p.width ≤ 32) {a : Nat} (b : Byte)
    (h : p.reader.misses a) {table : Word64} {tlen : Nat} (htable : p.reader.missesTable table tlen a) (more : Nat) :
    vlcWalk table tlen more (behindPoint a b p) = (vlcWalk table tlen more p).map (behindPoint a b) := by
  induction more generalizing p with
  | zero => rfl
  | succ more ih =>
    rw [vlcWalk, vlcWalk]
    by_cases hsub : p.entry.len < 0
    case neg =>
      rw [if_neg hsub, if_neg (show ¬ (behindPoint a b p).entry.len < 0 from hsub)]
      rfl
    case pos =>
      rw [if_pos hsub, if_pos (show (behindPoint a b p).entry.len < 0 from hsub)]
      refine bind_map_same fun _ hrange => ?_
      have hdrop := Advances.dropBits hs (State.checkRange_ok.mp hrange)
      by_cases hwide : -p.entry.len > 32
      · rw [if_pos hwide, if_pos (show -(behindPoint a b p).entry.len > 32 from hwide)]
        rfl
      · rw [if_neg hwide, if_neg (show ¬ -(behindPoint a b p).entry.len > 32 from hwide)]
        have hmiss := h.of_advances hdrop
        have htable' := htable.of_frame hdrop.frame
        refine bind_map_comm (State.vlcLookup_writeByte b hmiss htable' (-p.entry.len).toNat p.entry.sym) fun q hq => ?_
        have hwithin := (safe_vlcLookup hdrop.sound table tlen p.entry.sym (nb := (-p.entry.len).toNat) (by omega)).ok q hq
        exact ih hwithin.advances.sound hwithin.width_le (hmiss.of_advances hwithin.advances)
          (htable'.of_frame hwithin.advances.frame)

/-- What a body leaves, with its state changed. -/
def Done.mapState (g : State → State) (d : Done) : Done := { d with state := g d.state }

theorem vlcFinish_writeByte (p : VlcPoint) (a : Nat) (b : Byte) :
    vlcFinish (behindPoint a b p) = (vlcFinish p).map (Done.mapState (·.writeByte a b)) := by
  unfold vlcFinish
  by_cases hbad : p.entry.len < 0 ∨ p.entry.len > (p.width : Int)
  · have hbad' : (behindPoint a b p).entry.len < 0 ∨ (behindPoint a b p).entry.len > ((behindPoint a b p).width : Int) := hbad
    rw [if_pos hbad, if_pos hbad']
    rfl
  · have hgood : ¬ ((behindPoint a b p).entry.len < 0 ∨
        (behindPoint a b p).entry.len > ((behindPoint a b p).width : Int)) := hbad
    rw [if_neg hbad, if_neg hgood]
    exact bind_map_same fun _ _ => rfl

/-! ### The commands -/

/-- Every reader command but INIT and SEEK does after a write that misses the window from PTR_OFF on what it does without it. -/
theorem body_writeByte {i : Instr} {s : State} (hs : s.Sound) (hptr : s.ptrOff.toNat < 2 ^ 63) {a : Nat} (b : Byte)
    (h : s.misses a) (hi : isReader i = true) (hwf : i.wellFormed = true) (hinit : ∀ buf n, i ≠ .init buf n)
    (hseek : ∀ pos, i ≠ .seek pos)
    (hvlc : ∀ n d table tlen, i = .readVlc n d table tlen → s.missesTable table tlen.toNat a) :
    body i (s.writeByte a b) = (body i s).map (Done.mapState (·.writeByte a b)) := by
  cases i with
  | init buf n => exact absurd rfl (hinit buf n)
  | seek pos => exact absurd rfl (hseek pos)
  | readBit => exact bind_map_comm (State.takeBit_writeByte b h) fun _ _ => rfl
  | readNz n | readSigned n => exact bind_map_comm (State.takeBits_writeByte b h n.toNat) fun _ _ => rfl
  | peekSigned n => exact bind_map_comm (State.peekBits_writeByte b h n.toNat) fun _ _ => rfl
  | read n =>
    dsimp only [body]
    split
    · rfl
    · exact bind_map_comm (State.takeBits_writeByte b h n.toNat) fun _ _ => rfl
  | peek n =>
    dsimp only [body]
    split
    · rfl
    · exact bind_map_comm (State.peekBits_writeByte b h n.toNat) fun _ _ => rfl
  | read63 n =>
    dsimp only [body]
    split
    · rfl
    · exact bind_map_comm (State.takeWide_writeByte b h n.toNat) fun _ _ => rfl
  | read64 n =>
    dsimp only [body]
    split
    · rfl
    · split
      · exact bind_map_comm (State.takeWide_writeByte b h n.toNat) fun _ _ => rfl
      · refine bind_map_same fun _ _ => ?_
        refine bind_map_comm (State.takeWide_writeByte b h 63) fun r hr => ?_
        have hadv : Advances s r.2 := (safe_takeWide hs (by decide)).ok r hr
        exact bind_map_comm (State.takeBit_writeByte b (h.of_advances hadv)) fun _ _ => rfl
  | skip n =>
    have hhop := skipHop_le (n.toNat - s.valid.toNat)
    have hn : n.toNat < 2 ^ 32 := of_decide_eq_true hwf
    dsimp only [body]
    rw [countOf_eq hn]
    exact bind_map_comm (hs.skipBits_writeByte b h (by omega)) fun _ _ => rfl
  | align =>
    obtain ⟨_, hgap⟩ := s.alignGap_spec
    have hskip : (s.writeByte a b).skipToBoundary = s.skipToBoundary.map (·.writeByte a b) := by
      unfold State.skipToBoundary
      by_cases h0 : s.alignGap ≠ 0
      · rw [if_pos h0, if_pos (show (s.writeByte a b).alignGap ≠ 0 from h0)]
        exact hs.skipBits_writeByte (n := s.alignGap) b h (State.skipHop_fits_of_small (by omega))
      · rw [if_neg h0, if_neg (show ¬ (s.writeByte a b).alignGap ≠ 0 from h0)]
        rfl
    exact bind_map_comm hskip fun _ _ => rfl
  | tell | size | left => rfl
  | readVlc n d table tlen =>
    simp only [Instr.wellFormed, Bool.and_eq_true, decide_eq_true_eq] at hwf
    have htable := hvlc n d table tlen rfl
    refine bind_map_comm (State.vlcLookup_writeByte b h htable n.toNat 0) fun first hfirst => ?_
    have hwithin := (safe_vlcLookup hs table tlen.toNat (nb := n.toNat) 0 (by omega)).ok first hfirst
    exact bind_map_comm
      (vlcWalk_writeByte hwithin.advances.sound hwithin.width_le b (h.of_advances hwithin.advances)
        (htable.of_frame hwithin.advances.frame) (d.toNat - 1))
      fun p _ => vlcFinish_writeByte p a b
  | skip1stop8data =>
    dsimp only [body]
    by_cases hleft : s.left ≤ 0
    · rw [if_pos hleft, if_pos (show (s.writeByte a b).left ≤ 0 from hleft)]
      rfl
    · rw [if_neg hleft, if_neg (show ¬ (s.writeByte a b).left ≤ 0 from hleft)]
      exact bind_map_comm (hs.skipGroups_writeByte b h (s.size.toNat + 1)) fun _ _ => rfl
  | dequant | idctPut | idctAdd | idctDcAdd => cases hi

/-- A change of the state that touches no host register passes through a command if it passes through the command's body. -/
theorem runCommand_map {s : State} (op : BitVec 6) (legal : Bool) {f : State → Except Cause Done} (g : State → State)
    (hfaulted : (g s).faulted = s.faulted) (hrefuse : (g s).refuseFaulted = g s.refuseFaulted)
    (htake : ∀ c, (g s).takeFault op c = g (s.takeFault op c)) (hcomplete : ∀ t v b, (g t).complete v b = g (State.complete t v b))
    (h : s.faulted = false → legal = true → f (g s) = (f s).map (Done.mapState g)) :
    runCommand op legal f (g s) = g (runCommand op legal f s) := by
  rcases runCommand_cases op legal f s with ⟨hs, hr⟩ | ⟨hs, hi, hr⟩ | ⟨hs, hi, c, hc, hr⟩ | ⟨hs, hi, d, hd, hr⟩
  · rw [hr, runCommand_faulted (hfaulted.trans hs), hrefuse]
  · rw [hr, hi, runCommand_illegal (hfaulted.trans hs), htake]
  · have hf := h hs hi
    rw [hc] at hf
    rw [hr, hi, runCommand_error (hfaulted.trans hs) hf, htake]
  · have hf := h hs hi
    rw [hd] at hf
    rw [hr, hi, runCommand_ok (hfaulted.trans hs) hf, ← hcomplete]
    rfl

/-! ### A write that touches no cached byte -/

/-- The cache holds the stream in order after the write, too. -/
theorem State.streamOrdered_writeByte {s : State} (hs : s.Sound) (ho : s.streamOrdered = true) {a : Nat} (b : Byte)
    (h : ∀ k : Nat, s.tell < 8 * ((k : Int) + 1) → k < s.ptrOff.toNat → s.wrapAddr (s.buf.toNat + k) ≠ s.wrapAddr a) :
    (s.writeByte a b).streamOrdered = true := by
  have hbits := s.tell_add_valid
  have hnonneg := hs.cacheOk.tell_nonneg
  rw [State.streamOrdered_iff] at ho ⊢
  intro i hi
  have hi' : i < s.valid.toNat := hi
  have hbyte := State.readByte_of_ne b (h ((s.tell.toNat + i) / 8) (by omega) (by omega))
  refine (ho i hi').trans ?_
  show s.streamBit (s.tell.toNat + i) = (s.writeByte a b).streamBit (s.tell.toNat + i)
  unfold State.streamBit
  rw [State.writeByte_buf, State.writeByte_params, hbyte]

/-- A run of reader commands keeps the invariant and the order, and writes no memory. -/
theorem execAll_reader {js : List Instr} {s u : State} (hinv : s.inv = true) (ho : s.streamOrdered = true)
    (hjs : js.all isReader = true) (h : execAll js s = some u) :
    u.inv = true ∧ u.streamOrdered = true ∧ ∀ x, u.readByte x = s.readByte x := by
  induction js generalizing s with
  | nil =>
    cases h
    exact ⟨hinv, ho, fun _ => rfl⟩
  | cons j js ih =>
    obtain ⟨hj, hjs⟩ := Bool.and_eq_true_iff.mp hjs
    obtain ⟨t, ht, h⟩ := execAll_cons_some.mp h
    obtain ⟨hu, hou, hread⟩ := ih (exec_keeps_inv hinv ht) (readerKeepsStreamOrder j s t hinv ho hj ht) hjs h
    exact ⟨hu, hou, fun x => (hread x).trans ((readerWritesNoMemory j s t hj ht).2 x)⟩

/-- Settles O40: no refill reaches a byte that misses the window from PTR_OFF on, and a write beside the cached bytes leaves
the block ready. -/
theorem cacheIsStaleBelowPointer : Obligations.CacheIsStaleBelowPointer := by
  unfold Obligations.CacheIsStaleBelowPointer
  intro s a b hready
  have hinv := State.inv_of_ready hready
  have hs := State.sound_of_inv hinv
  refine ⟨fun hptr hmiss i t hi hinit hseek hvlc hexec => ?_, fun hcached js i n u hjs hall hf hi hwf hsup => ?_⟩
  · rw [exec_eq] at hexec ⊢
    obtain rfl := Host.Outcome.next.inj hexec
    exact congrArg Host.Outcome.next (runCommand_map i.opcode i.wellFormed (·.writeByte a b) rfl rfl (fun _ => rfl)
      (fun _ _ _ => rfl) fun _ hwf => body_writeByte hs hptr b hmiss hi hwf hinit hseek hvlc)
  · have ho := State.streamOrdered_writeByte hs (State.ordered_of_ready hready) b hcached
    obtain ⟨hinv', ho', hread⟩ := execAll_reader (inv_writeByte hinv a b) ho hjs hall
    have hready' : u.ready = true := by
      rw [State.ready, hinv', ho', hf]
      rfl
    obtain ⟨t, hexec, hres, _, hstatus, _⟩ := readReturnsStreamBits i n u hi hwf hready' hsup
    refine ⟨?_, t, hexec, hstatus, hres⟩
    rw [hread, State.readByte_writeByte, if_pos rfl]

end Sys2Proof.Machine
end

section
/-! PROOFS. The idct_2d output stage: the DC property of the kernels, the samples it writes, the block it spoils, and that it
does not depend on the reader (43_reconstruction.md sections 1, 3 and 4). -/

namespace Sys2Proof.Machine

/-! ### The DC property of the kernels -/

theorem getD_replicate {α : Type} {n i : Nat} (v d : α) (h : i < n) : (List.replicate n v).getD i d = v := by
  rw [List.getD_eq_getElem _ _ (by rw [List.length_replicate]; exact h), List.getElem_replicate]

theorem getD_range_map {α : Type} (f : Nat → α) {n i : Nat} (d : α) (h : i < n) : ((List.range n).map f).getD i d = f i := by
  rw [List.getD_eq_getElem _ _ (by rw [List.length_map, List.length_range]; exact h), List.getElem_map, List.getElem_range]

/-- A list of 64 integers that are 0 from index 1 on. -/
theorem eq_cons_replicate {c : List Int} (hlen : c.length = 64) (hzero : ∀ i, 1 ≤ i → i < 64 → c.getD i 0 = 0) :
    c = c.getD 0 0 :: List.replicate 63 0 := by
  refine List.ext_getElem (by rw [hlen]; rfl) fun i hi _ => ?_
  rw [hlen] at hi
  cases i with
  | zero => exact (List.getD_eq_getElem c 0 _).symm
  | succ i =>
    rw [List.getElem_cons_succ, List.getElem_replicate, ← List.getD_eq_getElem c 0 (by omega)]
    exact hzero (i + 1) (by omega) hi

/-- A line whose values are 0 but for its first is constant after a pass (43_reconstruction.md R130). -/
theorem idctLine_of_dc {t : List Int} {base step : Nat} (h : ∀ i, 1 ≤ i → i < 8 → t.getD (base + i * step) 0 = 0) :
    idctLine t base step = List.replicate 8 (t.getD base 0) := by
  unfold idctLine
  simp only [h 1 (by decide) (by decide), h 2 (by decide) (by decide), h 3 (by decide) (by decide), h 4 (by decide) (by decide),
    h 5 (by decide) (by decide), h 6 (by decide) (by decide), h 7 (by decide) (by decide), Nat.zero_mul, Nat.add_zero]
  simp [idct1, asr, List.replicate]

/-- A pass over lines that are all constant. -/
theorem idctPass_of_lines {t : List Int} {next step : Nat} {f : Nat → Int}
    (h : ∀ l, l < 8 → idctLine t (l * next) step = List.replicate 8 (f l)) :
    idctPass t next step = (List.range 64).map (fun i => f (i / next % 8)) := by
  unfold idctPass
  refine List.map_congr_left fun i _ => ?_
  have hl : i / next % 8 < 8 := Nat.mod_lt _ (by decide)
  rw [getD_range_map (fun l => idctLine t (l * next) step) [] hl, h _ hl, getD_replicate _ _ (Nat.mod_lt _ (by decide))]

/-- The default kernel on a DC-only block: the columns spread the DC term over the first row, the rows over the block. -/
theorem idctDefault_of_dc (c0 : Int) : idctDefault (c0 :: List.replicate 63 0) = List.replicate 64 (dcResidual c0) := by
  have hbiased : ∀ i, 1 ≤ i → i < 64 → ((c0 + 32) :: List.replicate 63 0 : List Int).getD i 0 = 0 := by
    intro i hi hlt
    obtain ⟨j, rfl⟩ : ∃ j, i = j + 1 := ⟨i - 1, by omega⟩
    rw [List.getD_cons_succ, getD_replicate _ _ (by omega)]
  have hcolumns : idctPass ((c0 + 32) :: List.replicate 63 0) 1 8 =
      (List.range 64).map (fun i => ((c0 + 32) :: List.replicate 63 0 : List Int).getD (i % 8) 0) := by
    rw [idctPass_of_lines (f := fun l => ((c0 + 32) :: List.replicate 63 0 : List Int).getD l 0)]
    · simp only [Nat.div_one]
    · intro l hl
      rw [idctLine_of_dc fun i hi hlt => hbiased _ (by omega) (by omega), Nat.mul_one]
  have hrows : idctPass ((List.range 64).map (fun i => ((c0 + 32) :: List.replicate 63 0 : List Int).getD (i % 8) 0)) 8 1 =
      List.replicate 64 (c0 + 32) := by
    rw [idctPass_of_lines (f := fun _ => c0 + 32), List.map_const', List.length_range]
    intro l hl
    rw [idctLine_of_dc]
    · rw [getD_range_map _ _ (by omega), show l * 8 % 8 = 0 by omega, List.getD_cons_zero]
    · intro i hi hlt
      rw [getD_range_map _ _ (by omega), show (l * 8 + i * 1) % 8 = i by omega]
      exact hbiased i hi (by omega)
  unfold idctDefault
  rw [List.getD_cons_zero, List.drop_one, List.tail_cons]
  dsimp only
  rw [hcolumns, hrows, List.map_replicate]
  rfl

theorem idct8_of_dc (kernel : Kernel) {c : List Int} (hlen : c.length = 64) (hzero : ∀ i, 1 ≤ i → i < 64 → c.getD i 0 = 0) :
    idct8 kernel c = List.replicate 64 (dcResidual (c.getD 0 0)) := by
  have hc := eq_cons_replicate hlen hzero
  generalize c.getD 0 0 = c0 at hc
  subst hc
  cases kernel with
  | h264 => exact idctDefault_of_dc c0
  | other id =>
    rw [idct8, if_pos]
    · rfl
    · rw [List.drop_one, List.tail_cons, List.all_eq_true]
      intro v hv
      exact decide_eq_true (List.eq_of_mem_replicate hv)

/-- Settles O54: each kernel is the DC residual on such a block, and the DC residual is the shifted sum. -/
theorem kernelKeepsDcProperty : Obligations.KernelKeepsDcProperty := by
  unfold Obligations.KernelKeepsDcProperty
  intro kernel c hlen hzero
  have hdc := idct8_of_dc kernel hlen hzero
  refine ⟨hdc, fun h0 => ?_⟩
  rw [hdc, h0]
  rfl

/-- The 64 coefficients of a block, one by one. -/
theorem State.coefs_getD (s : State) (blk : Word64) {k : Nat} (h : k < 64) : (s.coefs blk).getD k 0 = s.coef blk k :=
  getD_range_map _ _ h

theorem State.coefs_length (s : State) (blk : Word64) : (s.coefs blk).length = 64 := by
  rw [State.coefs, List.length_map, List.length_range]

theorem idct8_coefs_of_dc {s : State} {blk : Word64} (h : ∀ k, 1 ≤ k → k < 64 → s.coef blk k = 0) :
    idct8 s.params.kernel (s.coefs blk) = List.replicate 64 (dcResidual (s.coef blk 0)) := by
  rw [idct8_of_dc s.params.kernel (s.coefs_length blk) fun i hi hlt => (s.coefs_getD blk hlt).trans (h i hi hlt),
    s.coefs_getD blk (by decide)]

/-! ### What a completed output command leaves -/

/-- The residual IDCT_ADD adds: the DC term alone with LAST = 0 (43_reconstruction.md R129). -/
def State.addResiduals (s : State) (n : BitVec 7) (blk : Word64) : List Int :=
  if lastOf n = 0 then List.replicate 64 (dcResidual (s.coef blk 0)) else idct8 s.params.kernel (s.coefs blk)

theorem exec_idctPut {s : State} {stride : BitVec 16} (blk dst : Word64) (hf : s.faulted = false) (hstride : 8 ≤ stride.toNat) :
    exec (.idctPut stride blk dst) s =
      .next (((s.putSamples dst stride (idct8 s.params.kernel (s.coefs blk)) 64).spoilBlock blk).complete 0 false) :=
  exec_of_ok (i := .idctPut stride blk dst)
    (d := ⟨(s.putSamples dst stride (idct8 s.params.kernel (s.coefs blk)) 64).spoilBlock blk, 0, false⟩) hf
    (decide_eq_true hstride) rfl

theorem exec_idctDcAdd {s : State} {stride : BitVec 16} (blk dst : Word64) (hf : s.faulted = false)
    (hstride : 8 ≤ stride.toNat) :
    exec (.idctDcAdd stride blk dst) s =
      .next (((s.addSamples dst stride (List.replicate 64 (dcResidual (s.coef blk 0))) 64).spoilBlock blk).complete 0 false) :=
  exec_of_ok (i := .idctDcAdd stride blk dst)
    (d := ⟨(s.addSamples dst stride (List.replicate 64 (dcResidual (s.coef blk 0))) 64).spoilBlock blk, 0, false⟩) hf
    (decide_eq_true hstride) rfl

theorem body_idctAdd {s : State} {n : BitVec 7} {stride : BitVec 16} (blk dst : Word64) (hn : 1 ≤ n.toNat) :
    body (.idctAdd n stride blk dst) s =
      .ok ⟨(s.addSamples dst stride (s.addResiduals n blk) 64).spoilBlock blk, 0, false⟩ := by
  have hlast : ¬ lastOf n < 0 := by
    unfold lastOf
    omega
  rw [body, if_neg hlast]
  rfl

theorem exec_idctAdd {s : State} {n : BitVec 7} {stride : BitVec 16} (blk dst : Word64) (hf : s.faulted = false)
    (hstride : 8 ≤ stride.toNat) (hn : 1 ≤ n.toNat) (hle : n.toNat ≤ 64) :
    exec (.idctAdd n stride blk dst) s =
      .next (((s.addSamples dst stride (s.addResiduals n blk) 64).spoilBlock blk).complete 0 false) := by
  have hwf : (Instr.idctAdd n stride blk dst).wellFormed = true := by
    rw [Instr.wellFormed, decide_eq_true hstride, decide_eq_true hle]
    rfl
  have hexec := exec_of_ok hf hwf (body_idctAdd (stride := stride) (s := s) blk dst hn)
  exact hexec

theorem memoryFrame_spoiled {s u : State} (blk : Word64) (hu : u = { s with mem := u.mem }) :
    memoryFrame s ((u.spoilBlock blk).complete 0 false) := by
  have hframe := outputFrame_spoilBlock blk hu
  generalize u.spoilBlock blk = v at hframe ⊢
  unfold outputFrame at hframe
  unfold memoryFrame
  rw [hframe]
  rfl

theorem State.ne_of_not_inBlock {s : State} {blk : Word64} {a : Nat} (h : s.inBlock blk a = false) {j : Nat} (hj : j < 128) :
    s.wrapAddr a ≠ s.wrapAddr (blk.toNat + j) := by
  unfold State.inBlock at h
  rw [List.any_eq_false] at h
  intro heq
  exact h j (List.mem_range.mpr hj) (decide_eq_true heq.symm)

theorem State.ne_of_not_isSample {s : State} {dst : Word64} {stride : BitVec 16} {a : Nat}
    (h : s.isSample dst stride a = false) {i : Nat} (hi : i < 64) : s.wrapAddr a ≠ s.wrapAddr (dstAddr dst stride i) := by
  unfold State.isSample at h
  rw [List.any_eq_false] at h
  intro heq
  exact h i (List.mem_range.mpr hi) (decide_eq_true heq.symm)

/-- A byte outside the block reads as the samples left it. -/
theorem readByte_spoiled {s u : State} {blk : Word64} (hu : u = { s with mem := u.mem }) {a : Nat}
    (ha : s.inBlock blk a = false) : ((u.spoilBlock blk).complete 0 false).readByte a = u.readByte a := by
  obtain ⟨_, hout, _⟩ := u.forgetBytes_spec blk.toNat 128
  have hparams : u.params = s.params := by rw [hu]
  rw [State.complete_readByte, State.spoilBlock]
  refine hout a fun j hj => ?_
  have hne := State.ne_of_not_inBlock ha hj
  unfold State.wrapAddr at hne ⊢
  rwa [hparams]

/-- Settles O55: each sample is written once, and the spoiled block leaves the samples outside it. -/
theorem putWritesClippedResiduals : Obligations.PutWritesClippedResiduals := by
  unfold Obligations.PutWritesClippedResiduals
  intro s stride blk dst hf hstride hapart
  have hdistinct := s.samples_distinct dst stride hstride hapart
  have hframe := s.putSamples_frame dst stride (idct8 s.params.kernel (s.coefs blk)) 64
  refine ⟨_, exec_idctPut blk dst hf hstride, memoryFrame_spoiled blk hframe, rfl, rfl, fun i hi hblk => ?_,
    fun a hblk hsample => ?_⟩
  · rw [readByte_spoiled hframe hblk, State.putSamples_inside s dst stride _ 64 i hi hdistinct]
    refine ⟨clip8_toNat _, fun hzero => ?_⟩
    rw [idct8_coefs_of_dc fun k _ hk => hzero k hk, hzero 0 (by decide), getD_replicate _ _ hi]
    decide
  · rw [readByte_spoiled hframe hblk]
    exact State.putSamples_outside s dst stride _ 64 a fun i hi => State.ne_of_not_isSample hsample hi

/-- The samples after an addition, and the bytes beside them. -/
theorem readByte_added {s : State} {stride : BitVec 16} (blk dst : Word64) (r : List Int) (hstride : 8 ≤ stride.toNat)
    (hapart : s.samplesApart stride = true) :
    (∀ i, i < 64 → s.inBlock blk (dstAddr dst stride i) = false →
      (((((s.addSamples dst stride r 64).spoilBlock blk).complete 0 false).readByte (dstAddr dst stride i)).toNat : Int) =
        min (max (((s.readByte (dstAddr dst stride i)).toNat : Int) + r.getD i 0) 0) 255) ∧
    ∀ a, s.inBlock blk a = false → s.isSample dst stride a = false →
      (((s.addSamples dst stride r 64).spoilBlock blk).complete 0 false).readByte a = s.readByte a := by
  have hframe := s.addSamples_frame dst stride r 64
  refine ⟨fun i hi hblk => ?_, fun a hblk hsample => ?_⟩
  · rw [readByte_spoiled hframe hblk,
      State.addSamples_inside s dst stride r 64 i hi (s.samples_distinct dst stride hstride hapart), clip8_toNat]
  · rw [readByte_spoiled hframe hblk]
    exact State.addSamples_outside s dst stride r 64 a fun i hi => State.ne_of_not_isSample hsample hi

/-- Settles O56: each sample is read and written once, with the residuals of LAST. -/
theorem addWritesClippedSums : Obligations.AddWritesClippedSums := by
  unfold Obligations.AddWritesClippedSums
  intro s n stride blk dst hf hstride hn hle hapart
  obtain ⟨hsamples, hrest⟩ := readByte_added (s := s) blk dst (s.addResiduals n blk) hstride hapart
  refine ⟨_, exec_idctAdd blk dst hf hstride hn hle, memoryFrame_spoiled blk (s.addSamples_frame dst stride _ 64), rfl, rfl,
    fun i hi hblk => ?_, hrest⟩
  rw [hsamples i hi hblk, State.addResiduals]
  by_cases h1 : n.toNat = 1
  · have hlast : lastOf n = 0 := by
      rw [lastOf, h1]
      rfl
    rw [if_pos hlast, if_pos h1, getD_replicate _ _ hi]
    rfl
  · have hlast : ¬ lastOf n = 0 := by
      unfold lastOf
      omega
    rw [if_neg hlast, if_neg h1]

/-- Settles O57: each sample is read and written once, with the DC residual. -/
theorem dcAddWritesClippedSums : Obligations.DcAddWritesClippedSums := by
  unfold Obligations.DcAddWritesClippedSums
  intro s stride blk dst hf hstride hapart
  obtain ⟨hsamples, hrest⟩ := readByte_added (s := s) blk dst (List.replicate 64 (dcResidual (s.coef blk 0))) hstride hapart
  refine ⟨_, exec_idctDcAdd blk dst hf hstride, memoryFrame_spoiled blk (s.addSamples_frame dst stride _ 64), rfl, rfl,
    fun i hi hblk => ?_, hrest⟩
  rw [hsamples i hi hblk, getD_replicate _ _ hi]
  rfl

/-- The block after a command that spoils it, and the count of the free values it took. -/
theorem unspecified_of_spoiled {s u : State} (blk : Word64) (hu : u = { s with mem := u.mem }) :
    ((u.spoilBlock blk).complete 0 false).freeCount = s.freeCount + 128 ∧
      ∀ a, s.inBlock blk a = true → ∃ k, s.freeCount ≤ k ∧ k < s.freeCount + 128 ∧
        ((u.spoilBlock blk).complete 0 false).readByte a = Config.freeByte k := by
  simp only [State.complete_readByte, State.complete_freeCount, State.spoilBlock]
  obtain ⟨hframe, _, hin⟩ := u.forgetBytes_spec blk.toNat 128
  have hcount : u.freeCount = s.freeCount := by rw [hu]
  have hparams : u.params = s.params := by rw [hu]
  rw [hcount] at hframe hin
  refine ⟨?_, fun a ha => ?_⟩
  · rw [hframe]
  · unfold State.inBlock at ha
    rw [List.any_eq_true] at ha
    obtain ⟨j, hj, heq⟩ := ha
    refine hin a j (List.mem_range.mp hj) ?_
    unfold State.wrapAddr
    rw [hparams]
    exact (of_decide_eq_true heq).symm

/-- Settles O58: all three commands end by spoiling the block of a state that differs in memory alone. -/
theorem blockIsUnspecifiedAfterIdct : Obligations.BlockIsUnspecifiedAfterIdct := by
  unfold Obligations.BlockIsUnspecifiedAfterIdct
  intro s t i stride blk dst n hf hwf hn hi hexec
  have hspoiled : ∃ u : State, u = { s with mem := u.mem } ∧ t = (u.spoilBlock blk).complete 0 false := by
    rcases hi with rfl | rfl | rfl
    · rw [exec_idctPut blk dst hf (of_decide_eq_true hwf)] at hexec
      exact ⟨_, s.putSamples_frame dst stride _ 64, (Host.Outcome.next.inj hexec).symm⟩
    · rw [exec_of_ok hf hwf (body_idctAdd blk dst hn)] at hexec
      exact ⟨_, s.addSamples_frame dst stride _ 64, (Host.Outcome.next.inj hexec).symm⟩
    · rw [exec_idctDcAdd blk dst hf (of_decide_eq_true hwf)] at hexec
      exact ⟨_, s.addSamples_frame dst stride _ 64, (Host.Outcome.next.inj hexec).symm⟩
  obtain ⟨u, hu, rfl⟩ := hspoiled
  obtain ⟨hcount, hbytes⟩ := unspecified_of_spoiled blk hu
  rw [hcount]
  exact ⟨rfl, hbytes⟩

/-- Settles O59: on such a block both commands add the same residuals. -/
theorem dcPathsAgree : Obligations.DcPathsAgree := by
  unfold Obligations.DcPathsAgree
  intro s n stride blk dst hstride hn hle hzero
  cases hf : s.faulted with
  | true => rw [exec_of_faulted _ hf, exec_of_faulted _ hf]
  | false =>
    have hresiduals : s.addResiduals n blk = List.replicate 64 (dcResidual (s.coef blk 0)) := by
      unfold State.addResiduals
      split
      · rfl
      · exact idct8_coefs_of_dc hzero
    rw [exec_idctAdd blk dst hf hstride hn hle, exec_idctDcAdd blk dst hf hstride, hresiduals]

end Sys2Proof.Machine
end

section
/-! PROOFS. DEQUANT by its values, and the idct_2d commands beside the reader: they neither change nor use it
(43_reconstruction.md sections 1 and 2). -/

namespace Sys2Proof.Machine

/-! ### The output stage does not use the reader -/

/-- What belongs to the reader: its registers, and the parameters ENDIAN and CHECKED. -/
structure ReaderPart where
  endian : Endian
  checked : Bool
  buf : Word64
  ptrOff : Word64
  cache : Word64
  byteLen : Word32
  size : Word32
  valid : BitVec 7

/-- The block with another reader. -/
def State.withReader (r : ReaderPart) (s : State) : State :=
  { s with
    params := { s.params with endian := r.endian, checked := r.checked }
    buf := r.buf, ptrOff := r.ptrOff, cache := r.cache, byteLen := r.byteLen, size := r.size, valid := r.valid }

theorem State.withReader_forgetBytes (r : ReaderPart) (s : State) (a n : Nat) :
    (s.withReader r).forgetBytes a n = (s.forgetBytes a n).withReader r := by
  induction n with
  | zero => rfl
  | succ n ih =>
    rw [State.forgetBytes, State.forgetBytes, ih]
    rfl

theorem State.withReader_putSamples (r : ReaderPart) (s : State) (dst : Word64) (stride : BitVec 16) (l : List Int) (n : Nat) :
    (s.withReader r).putSamples dst stride l n = (s.putSamples dst stride l n).withReader r := by
  induction n with
  | zero => rfl
  | succ n ih =>
    rw [State.putSamples, State.putSamples, ih]
    rfl

theorem State.withReader_addSamples (r : ReaderPart) (s : State) (dst : Word64) (stride : BitVec 16) (l : List Int) (n : Nat) :
    (s.withReader r).addSamples dst stride l n = (s.addSamples dst stride l n).withReader r := by
  induction n with
  | zero => rfl
  | succ n ih =>
    rw [State.addSamples, State.addSamples, ih]
    rfl

theorem State.withReader_writeAssigned (r : ReaderPart) (s : State) (blk : Word64) (out : List (Nat × Int)) (n : Nat) :
    (s.withReader r).writeAssigned blk out n = (s.writeAssigned blk out n).withReader r := by
  induction n with
  | zero => rfl
  | succ n ih =>
    rw [State.writeAssigned, State.writeAssigned, ih]
    cases lookupAt out n with
    | none => rfl
    | some v => rfl

theorem State.withReader_dequantScan (r : ReaderPart) (s : State) (blk mat : Word64) (f : AcQuant) (q : Nat) (ks : List Nat)
    (out : List (Nat × Int)) : (s.withReader r).dequantScan blk mat f q ks out = s.dequantScan blk mat f q ks out := by
  induction ks generalizing out with
  | nil => rfl
  | cons k ks ih =>
    rw [State.dequantScan, State.dequantScan, ih, ih]
    rfl

theorem body_withReader {i : Instr} (hi : isReader i = false) (r : ReaderPart) (s : State) :
    body i (s.withReader r) = (body i s).map (Done.mapState (State.withReader r)) := by
  cases i with
  | dequant n intra nonlin losslessDc qscale dcScale blk mat =>
    dsimp only [body]
    split
    · rfl
    · rw [State.withReader_dequantScan]
      refine bind_map_same fun out _ => ?_
      rw [State.withReader_writeAssigned]
      split
      · rfl
      · rfl
  | idctPut stride blk dst =>
    rw [body, body, State.withReader_putSamples, State.spoilBlock, State.withReader_forgetBytes]
    rfl
  | idctAdd n stride blk dst =>
    dsimp only [body]
    split
    · rfl
    · rw [State.withReader_addSamples, State.spoilBlock, State.withReader_forgetBytes]
      rfl
  | idctDcAdd stride blk dst =>
    rw [body, body, State.withReader_addSamples, State.spoilBlock, State.withReader_forgetBytes]
    rfl
  | init | readBit | read | readNz | read63 | read64 | readSigned | peek | peekSigned | skip | seek | align | tell | size
  | left | readVlc | skip1stop8data => cases hi

theorem exec_withReader {i : Instr} (hi : isReader i = false) (r : ReaderPart) {s t : State} (h : exec i s = .next t) :
    exec i (s.withReader r) = .next (t.withReader r) := by
  rw [exec_eq] at h ⊢
  obtain rfl := Host.Outcome.next.inj h
  exact congrArg Host.Outcome.next (runCommand_map i.opcode i.wellFormed (State.withReader r) rfl rfl (fun _ => rfl)
    (fun _ _ _ => rfl) fun _ _ => body_withReader hi r s)

/-- Settles O26: no body of the output stage reads what belongs to the reader, and none writes it. -/
theorem outputStageIgnoresReader : Obligations.OutputStageIgnoresReader := by
  unfold Obligations.OutputStageIgnoresReader
  intro i s t hi h
  refine ⟨?_, fun e c buf ptrOff cache byteLen size valid =>
    exec_withReader hi ⟨e, c, buf, ptrOff, cache, byteLen, size, valid⟩ h⟩
  cases ends_of_exec h with
  | refused | illegal | faulted => rfl
  | completed _ _ d hd =>
    have hframe := (leaves_of_body hd).output hi
    unfold outputFrame at hframe
    generalize d.state = u at hframe ⊢
    rw [hframe]
    rfl

/-! ### The scan order -/

/-- SCAN is a permutation of 0..63 that starts with 0 (43_reconstruction.md R125). -/
theorem scan_perm {p : Params} (h : p.ok = true) : List.Perm (List.range 64) p.scan ∧ p.scan.length = 64 ∧ p.scan.getD 0 64 = 0 := by
  simp only [Params.ok, Bool.and_eq_true, decide_eq_true_eq, List.all_eq_true, List.mem_range, List.contains_iff_mem] at h
  obtain ⟨⟨⟨⟨⟨_, hlen⟩, hall⟩, hzero⟩, _⟩, _⟩ := h
  refine ⟨?_, hlen, hzero⟩
  have hsub : List.Subperm (List.range 64) p.scan := List.subperm_of_subset List.nodup_range fun k hk => hall k (List.mem_range.mp hk)
  exact hsub.perm_of_length_le (by rw [hlen, List.length_range])

/-- Every scanned position is a raster position, and one that starts after the first is not position 0. -/
theorem mem_scanPositions {p : Params} (h : p.ok = true) {start n k : Nat} (hn : n ≤ 64) (hk : k ∈ scanPositions p start n) :
    k < 64 ∧ (1 ≤ start → k ≠ 0) := by
  obtain ⟨hperm, hlen, hzero⟩ := scan_perm h
  obtain ⟨i, hi, rfl⟩ := List.mem_map.mp hk
  obtain ⟨j, hj, rfl⟩ := List.mem_iff_getElem.mp hi
  rw [List.length_drop, List.length_range] at hj
  rw [List.getElem_drop, List.getElem_range]
  have hin : start + j < p.scan.length := by omega
  rw [List.getD_eq_getElem _ _ hin]
  refine ⟨List.mem_range.mp (hperm.mem_iff.mpr (List.getElem_mem hin)), fun hstart h0 => ?_⟩
  have hpos : 0 < p.scan.length := by omega
  rw [List.getD_eq_getElem _ _ hpos] at hzero
  have hsame := (List.Nodup.getElem_inj_iff (hperm.nodup_iff.mp List.nodup_range) (hi := hin) (hj := hpos)).mp
    (h0.trans hzero.symm)
  omega

/-! ### What DEQUANT assigns -/

/-- A value a sparse list gives stands in it. -/
theorem mem_of_lookupAt {α : Type} {l : List (Nat × α)} {k : Nat} {v : α} (h : lookupAt l k = some v) : (k, v) ∈ l := by
  induction l with
  | nil => cases h
  | cons e l ih =>
    rw [lookupAt] at h
    split at h
    case isTrue hk =>
      cases h
      exact hk ▸ List.mem_cons_self ..
    case isFalse => exact List.mem_cons_of_mem _ (ih h)

/-- What the scan loop adds to its list: values of the AC function at scanned positions (43_reconstruction.md R122). -/
theorem State.mem_dequantScan {s : State} {blk mat : Word64} {f : AcQuant} {q : Nat} {ks : List Nat}
    {out res : List (Nat × Int)} (h : s.dequantScan blk mat f q ks out = .ok res) {e : Nat × Int} (he : e ∈ res) :
    e ∈ out ∨ (e.1 ∈ ks ∧ s.coef blk e.1 ≠ 0 ∧ e.2 = acQuant f (s.coef blk e.1) q (s.matEntry mat e.1)) := by
  induction ks generalizing out with
  | nil =>
    cases h
    exact .inl he
  | cons k ks ih =>
    rw [State.dequantScan] at h
    split at h
    · exact (ih h).imp_right fun ⟨hk, hrest⟩ => ⟨List.mem_cons_of_mem _ hk, hrest⟩
    · rename_i hc
      split at h
      · cases h
      · rcases ih h with hmem | ⟨hk, hrest⟩
        · rcases List.mem_cons.mp hmem with rfl | hmem
          · exact .inr ⟨List.mem_cons_self .., hc, rfl⟩
          · exact .inl hmem
        · exact .inr ⟨List.mem_cons_of_mem _ hk, hrest⟩

/-- The operands of a DEQUANT. -/
structure DequantOps where
  n : BitVec 7
  intra : Bool
  nonlin : Bool
  losslessDc : Bool
  qscale : BitVec 5
  dcScale : BitVec 8
  blk : Word64
  mat : Word64

/-- The command of some operands. -/
def DequantOps.instr (o : DequantOps) : Instr :=
  .dequant o.n o.intra o.nonlin o.losslessDc o.qscale o.dcScale o.blk o.mat

/-- The scan loop of a DEQUANT: the coefficients it assigns, or its fault (43_reconstruction.md R122). -/
def DequantOps.scan (o : DequantOps) (s : State) : Except Cause (List (Nat × Int)) :=
  s.dequantScan o.blk o.mat (if o.intra then s.params.acIntra else s.params.acInter) (mappedScale s.params o.nonlin o.qscale)
    (scanPositions s.params (if o.intra then 1 else 0) o.n.toNat)
    (if o.intra && !o.losslessDc then [(0, s.coef o.blk 0 * (o.dcScale.toNat : Int))] else [])

/-- The value of coefficient `k`, if DEQUANT assigns it. -/
def DequantOps.value (o : DequantOps) (s : State) (k : Nat) : Option Int :=
  s.dequantValue o.blk o.mat o.n.toNat o.intra o.nonlin o.losslessDc o.qscale o.dcScale k

theorem DequantOps.body_eq {o : DequantOps} (hn : 1 ≤ o.n.toNat) (s : State) :
    body o.instr s = o.scan s >>= fun out =>
      if out.all (fun e => fitsInt16 e.2) then .ok ⟨s.writeAssigned o.blk out 64, 0, false⟩ else .error .coefRange := by
  have hlast : ¬ lastOf o.n < 0 := by
    unfold lastOf
    omega
  rw [DequantOps.instr, body, if_neg hlast]
  rfl

/-- The scan loop assigns each coefficient the value the spec gives it: the DC one, which no scanned position of an intra block
is, or that of the AC function (43_reconstruction.md R122, R126). -/
theorem DequantOps.lookup_scan {o : DequantOps} {s : State} (hok : s.params.ok = true) (hn : o.n.toNat ≤ 64)
    {out : List (Nat × Int)} (h : o.scan s = .ok out) (k : Nat) : lookupAt out k = o.value s k := by
  rw [State.dequantScan_lookup h, DequantOps.value, State.dequantValue]
  cases hdc : o.intra && !o.losslessDc with
  | false =>
    rw [Bool.false_and, if_neg Bool.false_ne_true]
    simp only [Bool.and_eq_true, List.contains_iff_mem, decide_eq_true_eq, ne_eq, Bool.false_eq_true, if_false]
    rfl
  | true =>
    obtain ⟨hintra, _⟩ := Bool.and_eq_true_iff.mp hdc
    rw [Bool.true_and, if_pos rfl]
    by_cases h0 : k = 0
    · have hnot : ¬ k ∈ scanPositions s.params (if o.intra then 1 else 0) o.n.toNat := fun hk =>
        (mem_scanPositions hok hn hk).2 (by rw [if_pos hintra]) h0
      rw [if_neg fun hk => hnot hk.1, if_pos (decide_eq_true h0), h0]
      rfl
    · rw [if_neg (c := decide (k = 0) = true) (by simpa using h0)]
      simp only [Bool.and_eq_true, List.contains_iff_mem, decide_eq_true_eq, ne_eq]
      rw [show lookupAt [(0, s.coef o.blk 0 * (o.dcScale.toNat : Int))] k = none from if_neg (Ne.symm h0)]

/-- Every coefficient the scan loop lists is one of the 64, and has the value listed. -/
theorem DequantOps.value_of_mem_scan {o : DequantOps} {s : State} (hok : s.params.ok = true) (hn : o.n.toNat ≤ 64)
    {out : List (Nat × Int)} (h : o.scan s = .ok out) {e : Nat × Int} (he : e ∈ out) : e.1 < 64 ∧ o.value s e.1 = some e.2 := by
  rcases State.mem_dequantScan h he with hdc | ⟨hk, hc, hv⟩
  · split at hdc
    case isTrue hcond =>
      rw [List.mem_singleton] at hdc
      subst hdc
      refine ⟨show 0 < 64 by decide, ?_⟩
      rw [DequantOps.value, State.dequantValue, hcond]
      rfl
    case isFalse => cases hdc
  · refine ⟨(mem_scanPositions hok hn hk).1, ?_⟩
    rw [← DequantOps.lookup_scan hok hn h, State.dequantScan_lookup h, if_pos ⟨hk, hc⟩, hv]

theorem fitsInt16_iff (v : Int) : fitsInt16 v = true ↔ -32768 ≤ v ∧ v ≤ 32767 := by
  rw [fitsInt16, Bool.and_eq_true, decide_eq_true_eq, decide_eq_true_eq]

/-- The scan loop completes unless it meets a zero matrix entry (43_reconstruction.md R122). -/
theorem DequantOps.scan_cases (o : DequantOps) (s : State) :
    (s.zeroMatrixMet o.blk o.mat o.n.toNat o.intra = true ∧ o.scan s = .error .paramRange) ∨
      (s.zeroMatrixMet o.blk o.mat o.n.toNat o.intra = false ∧ ∃ out, o.scan s = .ok out) := by
  have hmet : s.zeroMatrixMet o.blk o.mat o.n.toNat o.intra = true ↔
      ∃ k ∈ scanPositions s.params (if o.intra then 1 else 0) o.n.toNat, s.coef o.blk k ≠ 0 ∧ s.matEntry o.mat k = 0 := by
    simp only [State.zeroMatrixMet, List.any_eq_true, Bool.and_eq_true, decide_eq_true_eq]
  cases hz : s.zeroMatrixMet o.blk o.mat o.n.toNat o.intra with
  | true => exact .inl ⟨rfl, State.dequantScan_error.mpr ⟨hmet.mp hz, rfl⟩⟩
  | false =>
    refine .inr ⟨rfl, ?_⟩
    cases hscan : o.scan s with
    | ok out => exact ⟨out, rfl⟩
    | error c =>
      rw [hmet.mpr (State.dequantScan_error.mp hscan).1] at hz
      cases hz

theorem DequantOps.n_le {o : DequantOps} (hwf : o.instr.wellFormed = true) : o.n.toNat ≤ 64 := by
  simp only [DequantOps.instr, Instr.wellFormed, Bool.and_eq_true, decide_eq_true_eq] at hwf
  omega

theorem DequantOps.body_of_scan {o : DequantOps} {s : State} (hn : 1 ≤ o.n.toNat) {out : List (Nat × Int)}
    (h : o.scan s = .ok out) :
    body o.instr s =
      if out.all (fun e => fitsInt16 e.2) then .ok ⟨s.writeAssigned o.blk out 64, 0, false⟩ else .error .coefRange := by
  rw [DequantOps.body_eq hn, h]
  rfl

/-- A zero matrix entry at a processed position (43_reconstruction.md R122). -/
theorem DequantOps.exec_of_zeroMatrix {o : DequantOps} {s : State} (hf : s.faulted = false) (hwf : o.instr.wellFormed = true)
    (hn : 1 ≤ o.n.toNat) (hmet : s.zeroMatrixMet o.blk o.mat o.n.toNat o.intra = true) :
    exec o.instr s = .next { s with fault := 0x2006, status := 3 } := by
  have hbody : body o.instr s = .error .paramRange := by
    rcases o.scan_cases s with ⟨_, hscan⟩ | ⟨hno, _⟩
    · rw [DequantOps.body_eq hn, hscan]
      rfl
    · simp [hmet] at hno
  have hword : faultWord 0x20 .paramRange = 0x2006 := by decide
  exact (exec_of_error hf hwf hbody).trans (by rw [State.takeFault, ← hword]; rfl)

/-- A value outside int16, and no zero matrix entry before it (43_reconstruction.md R127). -/
theorem DequantOps.exec_of_overflow {o : DequantOps} {s : State} (hok : s.params.ok = true) (hf : s.faulted = false)
    (hwf : o.instr.wellFormed = true) (hn : 1 ≤ o.n.toNat) (hmet : s.zeroMatrixMet o.blk o.mat o.n.toNat o.intra = false)
    {k : Nat} {v : Int} (hv : o.value s k = some v) (hrange : v < -32768 ∨ 32767 < v) :
    exec o.instr s = .next { s with fault := 0x2005, status := 3 } := by
  have hbody : body o.instr s = .error .coefRange := by
    rcases o.scan_cases s with ⟨hyes, _⟩ | ⟨_, out, hscan⟩
    · simp [hmet] at hyes
    · have hmem := mem_of_lookupAt ((DequantOps.lookup_scan hok (DequantOps.n_le hwf) hscan k).trans hv)
      rw [DequantOps.body_of_scan hn hscan, if_neg]
      intro hall
      have := (fitsInt16_iff v).mp (List.all_eq_true.mp hall (k, v) hmem)
      omega
  have hword : faultWord 0x20 .coefRange = 0x2005 := by decide
  exact (exec_of_error hf hwf hbody).trans (by rw [State.takeFault, ← hword]; rfl)

/-- Settles O52: the scan loop stands before the range check, and both before the first write. -/
theorem dequantFaultsBeforeWriting : Obligations.DequantFaultsBeforeWriting := by
  unfold Obligations.DequantFaultsBeforeWriting
  intro s n intra nonlin losslessDc qscale dcScale blk mat hok hf hwf hn
  let o : DequantOps := ⟨n, intra, nonlin, losslessDc, qscale, dcScale, blk, mat⟩
  exact ⟨fun hmet => DequantOps.exec_of_zeroMatrix (o := o) hf hwf hn hmet, fun hmet ⟨k, v, _, hv, hrange⟩ =>
    DequantOps.exec_of_overflow (o := o) hok hf hwf hn hmet hv hrange⟩

/-! ### The coefficients after DEQUANT -/

/-- The bytes of a block whose 128 addresses do not wrap onto one another. -/
theorem State.block_distinct {s : State} (haddr : 7 ≤ s.params.addrW) (blk : Word64) {i j : Nat} (hi : i < 128) (hj : j < 128)
    (h : s.wrapAddr (blk.toNat + i) = s.wrapAddr (blk.toNat + j)) : i = j := by
  have hpow : (2 : Nat) ^ 7 ≤ 2 ^ s.params.addrW := Nat.pow_le_pow_right (by decide) haddr
  have hmod : i % 2 ^ s.params.addrW = j % 2 ^ s.params.addrW := Nat.ModEq.add_left_cancel' blk.toNat h
  rwa [Nat.mod_eq_of_lt (by omega), Nat.mod_eq_of_lt (by omega)] at hmod

/-- One coefficient written, and the 63 others (20_memory.md R39). -/
theorem State.coef_writeCoef {s : State} (haddr : 7 ≤ s.params.addrW) (blk : Word64) {k n : Nat} (hk : k < 64) (hn : n < 64)
    {v : Int} (hv : -32768 ≤ v ∧ v ≤ 32767) : (s.writeCoef blk n v).coef blk k = if k = n then v else s.coef blk k := by
  have hne : ∀ i j, i < 128 → j < 128 → i ≠ j → s.wrapAddr (blk.toNat + i) ≠ s.wrapAddr (blk.toNat + j) :=
    fun i j hi hj hij h => hij (State.block_distinct haddr blk hi hj h)
  unfold State.coef
  rw [State.readByte_writeCoef, State.readByte_writeCoef, Nat.add_assoc blk.toNat (2 * k) 1, Nat.add_assoc blk.toNat (2 * n) 1,
    if_neg (hne (2 * k) (2 * n + 1) (by omega) (by omega) (by omega))]
  by_cases hkn : k = n
  · subst hkn
    rw [if_pos rfl, if_pos rfl, if_pos rfl, sext_lowByte_highByte v hv.1 hv.2]
  · rw [if_neg (hne (2 * k) (2 * n) (by omega) (by omega) (by omega)),
      if_neg (hne (2 * k + 1) (2 * n + 1) (by omega) (by omega) (by omega)),
      if_neg (hne (2 * k + 1) (2 * n) (by omega) (by omega) (by omega)), if_neg hkn]

/-- The coefficients after the assigned ones below `n` are written. -/
theorem State.coef_writeAssigned {s : State} (haddr : 7 ≤ s.params.addrW) (blk : Word64) {out : List (Nat × Int)}
    (hfits : ∀ k v, lookupAt out k = some v → -32768 ≤ v ∧ v ≤ 32767) {n : Nat} (hn : n ≤ 64) {k : Nat} (hk : k < 64) :
    (s.writeAssigned blk out n).coef blk k = if k < n then (lookupAt out k).getD (s.coef blk k) else s.coef blk k := by
  induction n with
  | zero => rfl
  | succ n ih =>
    have hih := ih (by omega)
    have haddr' : 7 ≤ (s.writeAssigned blk out n).params.addrW := by
      rw [State.writeAssigned_frame]
      exact haddr
    rw [State.writeAssigned]
    cases hv : lookupAt out n with
    | none =>
      rw [hih]
      by_cases hkn : k = n
      · rw [if_neg (by omega), if_pos (by omega), hkn, hv]
        rfl
      · exact if_congr (by omega) rfl rfl
    | some v =>
      dsimp only
      rw [State.coef_writeCoef haddr' blk hk (by omega) (hfits n v hv), hih]
      by_cases hkn : k = n
      · rw [if_pos hkn, if_pos (by omega), hkn, hv]
        rfl
      · rw [if_neg hkn]
        exact if_congr (by omega) rfl rfl

/-- A DEQUANT whose values all fit completes, and writes what the scan loop assigned. -/
theorem DequantOps.exec_of_fits {o : DequantOps} {s : State} (hok : s.params.ok = true) (hf : s.faulted = false)
    (hwf : o.instr.wellFormed = true) (hn : 1 ≤ o.n.toNat) (hmet : s.zeroMatrixMet o.blk o.mat o.n.toNat o.intra = false)
    (hvalues : ∀ k v, k < 64 → o.value s k = some v → -32768 ≤ v ∧ v ≤ 32767) :
    ∃ out, exec o.instr s = .next ((s.writeAssigned o.blk out 64).complete 0 false) ∧
      (∀ k, lookupAt out k = o.value s k) ∧ ∀ k v, lookupAt out k = some v → -32768 ≤ v ∧ v ≤ 32767 := by
  have hle := DequantOps.n_le hwf
  rcases o.scan_cases s with ⟨hyes, _⟩ | ⟨_, out, hscan⟩
  · simp [hmet] at hyes
  have hlisted : ∀ e ∈ out, -32768 ≤ e.2 ∧ e.2 ≤ 32767 := fun e he => by
    obtain ⟨hk, hv⟩ := DequantOps.value_of_mem_scan hok hle hscan he
    exact hvalues e.1 e.2 hk hv
  have hall : out.all (fun e => fitsInt16 e.2) = true :=
    List.all_eq_true.mpr fun e he => (fitsInt16_iff e.2).mpr (hlisted e he)
  have hbody := DequantOps.body_of_scan hn hscan
  rw [if_pos hall] at hbody
  have hexec := exec_of_ok hf hwf hbody
  exact ⟨out, hexec, DequantOps.lookup_scan hok hle hscan, fun k v hv => hlisted (k, v) (mem_of_lookupAt hv)⟩

/-- Settles O51: the scan loop assigns the dequantized values, and each stands in its own two bytes. -/
theorem dequantScalesCoefficients : Obligations.DequantScalesCoefficients := by
  unfold Obligations.DequantScalesCoefficients
  intro s n intra nonlin losslessDc qscale dcScale blk mat hok haddr hf hwf hn hmet hvalues
  obtain ⟨out, hexec, hlookup, hfits⟩ := DequantOps.exec_of_fits
    (o := ⟨n, intra, nonlin, losslessDc, qscale, dcScale, blk, mat⟩) hok hf hwf hn hmet hvalues
  have hframe := s.writeAssigned_frame blk out 64
  have hcoef : ∀ k, k < 64 → (s.writeAssigned blk out 64).coef blk k = (lookupAt out k).getD (s.coef blk k) := fun k hk => by
    rw [State.coef_writeAssigned haddr blk hfits (Nat.le_refl 64) hk, if_pos hk]
  have hrest := s.writeAssigned_outside blk out 64
  refine ⟨_, hexec, ?_⟩
  dsimp only
  generalize s.writeAssigned blk out 64 = t at hframe hcoef hrest
  refine ⟨?_, ?_, rfl, rfl, fun k hk => ?_, fun a ha => hrest a fun j hj => State.ne_of_not_inBlock ha hj⟩
  · unfold memoryFrame
    rw [hframe]
    rfl
  · rw [State.complete_freeCount, hframe]
  · exact (hcoef k hk).trans (by rw [hlookup]; rfl)

end Sys2Proof.Machine
end
